-- ==== Sys2Proof/Word.lean ====
section
/-! DEFINITION. The word types of the block: the widths of 10_state.md and 30_encoding.md. -/

namespace Sys2Proof

/-- A byte is 8 bits, bit 0 the least significant (R13). -/
abbrev Byte := BitVec 8

/-- A DeviceAddress as a 64-bit value, `a[0]` in bits 7:0 (R98, R116 (a)).
Search position `p` is bit `p - 1` of it (R63). -/
abbrev Addr := BitVec 64

/-- A temperature: a signed `TEMP_WIDTH` = 32-bit number of hundredths of a degree (R37, R112). -/
abbrev Temp := BitVec 32

/-- A time of the host: an unsigned `TIME_WIDTH` = 32-bit number (R41, R116 (e)). -/
abbrev Time := BitVec 32

/-- A countdown: an unsigned `CD_WIDTH` = 16-bit number of effective ticks (R39). -/
abbrev Ticks := BitVec 16

end Sys2Proof
end

