-- ==== Sys2Proof/Config.lean ====
section
/-! DEFINITION. What an implementation fixes (the parameters of 00_scope.md R8), the slot timings, the bus
events, and the model's free values: the bus oracle and the open parameters of the block after reset. -/

namespace Sys2Proof

/-- The five events of the line (R15). The level a `sample` was answered with is kept on the event, as the
short names `RST(s)` and `RD(s)` of 30_encoding.md keep it. -/
inductive BusEvent where
  | driveLow (t : Nat)
  | release (t : Nat)
  | sample (level : Bool)
  | critEnter
  | critExit
  deriving DecidableEq, Repr

/-- The implementation parameters that R8 leaves OPEN, and `T_RSTL`, a minimum that an implementation may
exceed (U14). They are arguments of the model: a state carries them and no step changes them. -/
structure Params where
  /-- `N_MAX`, the registry capacity -/
  nMax : Nat
  /-- `TICK_INTERVAL`, in the unit of `now` -/
  tickInterval : Time
  /-- `CONVERT_WAIT_TICKS` -/
  convertWaitTicks : Ticks
  /-- `CYCLE_DELAY_TICKS` -/
  cycleDelayTicks : Ticks
  /-- `FAMILY_A_CODES` -/
  familyA : List Byte
  /-- `FAMILY_B_CODES` -/
  familyB : List Byte
  /-- `TEMP_SENTINEL` -/
  tempSentinel : Temp
  /-- `T_CONV_BLOCK`, microseconds -/
  tConvBlock : Nat
  /-- `T_RSTL`, microseconds, at least 480 -/
  tRstl : Nat
  deriving DecidableEq, Repr, Inhabited

namespace Config

/-! The slot timings of R8, R90 to R93 and R330, in microseconds: labels on the events, read by no rule. -/

def tPds : Nat := 70
def tRsth : Nat := 410
def tW1l : Nat := 6
def tW1h : Nat := 64
def tW0l : Nat := 60
def tW0h : Nat := 10
def tRdl : Nat := 6
def tRds : Nat := 9
def tRdi : Nat := 55

/-- FREE VALUE (R74, U4): the level the bus answers a `sample` with, a function of all that the line
has carried up to that point and of a choice. It has no body, so what is proved holds for every oracle. -/
opaque oracle : (choice : Nat) → (history : List BusEvent) → Bool

/-- FREE VALUE (U12): the parameters of the block as it comes out of reset; R8 leaves them OPEN. What is proved
of the reset state holds for every choice of them. -/
opaque params : Params

/-- FREE VALUE (G14, U6; notes/assumptions/18): whether a conversion result lies outside a device's two alarm bytes.
R75 names the comparison and gives neither the scale of the bytes nor how the limits themselves count. -/
opaque outsideAlarmLimits : (family : Byte) → (raw : Int) → (high low : Byte) → Bool

/-- DESIGN CHOICE (notes/assumptions/7): how many search passes one step of the model runs at most. A search that
has not ended by then stays in flight and goes on in the next step: on a line stuck low, whose tree has 2^64 leaves
(R195, R327), no step of any run of practical length presents a result. -/
def passBudget : Nat := 65536

end Config

end Sys2Proof
end

