-- ==== Sys2Proof/Syntax.lean ====
section
/-! DEFINITION. The instructions: one constructor per row of spec/opcode_table.json, the 22 operations of R114 and the
11 command bytes of R100 to R110; and what travels beside an operation word (R115). -/

namespace Sys2Proof

/-- One constructor per row of the opcode table. A field is the flag `f` of R115, for the five operations that
have one; every other operand travels beside the word (`Operands`). -/
inductive Instr where
  | reset
  | writeBit (bit : Bool)
  | readBit
  | writeByte
  | readByte
  | writeBytes
  | readBytes
  | crc8
  | searchRom (alarmOnly : Bool)
  | discover (filterByFamily : Bool)
  | selectAddressed
  | selectAll
  | startConversion (broadcast : Bool)
  | readTemperature
  | convertBlocking (broadcast : Bool)
  | advance
  | setReadyCallback
  | getMin
  | getMid
  | getMax
  | getAddresses
  | reinit
  | searchRomCmd
  | readRomCmd
  | matchRomCmd
  | skipRomCmd
  | alarmSearchCmd
  | convertTCmd
  | writeScratchpadCmd
  | readScratchpadCmd
  | copyScratchpadCmd
  | recallE2Cmd
  | readPowerSupplyCmd
  deriving DecidableEq, Repr

/-- The operands beside the operation word (R115): `ARG_BYTE`, `ARG_N`, `ARG_ADDR`, `ARG_DATA`, `ARG_TIME`. -/
structure Operands where
  byte : Byte := 0
  n : Nat := 0
  addr : Addr := 0
  data : List Byte := []
  time : Time := 0
  deriving DecidableEq, Repr

/-- One call the ready consumer makes while the callback runs (R253): an operation word with its operands. -/
structure Call where
  word : Byte
  ops : Operands := {}
  deriving DecidableEq, Repr

/-- The two things an 8-bit word of the opcode table can be: the operation word `OPW` (R115), or a command byte put
on the line (R100 to R110). The same value means different things in the two (R117 (a), (d)). -/
inductive Port where
  | operation
  | lineCommand
  deriving DecidableEq, Repr

end Sys2Proof
end

