-- ==== Sys2Proof/WellFormed.lean ====
section
/-! DEFINITION. Which parameters and which operands are well formed. Every `Instr` is: a flag exists only where R115
gives the operation one. -/

namespace Sys2Proof

/-- The constraints of R8 on the parameters (U13: a model takes them as hypotheses). `TICK_INTERVAL` < 2^TIME_WIDTH
and the upper bounds of the two countdowns hold by their types. -/
def Params.wf (p : Params) : Bool :=
  1 ≤ p.nMax && 1 ≤ p.convertWaitTicks.toNat && 1 ≤ p.cycleDelayTicks.toNat
    && p.familyA.all (fun c => !p.familyB.contains c) && 480 ≤ p.tRstl

/-- Whether an instruction's operands are there: the two operations that read `ARG_DATA` need the `ARG_N` bytes
`data[0..n-1]` (R115: "a list of `ARG_N` bytes"; R155, R170). -/
def operandsWf (i : Instr) (o : Operands) : Bool :=
  match i with
  | .writeBytes | .crc8 => o.n ≤ o.data.length
  | .reset | .writeBit _ | .readBit | .writeByte | .readByte | .readBytes | .searchRom _ | .discover _
  | .selectAddressed | .selectAll | .startConversion _ | .readTemperature | .convertBlocking _ | .advance
  | .setReadyCallback | .getMin | .getMid | .getMax | .getAddresses | .reinit | .searchRomCmd | .readRomCmd
  | .matchRomCmd | .skipRomCmd | .alarmSearchCmd | .convertTCmd | .writeScratchpadCmd | .readScratchpadCmd
  | .copyScratchpadCmd | .recallE2Cmd | .readPowerSupplyCmd => true

end Sys2Proof
end

