-- ==== Sys2Proof/Decode.lean ====
section
/-! DEFINITION. The decoder, total on any bytes, and the encoder: operation words (R114, R115, R117) and command
bytes (R100 to R110). -/

namespace Sys2Proof

/-- The code column of R114 with the flag of R115: a code that is not assigned, and `f` = 1 on an operation that has
no flag, decode to nothing (R117 (a)). -/
def decodeCode (code : Nat) (f : Bool) : Option Instr :=
  match code, f with
  | 0x00, false => some .reset
  | 0x01, f => some (.writeBit f)
  | 0x02, false => some .readBit
  | 0x03, false => some .writeByte
  | 0x04, false => some .readByte
  | 0x05, false => some .writeBytes
  | 0x06, false => some .readBytes
  | 0x07, false => some .crc8
  | 0x08, f => some (.searchRom f)
  | 0x09, f => some (.discover f)
  | 0x0A, false => some .selectAddressed
  | 0x0B, false => some .selectAll
  | 0x0C, f => some (.startConversion f)
  | 0x0D, false => some .readTemperature
  | 0x0E, f => some (.convertBlocking f)
  | 0x10, false => some .advance
  | 0x11, false => some .setReadyCallback
  | 0x12, false => some .getMin
  | 0x13, false => some .getMid
  | 0x14, false => some .getMax
  | 0x15, false => some .getAddresses
  | 0x16, false => some .reinit
  | _, _ => none

/-- `OPW`: bits 4:0 the code, bit 5 the flag, bits 7:6 zero (R115, R117 (a)). -/
def decodeOpw (w : Byte) : Option Instr :=
  if w.extractLsb' 6 2 = 0 then decodeCode (w.extractLsb' 0 5).toNat (w.getLsbD 5) else none

/-- The eleven command bytes (R100 to R110). -/
def decodeLineCommand (w : Byte) : Option Instr :=
  match w.toNat with
  | 0xF0 => some .searchRomCmd
  | 0x33 => some .readRomCmd
  | 0x55 => some .matchRomCmd
  | 0xCC => some .skipRomCmd
  | 0xEC => some .alarmSearchCmd
  | 0x44 => some .convertTCmd
  | 0x4E => some .writeScratchpadCmd
  | 0xBE => some .readScratchpadCmd
  | 0x48 => some .copyScratchpadCmd
  | 0xB8 => some .recallE2Cmd
  | 0xB4 => some .readPowerSupplyCmd
  | _ => none

/-- What a word means on each of the two ports. -/
def decodeAt (p : Port) (w : Byte) : Option Instr :=
  match p with
  | .operation => decodeOpw w
  | .lineCommand => decodeLineCommand w

/-- The port on which a word of the opcode table is an instruction: no legal operation word is a command byte, so at
most one reads it (Laws/Decode.lean); a word neither reads is left to the operation port, which refuses it. -/
def portOf (w : Byte) : Port :=
  match decodeOpw w, decodeLineCommand w with
  | none, some _ => .lineCommand
  | _, _ => .operation

/-- The decoder on bytes: one instruction from the first byte, and the bytes after it. -/
def decode (bytes : List Byte) : Option (Instr × List Byte) :=
  match bytes with
  | [] => none
  | w :: rest =>
    match decodeAt (portOf w) w with
    | none => none
    | some i => some (i, rest)

/-- The operation word of a code and a flag (R115). -/
def opw (code : Nat) (f : Bool) : Byte := BitVec.ofNat 8 (if f then code + 0x20 else code)

/-- The port an instruction is issued on. -/
def encodePort (i : Instr) : Port :=
  match i with
  | .reset | .writeBit _ | .readBit | .writeByte | .readByte | .writeBytes | .readBytes | .crc8 | .searchRom _
  | .discover _ | .selectAddressed | .selectAll | .startConversion _ | .readTemperature | .convertBlocking _
  | .advance | .setReadyCallback | .getMin | .getMid | .getMax | .getAddresses | .reinit => .operation
  | .searchRomCmd | .readRomCmd | .matchRomCmd | .skipRomCmd | .alarmSearchCmd | .convertTCmd | .writeScratchpadCmd
  | .readScratchpadCmd | .copyScratchpadCmd | .recallE2Cmd | .readPowerSupplyCmd => .lineCommand

/-- The word of an instruction, from the code column of R114 and the command bytes of R100 to R110. -/
def encodeWord (i : Instr) : Byte :=
  match i with
  | .reset => opw 0x00 false
  | .writeBit f => opw 0x01 f
  | .readBit => opw 0x02 false
  | .writeByte => opw 0x03 false
  | .readByte => opw 0x04 false
  | .writeBytes => opw 0x05 false
  | .readBytes => opw 0x06 false
  | .crc8 => opw 0x07 false
  | .searchRom f => opw 0x08 f
  | .discover f => opw 0x09 f
  | .selectAddressed => opw 0x0A false
  | .selectAll => opw 0x0B false
  | .startConversion f => opw 0x0C f
  | .readTemperature => opw 0x0D false
  | .convertBlocking f => opw 0x0E f
  | .advance => opw 0x10 false
  | .setReadyCallback => opw 0x11 false
  | .getMin => opw 0x12 false
  | .getMid => opw 0x13 false
  | .getMax => opw 0x14 false
  | .getAddresses => opw 0x15 false
  | .reinit => opw 0x16 false
  | .searchRomCmd => 0xF0
  | .readRomCmd => 0x33
  | .matchRomCmd => 0x55
  | .skipRomCmd => 0xCC
  | .alarmSearchCmd => 0xEC
  | .convertTCmd => 0x44
  | .writeScratchpadCmd => 0x4E
  | .readScratchpadCmd => 0xBE
  | .copyScratchpadCmd => 0x48
  | .recallE2Cmd => 0xB8
  | .readPowerSupplyCmd => 0xB4

/-- The bytes of an instruction: one. -/
def encode (i : Instr) : List Byte := [encodeWord i]

/-- The bytes of a table word of `nbits` bits, bit 0 the least significant bit of the first. -/
def tableBytes (nbits w : Nat) : List Byte :=
  (List.range ((nbits + 7) / 8)).map (fun k => BitVec.ofNat 8 (w >>> (8 * k)))

/-- The instruction the decoder reads from a word of the opcode table. -/
def decodeTableWord (nbits w : Nat) : Option Instr :=
  match decode (tableBytes nbits w) with
  | none => none
  | some r => some r.1

end Sys2Proof
end

