-- ==== Sys2Proof/Machine/State.lean ====
section
/-! DEFINITION. The state of the machine, as plain data: the 20 elements of 10_state.md R20, the open parameters (R8),
what is attached to the line (R47, R74, R75), and the host's port (R115). -/

namespace Sys2Proof.Machine

/-- Nothing the spec describes is a fault of the machine: "No operation traps" (R284), and 93 treats no behaviour as
`fault`. The type has no constructor, so that no step faults holds by its type. The three fault classes of R280 to
R282, which show only in results, are `FaultClass` in Safety.lean. -/
inductive Fault where
  deriving DecidableEq, Repr

/-- Why the machine answers no step. *Refused* (R19): "the spec gives the operation no meaning in that situation and a
model must not step"; "no state change, no bus event, no result" (D33). -/
inductive Refusal where
  /-- Raised by `exec` for an instruction the model gives no meaning: no instruction of this model. Safe. -/
  | notModelled (mnemonic : String)
  /-- Raised by `step` for an operation word with an unassigned code, a nonzero bit 7:6, or a flag on an operation that
  has none (R117 (a)), and for a word given as a command byte that is none of the eleven. Safe. -/
  | reservedEncoding
  /-- Raised by DISCOVER when the scheduler is in Convert, ConvertWait, Read or ReadWait (R260, U3). Safe. -/
  | discoverMidCycle
  /-- Raised by WRITE_BYTES and CRC8 when `ARG_DATA` holds fewer than `ARG_N` bytes, which R115 excludes
  ("a list of `ARG_N` bytes"; D33: operands out of range are refused). Safe. -/
  | dataShorterThanCount
  deriving DecidableEq, Repr

/-- What is in one attached device of the ideal bus between two slots (R47, R75). -/
inductive DevPhase where
  /-- waiting for a ROM command, `n` bits of it received -/
  | romCommand (n : Nat) (bits : Byte)
  /-- in a search pass, about to send the bit of position `p` -/
  | searchBit (p : Nat)
  /-- in a search pass, about to send the complement of the bit of position `p` -/
  | searchComplement (p : Nat)
  /-- in a search pass, about to receive the direction of position `p` -/
  | searchDirection (p : Nat)
  /-- comparing the address after Match-ROM, `k` bits of it received, all equal so far -/
  | matching (k : Nat)
  /-- selected, waiting for a function command, `n` bits of it received -/
  | functionCommand (n : Nat) (bits : Byte)
  /-- selected by Read-Scratchpad, about to send scratchpad bit `k` -/
  | sending (k : Nat)
  /-- out of the frame until the next reset slot -/
  | idle
  deriving DecidableEq, Repr

/-- A device of the ideal bus: its address, its 9-byte scratchpad, its alarm flag, the scratchpads its next conversions
give it (the script), and where it stands in the frame (R75). -/
structure Device where
  addr : Addr
  scratchpad : List Byte
  alarm : Bool := false
  conversions : List (List Byte) := []
  phase : DevPhase := .idle
  deriving DecidableEq, Repr

/-- What answers the block's samples (R74, R75): an oracle, whose next answers are `script` and whose answers after them
are the free value `Config.oracle` of all that the line has carried, `past` being what it carried before the last reset
event (R312; notes/assumptions/1); or the ideal bus over a list of devices. -/
inductive Bus where
  | oracle (script : List Bool) (choice : Nat) (past : List BusEvent)
  | ideal (devices : List Device)
  deriving DecidableEq, Repr

/-- The block's end of the line: `LINE_DRIVE` (R21), `CRIT` (R22), the event history `H` (R74), oldest first, and what
is attached to the line. -/
structure Line where
  lineDrive : Bool
  crit : Bool
  hist : List BusEvent
  bus : Bus
  deriving DecidableEq, Repr

/-- The search registers (R23 to R28): `ROM_BUF` as a 64-bit value, `SEARCH_POS`, `LAST_DISC`, `CAND_DISC`,
`SEARCH_FAULT`, `OUT`. `OUT_COUNT` is the length of `OUT` (R28) and is not stored a second time. -/
structure Search where
  romBuf : Addr
  pos : Nat
  lastDisc : Nat
  candDisc : Nat
  fault : Bool
  out : List Addr
  deriving DecidableEq, Repr

/-- `OUT_COUNT` (R28). -/
def Search.outCount (q : Search) : Nat := q.out.length

/-- A DeviceRecord (R33 to R37, R112). -/
structure Record where
  active : Bool
  valid : Bool
  temp : Temp
  deriving DecidableEq, Repr

/-- `FSM_STATE` (R38), a six-valued type (R113). -/
inductive SchedulerState where
  | init
  | convert
  | convertWait
  | read
  | readWait
  | noSensor
  deriving DecidableEq, Repr

/-- The 3-bit codes of R113, for a bit-level implementation. -/
def SchedulerState.code (f : SchedulerState) : BitVec 3 :=
  match f with
  | .init => 0
  | .convert => 1
  | .convertWait => 2
  | .read => 3
  | .readWait => 4
  | .noSensor => 5

/-- What the block does with the result of a search when the search ends: present it (R180), go on as `Discover` (R210),
or go on as the Init tick (R244). -/
inductive AfterSearch where
  | report
  | discover (filterByFamily : Bool)
  | initTick
  deriving DecidableEq, Repr

/-- A search that has not ended after `Config.passBudget` passes, at a pass boundary (R195, U8): its operands and what
follows it. Its registers stay in `Search`. -/
structure InFlight where
  capacity : Nat
  alarmOnly : Bool
  next : AfterSearch
  deriving DecidableEq, Repr

/-- The results of R115: an operation presents the ones its row of R114 names, and no other. -/
structure Answer where
  bit : Option Bool := none
  byte : Option Byte := none
  data : Option (List Byte) := none
  count : Option Nat := none
  temp : Option Temp := none
  addrs : Option (List Addr) := none
  deriving DecidableEq, Repr

/-- The ready event (R252): what the full record set holds at the call, the count, and what the block answered to each call
the consumer made while the callback ran (R253), `none` for a refused call. It is the trace of the call; the records the
consumer is handed are the block's own (R333): `State.handedRecords`. -/
structure ReadyEvent where
  records : List Record
  count : Nat
  answers : List (Option Answer)
  deriving DecidableEq, Repr

/-- What the outside world does next: issue an operation or a command byte (R115), change what is attached to the line
(R329), or the reset event (R310). -/
inductive HostInput where
  | call (port : Port) (word : Byte) (ops : Operands) (cb : Option (List Call))
  | rewire (bus : Bus)
  | reset
  deriving DecidableEq, Repr

/-- The machine. -/
structure State where
  /-- the open parameters (R8); no step changes them -/
  params : Params
  /-- `LINE_DRIVE`, `CRIT`, `H`, and what is attached to the line -/
  line : Line
  /-- `ROM_BUF`, `SEARCH_POS`, `LAST_DISC`, `CAND_DISC`, `SEARCH_FAULT`, `OUT`, `OUT_COUNT` -/
  search : Search
  /-- `REG[0..N_MAX-1]` (R30) -/
  reg : List Addr
  /-- `REG_COUNT` (R31) -/
  regCount : Nat
  /-- `REC[0..N_MAX-1]` (R33) -/
  recs : List Record
  /-- `FSM_STATE` (R38) -/
  fsm : SchedulerState
  /-- `COUNTDOWN` (R39) -/
  countdown : Ticks
  /-- `CURSOR` (R40) -/
  cursor : Nat
  /-- `LAST_TIME` (R41) -/
  lastTime : Time
  /-- `CB_SET` (R43) -/
  cbSet : Bool
  /-- `SP_BUF[0..8]` (R44) -/
  spBuf : List Byte
  /-- the model's own: a search that has not ended yet (R195) -/
  inFlight : Option InFlight
  /-- the host's: the calls the registered callback makes (R253); whose callback it is, is not the block's (R43) -/
  callback : List Call
  /-- the ready consumer's: how many of the block's own records the last ready event handed it (R333) -/
  handed : Option Nat
  /-- the host port: the operands of the operation now running (R115) -/
  ops : Operands
  /-- the host port: the callback operand of SET_READY_CALLBACK (R251) -/
  argCb : Option (List Call)
  /-- the host port: what the host does next, first first -/
  inputs : List HostInput
  /-- the host port: the results of the last operation (R115) -/
  res : Answer
  /-- the host port: the ready event of the last operation, if it fired one (R252) -/
  ready : Option ReadyEvent
  deriving DecidableEq, Repr

/-- The records the ready consumer holds: the block's own `REC`, not a copy, so they change at the next Read tick (R333). -/
def State.handedRecords (s : State) : Option (List Record) := s.handed.map (fun n => s.recs.take n)

/-- What a step and a meaning answer. -/
abbrev Outcome := Host.Outcome State Fault Refusal

/-- The line as reset leaves it: released, not in a critical section, the history empty (R310), and nothing said to the
devices (R312). -/
def Line.afterReset (b : Bus) : Line :=
  { lineDrive := false, crit := false, hist := [], bus := b }

/-- The search registers as reset leaves them (R20). -/
def Search.afterReset : Search :=
  { romBuf := 0, pos := 1, lastDisc := 0, candDisc := 0, fault := false, out := [] }

/-- The reset values of R20 and R310, for given parameters and a given bus. -/
def State.resetWith (p : Params) (b : Bus) : State :=
  { params := p
    line := Line.afterReset b
    search := Search.afterReset
    reg := List.replicate p.nMax 0
    regCount := 0
    recs := List.replicate p.nMax { active := false, valid := false, temp := p.tempSentinel }
    fsm := .init
    countdown := 0
    cursor := 0
    lastTime := 0
    cbSet := false
    spBuf := List.replicate 9 0
    inFlight := none
    callback := []
    handed := none
    ops := {}
    argCb := none
    inputs := []
    res := {}
    ready := none }

/-- The machine right after reset (R310): the parameters and the bus are free (R8, R74). -/
def State.reset : State := State.resetWith Config.params (.oracle [] 0 [])

end Sys2Proof.Machine
end

