-- ==== Sys2Proof/Machine/Operands.lean ====
section
/-! DEFINITION. Operand and data forms: bit order (R61, R94), address layout (R63, R98, R116 (a)), the raw temperature
(R64, R116 (b)), the decode arithmetic (R221, R222), and the operand bytes of ARG_DATA (R115). -/

namespace Sys2Proof.Machine

/-- The bits of a byte in the order they go on the line, bit 0 first (R61, R94). -/
def byteBits (v : Byte) : List Bool :=
  [v.getLsbD 0, v.getLsbD 1, v.getLsbD 2, v.getLsbD 3, v.getLsbD 4, v.getLsbD 5, v.getLsbD 6, v.getLsbD 7]

/-- The value of bits received, the first one the least significant: `s0 + 2*s1 + ... + 128*s7` (R94). -/
def bitsValue (bits : List Bool) : Nat :=
  match bits with
  | [] => 0
  | b :: rest => b.toNat + 2 * bitsValue rest

/-- The byte of eight bits received (R154). -/
def byteOfBits (bits : List Bool) : Byte := BitVec.ofNat 8 (bitsValue bits)

/-- `a[k]` of an address (R98, R116 (a)). -/
def addrByte (a : Addr) (k : Nat) : Byte := a.extractLsb' (8 * k) 8

/-- The eight bytes of an address in index order (R98). -/
def addrBytes (a : Addr) : List Byte :=
  [addrByte a 0, addrByte a 1, addrByte a 2, addrByte a 3, addrByte a 4, addrByte a 5, addrByte a 6, addrByte a 7]

/-- The 64-bit value of bytes in index order, `a[0]` least significant (R98). -/
def bytesValue (bytes : List Byte) : Nat :=
  match bytes with
  | [] => 0
  | v :: rest => v.toNat + 256 * bytesValue rest

/-- The address with these eight bytes (R98, R119). -/
def addrOfBytes (bytes : List Byte) : Addr := BitVec.ofNat 64 (bytesValue bytes)

/-- The bit of search position `p`, 1 to 64: bit `(p-1) mod 8` of byte `(p-1) div 8` (R63). -/
def positionBit (a : Addr) (p : Nat) : Bool := (addrByte a ((p - 1) / 8)).getLsbD ((p - 1) % 8)

/-- The address with the bit of search position `p` set to `d` (R188). -/
def setPosition (a : Addr) (p : Nat) (d : Bool) : Addr :=
  if d then a ||| (1#64 <<< (p - 1)) else a &&& ~~~(1#64 <<< (p - 1))

/-- The family code of an address: its leading byte (R98, R211). -/
def familyCode (a : Addr) : Byte := addrByte a 0

/-- The raw temperature `sext_16(s[1] * 256 + s[0])`: low byte first, two's complement (R64, R116 (b)). -/
def rawTemperature (sp : List Byte) : Int := (sp.getD 1 0 ++ sp.getD 0 0 : BitVec 16).toInt

/-- Integer division truncating toward zero (R222). -/
def tdiv (a b : Int) : Int := Int.tdiv a b

/-- A temperature value in the signed 32 bits of R37; R223 says every decodable value fits. -/
def tempOfInt (x : Int) : Temp := BitVec.ofInt 32 x

/-- The scale of R221, by the family of the operand address; the sentinel for a family in neither set (D14). -/
def decodeTemperature (p : Params) (a : Addr) (sp : List Byte) : Temp :=
  if p.familyA.contains (familyCode a) then tempOfInt (tdiv (rawTemperature sp * 100) 2)
  else if p.familyB.contains (familyCode a) then tempOfInt (tdiv (rawTemperature sp * 100) 16)
  else p.tempSentinel

/-- `data[0..n-1]` of WRITE_BYTES and CRC8 (R155, R170). -/
def dataBytes (o : Operands) : List Byte := o.data.take o.n

/-- The target of START_CONVERSION and CONVERT_BLOCKING: `none` is broadcast, `f` = 1 (R216, D36). -/
def conversionTarget (broadcast : Bool) (o : Operands) : Option Addr :=
  if broadcast then none else some o.addr

end Sys2Proof.Machine
end

