-- ==== Sys2Proof/Machine/Flags.lean ====
section
/-! DEFINITION. The checks and one-bit conditions: CRC-8 (R170), the two CRC checks (R174), the recognised families
(R211), the rate gate (R241), the validity flag (R35, R247), and the queries over valid records (R254 to R257). The
block has no condition codes (R46). -/

namespace Sys2Proof.Machine

/-- One bit step of the CRC register (R170). -/
def crcBit (crc : Byte) (b : Bool) : Byte :=
  if (crc.getLsbD 0) ^^ b then (crc >>> 1) ^^^ 0x8C else crc >>> 1

/-- One byte of the CRC, least significant bit first (R170). -/
def crcByte (crc v : Byte) : Byte := (byteBits v).foldl crcBit crc

/-- `Crc8(data)`: seed 0, one byte at a time (R170). -/
def crc8 (data : List Byte) : Byte := data.foldl crcByte 0

/-- `Crc8(a[0..6]) == a[7]` (R98, R174 (a)). -/
def addrCrcOk (a : Addr) : Bool := crc8 ((addrBytes a).take 7) == addrByte a 7

/-- `Crc8(s[0..7]) == s[8]` (R99, R174 (b), R220). -/
def scratchpadCrcOk (sp : List Byte) : Bool := crc8 (sp.take 8) == sp.getD 8 0

/-- `recognised(c)` (R211). -/
def recognised (p : Params) (c : Byte) : Bool := p.familyA.contains c || p.familyB.contains c

/-- Whether `Advance(now)` is effective: `(now - LAST_TIME) mod 2^TIME_WIDTH >= TICK_INTERVAL` (R241). -/
def tickEffective (p : Params) (lastTime now : Time) : Bool := p.tickInterval.toNat ≤ (now - lastTime).toNat

/-- The validity a read leaves: the result is not the sentinel (R35, R247). -/
def readValid (p : Params) (t : Temp) : Bool := t != p.tempSentinel

/-- `V`: the temperatures of the valid records (R254). -/
def validTemps (recs : List Record) : List Temp := (recs.filter (fun r => r.valid)).map (fun r => r.temp)

/-- The lesser of two temperatures as signed numbers. -/
def lesserTemp (t u : Temp) : Temp := if u.toInt < t.toInt then u else t

/-- The greater of two temperatures as signed numbers. -/
def greaterTemp (t u : Temp) : Temp := if t.toInt < u.toInt then u else t

/-- The exact sum of temperatures (R256). -/
def tempSum (v : List Temp) : Int := (v.map (fun t => t.toInt)).foldl (· + ·) 0

/-- The least element of `V`, or the sentinel (R255). -/
def minimumTemp (p : Params) (recs : List Record) : Temp :=
  match validTemps recs with
  | [] => p.tempSentinel
  | t :: rest => rest.foldl lesserTemp t

/-- The mean of `V`, or the sentinel (R256). -/
def meanTemp (p : Params) (recs : List Record) : Temp :=
  match validTemps recs with
  | [] => p.tempSentinel
  | t :: rest => tempOfInt (tdiv (tempSum (t :: rest)) ((t :: rest).length : Int))

/-- The greatest element of `V`, or the sentinel (R257). -/
def maximumTemp (p : Params) (recs : List Record) : Temp :=
  match validTemps recs with
  | [] => p.tempSentinel
  | t :: rest => rest.foldl greaterTemp t

end Sys2Proof.Machine
end

