-- ==== Sys2Proof/Machine/Bus.lean ====
section
/-! DEFINITION. What is attached to the line: the oracle (R74) and the ideal bus (R75), slot by slot. -/

namespace Sys2Proof.Machine

/-- Which slot a sample is taken in: the reset slot (R90) or the read slot (R93). -/
inductive SlotKind where
  | resetSlot
  | readSlot
  deriving DecidableEq, Repr

/-- A reset slot brings a device back to the start of its protocol: it waits for a ROM command (R75, G5). -/
def Device.restart (d : Device) : Device := { d with phase := .romCommand 0 0 }

/-- What a device waiting for a ROM command does with it: `0xF0` and `0xEC` start a search pass, the second only in a
device with its alarm flag set; `0xCC` selects it; `0x55` starts the comparison; any other byte ends the frame for it
(R75; DESIGN CHOICE, notes/assumptions/9). -/
def Device.romCommand (d : Device) (c : Byte) : Device :=
  if c = 0xF0 then { d with phase := .searchBit 1 }
  else if c = 0xEC then { d with phase := if d.alarm then .searchBit 1 else .idle }
  else if c = 0xCC then { d with phase := .functionCommand 0 0 }
  else if c = 0x55 then { d with phase := .matching 0 }
  else { d with phase := .idle }

/-- A device takes the result of a conversion: the new scratchpad, and with it the alarm flag, set iff the result lies
outside the two alarm bytes of that scratchpad (R75, R99, G14). -/
def Device.takeResult (sp : List Byte) (d : Device) : Device :=
  { d with
    scratchpad := sp
    alarm := Config.outsideAlarmLimits (familyCode d.addr) (rawTemperature sp) (sp.getD 2 0) (sp.getD 3 0) }

/-- What a selected device does with a function command: `0xBE` sends the scratchpad, `0x44` takes a new result from
the script at that moment (R75); any other byte ends the frame for it (DESIGN CHOICE, notes/assumptions/9). -/
def Device.functionCommand (d : Device) (c : Byte) : Device :=
  if c = 0xBE then { d with phase := .sending 0 }
  else if c = 0x44 then
    match d.conversions with
    | [] => { d with phase := .idle }
    | sp :: rest => { d.takeResult sp with conversions := rest, phase := .idle }
  else { d with phase := .idle }

/-- What a written bit does to a device (R75). -/
def Device.hearBit (b : Bool) (d : Device) : Device :=
  match d.phase with
  | .romCommand n bits =>
    let c := bits ||| (BitVec.ofBool b).zeroExtend 8 <<< n
    if n < 7 then { d with phase := .romCommand (n + 1) c } else d.romCommand c
  | .searchBit _ => { d with phase := .idle }
  | .searchComplement _ => { d with phase := .idle }
  | .searchDirection p =>
    if positionBit d.addr p = b ∧ p < 64 then { d with phase := .searchBit (p + 1) } else { d with phase := .idle }
  | .matching k =>
    if positionBit d.addr (k + 1) = b then
      if k < 63 then { d with phase := .matching (k + 1) } else { d with phase := .functionCommand 0 0 }
    else { d with phase := .idle }
  | .functionCommand n bits =>
    let c := bits ||| (BitVec.ofBool b).zeroExtend 8 <<< n
    if n < 7 then { d with phase := .functionCommand (n + 1) c } else d.functionCommand c
  | .sending _ => d
  | .idle => d

/-- The level a device lets the line have in a read slot: 0 pulls it low (R75). -/
def Device.level (d : Device) : Bool :=
  match d.phase with
  | .searchBit p => positionBit d.addr p
  | .searchComplement p => !positionBit d.addr p
  | .sending k => (d.scratchpad.getD (k / 8) 0xFF).getLsbD (k % 8)
  | .romCommand _ _ | .searchDirection _ | .matching _ | .functionCommand _ _ | .idle => true

/-- A device after a read slot: it goes on to its next bit (R69). -/
def Device.afterRead (d : Device) : Device :=
  match d.phase with
  | .searchBit p => { d with phase := .searchComplement p }
  | .searchComplement p => { d with phase := .searchDirection p }
  | .sending k => { d with phase := .sending (k + 1) }
  | .romCommand _ _ | .searchDirection _ | .matching _ | .functionCommand _ _ | .idle => d

/-- The wired AND of the levels the devices let the line have (R60). -/
def wiredAnd (devices : List Device) : Bool := devices.all (fun d => d.level)

/-- The answer to one sample, and the bus after it (R74, R75). -/
def Bus.answer (k : SlotKind) (history : List BusEvent) (b : Bus) : Bool × Bus :=
  match b with
  | .oracle [] choice past => (Config.oracle choice (past ++ history), .oracle [] choice past)
  | .oracle (a :: script) choice past => (a, .oracle script choice past)
  | .ideal devices =>
    match k with
    | .resetSlot => (devices.isEmpty, .ideal (devices.map Device.restart))
    | .readSlot => (wiredAnd devices, .ideal (devices.map Device.afterRead))

/-- The bus after a write slot of value `v`. -/
def Bus.written (v : Bool) (b : Bus) : Bus :=
  match b with
  | .oracle script choice past => .oracle script choice past
  | .ideal devices => .ideal (devices.map (Device.hearBit v))

/-- The bus over a reset event of the block, which empties the event history: the devices carry on, so an oracle keeps what
the line carried; the devices of an ideal bus hold their state themselves (R47, R312). -/
def Bus.carryOn (history : List BusEvent) (b : Bus) : Bus :=
  match b with
  | .oracle script choice past => .oracle script choice (past ++ history)
  | .ideal devices => .ideal devices

end Sys2Proof.Machine
end

