-- ==== Sys2Proof/Machine/Ops.lean ====
section
/-! DEFINITION. The shared operations: the five events of the line (R15), the slots (R90 to R93), bits and bytes (R94,
R150 to R156), selection, conversion and reading (R213 to R220), the host's port (R115), and the entry of the ready
event and the return from it (R252, R253, R290, R291). -/

namespace Sys2Proof.Machine

/-! ### The five events of the line -/

/-- `drive_low(t)`: the block pulls the line low (R15, R21). -/
def Line.driveLow (t : Nat) (l : Line) : Line :=
  { l with lineDrive := true, hist := l.hist ++ [.driveLow t] }

/-- `release(t)`: the block lets the line go (R15, R21). -/
def Line.release (t : Nat) (l : Line) : Line :=
  { l with lineDrive := false, hist := l.hist ++ [.release t] }

/-- `crit_enter` (R15, R22, R152). -/
def Line.critEnter (l : Line) : Line :=
  { l with crit := true, hist := l.hist ++ [.critEnter] }

/-- `crit_exit` (R15, R22, R152). -/
def Line.critExit (l : Line) : Line :=
  { l with crit := false, hist := l.hist ++ [.critExit] }

/-- `sample()`: the level comes from the bus (R15, R74). -/
def Line.sample (k : SlotKind) (l : Line) : Bool × Line :=
  let a := l.bus.answer k l.hist
  (a.1, { l with hist := l.hist ++ [.sample a.1], bus := a.2 })

/-! ### Slots -/

/-- The reset slot, and the level sampled in it (R90, R140). -/
def Line.resetSlot (p : Params) (l : Line) : Bool × Line :=
  let r := ((l.driveLow p.tRstl).release Config.tPds).sample .resetSlot
  (r.1, r.2.release Config.tRsth)

/-- `Reset()`: true iff a responder pulled the line low in the window (R140). -/
def Line.presence (p : Params) (l : Line) : Bool × Line :=
  let r := l.resetSlot p
  (!r.1, r.2)

/-- The write slots (R91, R92, R150). -/
def Line.writeSlot (b : Bool) (l : Line) : Line :=
  let w := if b then (l.driveLow Config.tW1l).release Config.tW1h else (l.driveLow Config.tW0l).release Config.tW0h
  { w with bus := w.bus.written b }

/-- The read slot, and the level sampled in it (R93, R151, R152). -/
def Line.readSlot (l : Line) : Bool × Line :=
  let r := ((l.critEnter.driveLow Config.tRdl).release Config.tRds).sample .readSlot
  (r.1, r.2.critExit.release Config.tRdi)

/-! ### Bits and bytes -/

/-- Write slots for a list of bits, the first one first. -/
def Line.writeBits (bits : List Bool) (l : Line) : Line :=
  match bits with
  | [] => l
  | b :: rest => Line.writeBits rest (l.writeSlot b)

/-- `n` read slots, and the levels sampled in order. -/
def Line.readBits (n : Nat) (l : Line) : List Bool × Line :=
  match n with
  | 0 => ([], l)
  | k + 1 =>
    let r := l.readSlot
    let q := Line.readBits k r.2
    (r.1 :: q.1, q.2)

/-- `WriteByte(v)`: bit 0 first (R153). -/
def Line.writeByte (v : Byte) (l : Line) : Line := l.writeBits (byteBits v)

/-- `ReadByte()`: the first slot is bit 0 (R154). -/
def Line.readByte (l : Line) : Byte × Line :=
  let r := l.readBits 8
  (byteOfBits r.1, r.2)

/-- `WriteBytes(data, n)`: `data[0]` first (R155). -/
def Line.writeBytes (data : List Byte) (l : Line) : Line :=
  match data with
  | [] => l
  | v :: rest => Line.writeBytes rest (l.writeByte v)

/-- `ReadBytes(n)`: the first byte received is `data[0]` (R156). -/
def Line.readBytes (n : Nat) (l : Line) : List Byte × Line :=
  match n with
  | 0 => ([], l)
  | k + 1 =>
    let r := l.readByte
    let q := Line.readBytes k r.2
    (r.1 :: q.1, q.2)

/-! ### Selection, conversion, reading -/

/-- `SelectAddressed(a)`: Match-ROM and the address, `a[0]` first (R213). -/
def Line.selectAddressed (a : Addr) (l : Line) : Line := (l.writeByte 0x55).writeBytes (addrBytes a)

/-- `SelectAll()`: Skip-ROM (R214). -/
def Line.selectAll (l : Line) : Line := l.writeByte 0xCC

/-- The selection of a target; `none` is broadcast (R216). -/
def Line.select (target : Option Addr) (l : Line) : Line :=
  match target with
  | none => l.selectAll
  | some a => l.selectAddressed a

/-- `StartConversion(target)`: no presence is a silent no-op (R216). -/
def Line.startConversion (p : Params) (target : Option Addr) (l : Line) : Line :=
  let r := l.presence p
  if r.1 then (r.2.select target).writeByte 0x44 else r.2

/-- `ReadTemperature(a)` on the line: the result, `SP_BUF` after it, and the line after it (R218 to R221). -/
def Line.readTemperature (p : Params) (a : Addr) (spBuf : List Byte) (l : Line) : Temp × List Byte × Line :=
  let r := l.presence p
  if r.1 then
    let q := ((r.2.selectAddressed a).writeByte 0xBE).readBytes 9
    (if scratchpadCrcOk q.1 then decodeTemperature p a q.1 else p.tempSentinel, q.1, q.2)
  else (p.tempSentinel, spBuf, r.2)

/-! ### The host's port -/

/-- The state with another line. -/
def State.withLine (l : Line) (s : State) : State := { s with line := l }

/-- The state presenting the results of an operation, and no ready event (R115). -/
def State.present (a : Answer) (s : State) : State := { s with res := a, ready := none }

/-- A command byte put on the line: its eight write slots, bit 0 first (R94, R111). -/
def State.putCommand (c : Byte) (s : State) : State := (s.withLine (s.line.writeByte c)).present {}

/-! ### Results of the operations that only read state (R69), for the host and for the ready consumer alike -/

/-- What `Crc8` presents (R170). -/
def crcAnswer (o : Operands) : Answer := { byte := some (crc8 (dataBytes o)) }

/-- What `GetMin` presents (R255). -/
def State.minAnswer (s : State) : Answer := { temp := some (minimumTemp s.params s.recs) }

/-- What `GetMid` presents (R256). -/
def State.midAnswer (s : State) : Answer := { temp := some (meanTemp s.params s.recs) }

/-- What `GetMax` presents (R257). -/
def State.maxAnswer (s : State) : Answer := { temp := some (maximumTemp s.params s.recs) }

/-- What `GetAddresses` presents (R259). -/
def State.addressesAnswer (s : State) : Answer :=
  { addrs := some (s.reg.take s.regCount), count := some s.regCount }

/-! ### The ready event: the call of the callback, and the return from it -/

/-- What the block answers to a call made from inside the callback: the accessors and `Crc8` answer, every other
operation is refused, with no effect (R253, D25, U2). -/
def State.answerCall (s : State) (c : Call) : Option Answer :=
  match decodeOpw c.word with
  | some .crc8 => if operandsWf .crc8 c.ops then some (crcAnswer c.ops) else none
  | some .getMin => some s.minAnswer
  | some .getMid => some s.midAnswer
  | some .getMax => some s.maxAnswer
  | some .getAddresses => some s.addressesAnswer
  | some .reset | some (.writeBit _) | some .readBit | some .writeByte | some .readByte | some .writeBytes
  | some .readBytes | some (.searchRom _) | some (.discover _) | some .selectAddressed | some .selectAll
  | some (.startConversion _) | some .readTemperature | some (.convertBlocking _) | some .advance
  | some .setReadyCallback | some .reinit | some .searchRomCmd | some .readRomCmd | some .matchRomCmd
  | some .skipRomCmd | some .alarmSearchCmd | some .convertTCmd | some .writeScratchpadCmd
  | some .readScratchpadCmd | some .copyScratchpadCmd | some .recallE2Cmd | some .readPowerSupplyCmd | none => none

/-- Entry of the ready event: the callback is called with `REC[0 .. REG_COUNT-1]`, the block's own records (R333), and
`REG_COUNT`, while the state is still Read and the countdown not yet armed (R252, R290); the calls it makes are answered from
that state. -/
def State.fireReady (s : State) : State :=
  let e : ReadyEvent :=
    { records := s.recs.take s.regCount, count := s.regCount, answers := s.callback.map s.answerCall }
  { s with ready := some e, handed := some s.regCount }

/-- Return from the ready event to `Advance`: arm the countdown, change the state (R247, R291). -/
def State.afterReady (s : State) : State :=
  { s with countdown := s.params.cycleDelayTicks, fsm := .readWait }

end Sys2Proof.Machine
end

