-- ==== Sys2Proof/Machine/SearchEngine.lean ====
section
/-! DEFINITION. The ROM search engine (43_rom_search.md R180 to R193), and what an operation does when its search ends
(R180, R210, R244). -/

namespace Sys2Proof.Machine

/-- The command byte of a pass (R182). -/
def searchCommand (alarmOnly : Bool) : Byte := if alarmOnly then 0xEC else 0xF0

/-- The direction at a discrepancy: before the marker replay the stored bit, at the marker 1, after it 0 (R186). -/
def Search.direction (p : Nat) (q : Search) : Bool :=
  if p < q.lastDisc then positionBit q.romBuf p else p == q.lastDisc

/-- The registers after direction `d` was taken at position `p`: a 0 at a discrepancy is recorded (R187), the bit is
stored (R188). -/
def Search.commit (p : Nat) (discrepancy d : Bool) (q : Search) : Search :=
  { q with
    candDisc := if discrepancy && !d then p else q.candDisc
    romBuf := setPosition q.romBuf p d }

/-- One position of a pass; the first component says that the pass was aborted by a bus fault (R184 to R188). -/
def searchPosition (p : Nat) (q : Search) (l : Line) : Bool × Search × Line :=
  let b := l.readSlot
  let c := b.2.readSlot
  if b.1 && c.1 then (true, { q with pos := p, fault := true }, c.2)
  else
    let d := if b.1 != c.1 then b.1 else q.direction p
    (false, { q.commit p (b.1 == c.1) d with pos := p }, c.2.writeSlot d)

/-- The positions `p`, `p + 1`, ..., `n` of them, until the last or a bus fault (R181, R185). -/
def searchWalk (n p : Nat) (q : Search) (l : Line) : Search × Line :=
  match n with
  | 0 => (q, l)
  | k + 1 =>
    let r := searchPosition p q l
    if r.1 then r.2 else searchWalk k (p + 1) r.2.1 r.2.2

/-- The registers at the start of a pass (R24, R182). -/
def Search.startPass (q : Search) : Search := { q with pos := 1, candDisc := 0, fault := false }

/-- The end of a pass: carry the marker forward (R189, R192), emit if the pass is complete, its CRC good and capacity left
(R190, R191), and clear `SEARCH_FAULT`, which is 1 only until the end of its pass (R27). -/
def Search.endPass (capacity : Nat) (q : Search) : Search :=
  { q with
    lastDisc := q.candDisc
    fault := false
    out := if !q.fault && addrCrcOk q.romBuf && decide (q.out.length < capacity) then q.out ++ [q.romBuf] else q.out }

/-- One pass after its reset slot has shown presence (R182 to R192). -/
def searchPass (capacity : Nat) (alarmOnly : Bool) (q : Search) (l : Line) : Search × Line :=
  let w := searchWalk 64 1 q.startPass (l.writeByte (searchCommand alarmOnly))
  (w.1.endPass capacity, w.2)

/-- Passes until one ends with marker zero or a reset slot shows no presence (R183, R189), at most `budget` of them; the
first component says that the search has ended. -/
def searchLoop (budget : Nat) (p : Params) (capacity : Nat) (alarmOnly : Bool) (q : Search) (l : Line) :
    Bool × Search × Line :=
  match budget with
  | 0 => (false, q, l)
  | k + 1 =>
    let r := l.presence p
    if r.1 then
      let w := searchPass capacity alarmOnly q r.2
      if w.1.lastDisc = 0 then (true, w.1, w.2) else searchLoop k p capacity alarmOnly w.1 w.2
    else (true, q, r.2)

/-- The registers at the start of a search (R180). -/
def Search.startSearch (q : Search) : Search := { q with out := [], lastDisc := 0, romBuf := 0 }

/-! ### What follows a search -/

/-- `SearchRom` presents the addresses emitted and their count (R180). -/
def State.searchReport (s : State) : State :=
  s.present { addrs := some s.search.out, count := some s.search.outCount }

/-- The addresses a discovery retains, in order of emission (R210, R211). -/
def retained (p : Params) (filterByFamily : Bool) (found : List Addr) : List Addr :=
  if filterByFamily then found.filter (fun a => recognised p (familyCode a)) else found

/-- `Discover` replaces the registry: the retained addresses from index 0, zero above them, and the count (R210). -/
def State.replaceRegistry (filterByFamily : Bool) (s : State) : State :=
  let kept := retained s.params filterByFamily s.search.out
  { s with reg := kept ++ List.replicate (s.params.nMax - kept.length) 0, regCount := kept.length }

/-- `Discover` presents the count (R210). -/
def State.discoverReport (filterByFamily : Bool) (s : State) : State :=
  let t := s.replaceRegistry filterByFamily
  t.present { count := some t.regCount }

/-- The record set an Init tick leaves for a count `n` (R244). -/
def freshRecords (p : Params) (n : Nat) : List Record :=
  (List.range p.nMax).map (fun i => { active := decide (i < n), valid := false, temp := p.tempSentinel })

/-- The Init tick after its filtered discovery: replace the records, leave Init (R244). -/
def State.initReport (s : State) : State :=
  let t := s.replaceRegistry true
  { t.present {} with
    recs := freshRecords t.params t.regCount
    fsm := if 0 < t.regCount then .convert else .noSensor }

/-- What the operation does when its search has ended. -/
def State.finishSearch (next : AfterSearch) (s : State) : State :=
  match next with
  | .report => s.searchReport
  | .discover f => s.discoverReport f
  | .initTick => s.initReport

/-- Run a search on from where its registers stand: to its end and then what follows it, or, after the pass budget,
leave it in flight (R195, U8). -/
def State.continueSearch (f : InFlight) (s : State) : State :=
  let r := searchLoop Config.passBudget s.params f.capacity f.alarmOnly s.search s.line
  if r.1 then { s with search := r.2.1, line := r.2.2, inFlight := none }.finishSearch f.next
  else { s with search := r.2.1, line := r.2.2, inFlight := some f }.present {}

/-- Start a search (R180). -/
def State.runSearch (f : InFlight) (s : State) : State :=
  { s with search := s.search.startSearch }.continueSearch f

end Sys2Proof.Machine
end

