-- ==== Sys2Proof/Machine/LineCommand.lean ====
section
/-! DEFINITION. The meanings of the eleven command bytes (R100 to R110), each put on the line by the host: its eight write
slots and nothing else (R94, R111; DESIGN CHOICE, notes/assumptions/2). -/

namespace Sys2Proof.Machine

/-- SEARCH_ROM_CMD (R100). -/
def execSearchRomCmd (s : State) : Outcome := .next (s.putCommand 0xF0)

/-- READ_ROM_CMD (R101). -/
def execReadRomCmd (s : State) : Outcome := .next (s.putCommand 0x33)

/-- MATCH_ROM_CMD (R102). -/
def execMatchRomCmd (s : State) : Outcome := .next (s.putCommand 0x55)

/-- SKIP_ROM_CMD (R103). -/
def execSkipRomCmd (s : State) : Outcome := .next (s.putCommand 0xCC)

/-- ALARM_SEARCH_CMD (R104). -/
def execAlarmSearchCmd (s : State) : Outcome := .next (s.putCommand 0xEC)

/-- CONVERT_T_CMD (R105). -/
def execConvertTCmd (s : State) : Outcome := .next (s.putCommand 0x44)

/-- WRITE_SCRATCHPAD_CMD (R106). -/
def execWriteScratchpadCmd (s : State) : Outcome := .next (s.putCommand 0x4E)

/-- READ_SCRATCHPAD_CMD (R107). -/
def execReadScratchpadCmd (s : State) : Outcome := .next (s.putCommand 0xBE)

/-- COPY_SCRATCHPAD_CMD (R108). -/
def execCopyScratchpadCmd (s : State) : Outcome := .next (s.putCommand 0x48)

/-- RECALL_E2_CMD (R109). -/
def execRecallE2Cmd (s : State) : Outcome := .next (s.putCommand 0xB8)

/-- READ_POWER_SUPPLY_CMD (R110). -/
def execReadPowerSupplyCmd (s : State) : Outcome := .next (s.putCommand 0xB4)

end Sys2Proof.Machine
end

