-- ==== Sys2Proof/Machine/Scheduler.lean ====
section
/-! DEFINITION. The meanings of the polling scheduler's operations (45_polling_scheduler.md). -/

namespace Sys2Proof.Machine

/-- Convert: start the broadcast conversion, arm the countdown (R245). -/
def State.convertTick (s : State) : State :=
  { s with
    line := s.line.startConversion s.params none
    countdown := s.params.convertWaitTicks
    fsm := .convertWait }

/-- The guarded decrement of the two waiting states (R246, R248). -/
def countDown (c : Ticks) : Ticks := if 0 < c.toNat then c - 1 else c

/-- ConvertWait (R246). -/
def State.convertWaitTick (s : State) : State :=
  let c := countDown s.countdown
  if c = 0 then { s with countdown := c, cursor := 0, fsm := .read } else { s with countdown := c }

/-- The record of a device just read (R247). -/
def Record.update (p : Params) (t : Temp) (r : Record) : Record :=
  { r with temp := t, valid := readValid p t }

/-- The read of one device, before the end of the cycle is looked at (R247). -/
def State.readDevice (s : State) : State :=
  let r := s.line.readTemperature s.params (s.reg.getD s.cursor 0) s.spBuf
  { s with
    line := r.2.2
    spBuf := r.2.1
    recs := s.recs.modify s.cursor (Record.update s.params r.1)
    cursor := s.cursor + 1 }

/-- Read: one device; at the last one the ready event, then the countdown and the state (R247, R252). -/
def State.readTick (s : State) : State :=
  let t := s.readDevice
  if t.cursor = t.regCount then (if t.cbSet then t.fireReady else t).afterReady else t

/-- ReadWait (R248). -/
def State.readWaitTick (s : State) : State :=
  let c := countDown s.countdown
  if c = 0 then { s with countdown := c, fsm := .convert } else { s with countdown := c }

/-- Init: a filtered discovery; what follows its search is `State.initReport` (R244). -/
def State.initTick (s : State) : State :=
  s.runSearch { capacity := s.params.nMax, alarmOnly := false, next := .initTick }

/-- The one action of an effective tick (R240, R242). -/
def State.tick (s : State) : State :=
  match s.fsm with
  | .init => s.initTick
  | .convert => s.convertTick
  | .convertWait => s.convertWaitTick
  | .read => s.readTick
  | .readWait => s.readWaitTick
  | .noSensor => s

/-- ADVANCE: the rate gate, then the action of the state the tick began in (R240, R241). -/
def State.advance (s : State) : State :=
  if tickEffective s.params s.lastTime s.ops.time then ({ s with lastTime := s.ops.time }.present {}).tick
  else s.present {}

/-- ADVANCE (R240). -/
def execAdvance (s : State) : Outcome := .next s.advance

/-- SET_READY_CALLBACK: one slot; registering again replaces (R251). -/
def execSetReadyCallback (s : State) : Outcome :=
  .next ({ s with cbSet := s.argCb.isSome, callback := s.argCb.getD [] }.present {})

/-- GET_MIN (R255). -/
def execGetMin (s : State) : Outcome := .next (s.present s.minAnswer)

/-- GET_MID (R256). -/
def execGetMid (s : State) : Outcome := .next (s.present s.midAnswer)

/-- GET_MAX (R257). -/
def execGetMax (s : State) : Outcome := .next (s.present s.maxAnswer)

/-- GET_ADDRESSES (R259). -/
def execGetAddresses (s : State) : Outcome := .next (s.present s.addressesAnswer)

/-- REINIT (R258). -/
def execReinit (s : State) : Outcome :=
  .next ({ s with fsm := .init, countdown := 0, cursor := 0 }.present {})

end Sys2Proof.Machine
end

