-- ==== Sys2Proof/Machine/Sensor.lean ====
section
/-! DEFINITION. The meanings of SEARCH_ROM and of the sensor command layer (43_rom_search.md, 44_sensor_commands.md). -/

namespace Sys2Proof.Machine

/-- SEARCH_ROM: capacity `ARG_N` (R180). -/
def execSearchRom (alarmOnly : Bool) (s : State) : Outcome :=
  .next (s.runSearch { capacity := s.ops.n, alarmOnly := alarmOnly, next := .report })

/-- Whether a host may issue DISCOVER: the scheduler is in Init or NoSensor (R260). -/
def SchedulerState.allowsDiscover (f : SchedulerState) : Bool :=
  match f with
  | .init | .noSensor => true
  | .convert | .convertWait | .read | .readWait => false

/-- DISCOVER: a normal search with the capacity of the registry (R210, R260). -/
def execDiscover (filterByFamily : Bool) (s : State) : Outcome :=
  if s.fsm.allowsDiscover then
    .next (s.runSearch { capacity := s.params.nMax, alarmOnly := false, next := .discover filterByFamily })
  else .refused .discoverMidCycle

/-- SELECT_ADDRESSED (R213). -/
def execSelectAddressed (s : State) : Outcome :=
  .next ((s.withLine (s.line.selectAddressed s.ops.addr)).present {})

/-- SELECT_ALL (R214). -/
def execSelectAll (s : State) : Outcome :=
  .next ((s.withLine s.line.selectAll).present {})

/-- START_CONVERSION (R216). -/
def execStartConversion (broadcast : Bool) (s : State) : Outcome :=
  .next ((s.withLine (s.line.startConversion s.params (conversionTarget broadcast s.ops))).present {})

/-- READ_TEMPERATURE (R218). -/
def execReadTemperature (s : State) : Outcome :=
  let r := s.line.readTemperature s.params s.ops.addr s.spBuf
  .next ({ s with spBuf := r.2.1, line := r.2.2 }.present { temp := some r.1 })

/-- CONVERT_BLOCKING: the conversion, then the wait with the line released, presence or not (R226). -/
def execConvertBlocking (broadcast : Bool) (s : State) : Outcome :=
  let l := s.line.startConversion s.params (conversionTarget broadcast s.ops)
  .next ((s.withLine (l.release s.params.tConvBlock)).present {})

end Sys2Proof.Machine
end

