-- ==== Sys2Proof/Machine/Transceiver.lean ====
section
/-! DEFINITION. The meanings of RESET, the bit and byte transceiver and CRC8 (40_reset_presence.md,
41_bit_byte_transceiver.md, 42_crc8.md). -/

namespace Sys2Proof.Machine

/-- RESET (R140). -/
def execReset (s : State) : Outcome :=
  let r := s.line.presence s.params
  .next ((s.withLine r.2).present { bit := some r.1 })

/-- WRITE_BIT (R150). -/
def execWriteBit (b : Bool) (s : State) : Outcome :=
  .next ((s.withLine (s.line.writeSlot b)).present {})

/-- READ_BIT (R151). -/
def execReadBit (s : State) : Outcome :=
  let r := s.line.readSlot
  .next ((s.withLine r.2).present { bit := some r.1 })

/-- WRITE_BYTE (R153). -/
def execWriteByte (s : State) : Outcome :=
  .next ((s.withLine (s.line.writeByte s.ops.byte)).present {})

/-- READ_BYTE (R154). -/
def execReadByte (s : State) : Outcome :=
  let r := s.line.readByte
  .next ((s.withLine r.2).present { byte := some r.1 })

/-- WRITE_BYTES (R155). -/
def execWriteBytes (s : State) : Outcome :=
  if operandsWf .writeBytes s.ops then
    .next ((s.withLine (s.line.writeBytes (dataBytes s.ops))).present {})
  else .refused .dataShorterThanCount

/-- READ_BYTES (R156). -/
def execReadBytes (s : State) : Outcome :=
  let r := s.line.readBytes s.ops.n
  .next ((s.withLine r.2).present { data := some r.1 })

/-- CRC8: neither state nor bus (R170). -/
def execCrc8 (s : State) : Outcome :=
  if operandsWf .crc8 s.ops then .next (s.present (crcAnswer s.ops)) else .refused .dataShorterThanCount

end Sys2Proof.Machine
end

