-- ==== Sys2Proof/Machine/Dispatch.lean ====
section
/-! DEFINITION. One arm per instruction. -/

namespace Sys2Proof.Machine

def exec (i : Instr) (s : State) : Host.Outcome State Fault Refusal :=
  match i with
  | .reset => Sys2Proof.Machine.execReset s
  | .writeBit b => Sys2Proof.Machine.execWriteBit b s
  | .readBit => Sys2Proof.Machine.execReadBit s
  | .writeByte => Sys2Proof.Machine.execWriteByte s
  | .readByte => Sys2Proof.Machine.execReadByte s
  | .writeBytes => Sys2Proof.Machine.execWriteBytes s
  | .readBytes => Sys2Proof.Machine.execReadBytes s
  | .crc8 => Sys2Proof.Machine.execCrc8 s
  | .searchRom f => Sys2Proof.Machine.execSearchRom f s
  | .discover f => Sys2Proof.Machine.execDiscover f s
  | .selectAddressed => Sys2Proof.Machine.execSelectAddressed s
  | .selectAll => Sys2Proof.Machine.execSelectAll s
  | .startConversion f => Sys2Proof.Machine.execStartConversion f s
  | .readTemperature => Sys2Proof.Machine.execReadTemperature s
  | .convertBlocking f => Sys2Proof.Machine.execConvertBlocking f s
  | .advance => Sys2Proof.Machine.execAdvance s
  | .setReadyCallback => Sys2Proof.Machine.execSetReadyCallback s
  | .getMin => Sys2Proof.Machine.execGetMin s
  | .getMid => Sys2Proof.Machine.execGetMid s
  | .getMax => Sys2Proof.Machine.execGetMax s
  | .getAddresses => Sys2Proof.Machine.execGetAddresses s
  | .reinit => Sys2Proof.Machine.execReinit s
  | .searchRomCmd => Sys2Proof.Machine.execSearchRomCmd s
  | .readRomCmd => Sys2Proof.Machine.execReadRomCmd s
  | .matchRomCmd => Sys2Proof.Machine.execMatchRomCmd s
  | .skipRomCmd => Sys2Proof.Machine.execSkipRomCmd s
  | .alarmSearchCmd => Sys2Proof.Machine.execAlarmSearchCmd s
  | .convertTCmd => Sys2Proof.Machine.execConvertTCmd s
  | .writeScratchpadCmd => Sys2Proof.Machine.execWriteScratchpadCmd s
  | .readScratchpadCmd => Sys2Proof.Machine.execReadScratchpadCmd s
  | .copyScratchpadCmd => Sys2Proof.Machine.execCopyScratchpadCmd s
  | .recallE2Cmd => Sys2Proof.Machine.execRecallE2Cmd s
  | .readPowerSupplyCmd => Sys2Proof.Machine.execReadPowerSupplyCmd s

end Sys2Proof.Machine
end

