-- ==== Sys2Proof/Machine/Step.lean ====
section
/-! DEFINITION. One step of the machine: one whole operation (R11), or an input of the outside world. -/

namespace Sys2Proof.Machine

/-- The reset event (R310): every element of R20 at its reset value, all at once. The devices carry on (R312); the parameters
and what the host does next stay. -/
def State.resetEvent (s : State) : State :=
  { State.resetWith s.params (s.line.bus.carryOn s.line.hist) with inputs := s.inputs }

/-- One step. A search in flight goes on, and the host's next operation waits (R115); only the reset event ends it
early. Otherwise the host's next input is taken; with none the block is idle (R12, R303). -/
def step (s : State) : Host.Outcome State Fault Refusal :=
  match s.inputs, s.inFlight with
  | .reset :: rest, _ => .next { s with inputs := rest }.resetEvent
  | _, some f => .next (s.continueSearch f)
  | [], none => .next s
  | .rewire b :: rest, none => .next ({ s with inputs := rest }.withLine { s.line with bus := b })
  | .call port word ops cb :: rest, none =>
    match decodeAt port word with
    | none => .refused .reservedEncoding
    | some i => exec i { s with inputs := rest, ops := ops, argCb := cb }

/-- The state with a word of the opcode table as the host's next input, on the port on which it is an instruction, with
the operands the port now shows; a search in flight would keep the port waiting, so none is. -/
def State.withFetchWord (s : State) (_nbits w : Nat) : State :=
  let b := BitVec.ofNat 8 w
  { s with inputs := .call (portOf b) b s.ops s.argCb :: s.inputs, inFlight := none }

end Sys2Proof.Machine
end

