-- ==== Sys2Proof/Safety.lean ====
section
/-! DEFINITION. The terms in which claims about the machine are made: slots and frames on the line (R90 to R97), the fault
classes of R280 to R283, the invariants of R48, and the reset values of R20. -/

namespace Sys2Proof.Machine

/-! ### Slots and frames -/

/-- The slots of R90 to R93, with the level sampled where one is. -/
inductive Slot where
  | rst (level : Bool)
  | w (bit : Bool)
  | rd (level : Bool)
  deriving DecidableEq, Repr

/-- The events of a slot, in order (R90 to R93). -/
def Slot.events (p : Params) (x : Slot) : List BusEvent :=
  match x with
  | .rst v => [.driveLow p.tRstl, .release 70, .sample v, .release 410]
  | .w true => [.driveLow 6, .release 64]
  | .w false => [.driveLow 60, .release 10]
  | .rd v => [.critEnter, .driveLow 6, .release 9, .sample v, .critExit, .release 55]

/-- The events of a list of slots. -/
def slotEvents (p : Params) (xs : List Slot) : List BusEvent := xs.flatMap (Slot.events p)

/-- A byte written: eight write slots, bit 0 first (R94). -/
def writtenByte (v : Byte) : List Slot := (byteBits v).map Slot.w

/-- Bytes written, in index order (R62). -/
def writtenBytes (data : List Byte) : List Slot := data.flatMap writtenByte

/-- A byte read: eight read slots, bit 0 first (R94). -/
def readByteSlots (v : Byte) : List Slot := (byteBits v).map Slot.rd

/-- Bytes read, in index order (R62). -/
def readBytesSlots (data : List Byte) : List Slot := data.flatMap readByteSlots

/-- The slots that select a target (R213, R214). -/
def selectionSlots (target : Option Addr) : List Slot :=
  match target with
  | none => writtenByte 0xCC
  | some a => writtenByte 0x55 ++ writtenBytes (addrBytes a)

/-- The slots of one position of a pass: the bit, its complement, the direction (R95). -/
def positionSlots (x : Bool × Bool × Bool) : List Slot := [.rd x.1, .rd x.2.1, .w x.2.2]

/-- Whether a slot is a reset slot. -/
def Slot.isReset (x : Slot) : Bool :=
  match x with
  | .rst _ => true
  | .w _ | .rd _ => false

/-- The line after one slot of the kind given; a level is what the bus answers. -/
def Line.playSlot (p : Params) (l : Line) (x : Slot) : Line :=
  match x with
  | .rst _ => (l.resetSlot p).2
  | .w b => l.writeSlot b
  | .rd _ => l.readSlot.2

/-- The line after slots, one after the other. -/
def Line.playSlots (p : Params) (xs : List Slot) (l : Line) : Line := xs.foldl (Line.playSlot p) l

/-! ### Fault classes -/

/-- The three faults of R280 to R282. No operation reports one (R283, R284): the type is for proofs and traces. -/
inductive FaultClass where
  | busFault
  | integrityFault
  | capacityFault
  deriving DecidableEq, Repr

/-- Why a pass emits no address: aborted (R185), CRC mismatch, capacity used up (R190, R191, R197). -/
def passFault (capacity : Nat) (q : Search) : Option FaultClass :=
  if q.fault then some .busFault
  else if !addrCrcOk q.romBuf then some .integrityFault
  else if capacity ≤ q.out.length then some .capacityFault
  else none

/-- Why a read gives no reading: no presence (R219), or a CRC mismatch (R220). -/
def readFault (presence : Bool) (sp : List Byte) : Option FaultClass :=
  if !presence then some .busFault
  else if !scratchpadCrcOk sp then some .integrityFault
  else none

/-! ### Invariants (R48) -/

/-- The line is released and not in a critical section (R21, R22, R48). -/
abbrev Line.idle (l : Line) : Prop := l.lineDrive = false ∧ l.crit = false

/-- The search registers between passes: in their ranges (R24 to R26), no fault of a pass standing (R27), only checked
addresses emitted (R190). -/
abbrev Search.inRange (q : Search) : Prop :=
  1 ≤ q.pos ∧ q.pos ≤ 64 ∧ q.lastDisc ≤ 64 ∧ q.candDisc ≤ 64 ∧ q.fault = false ∧
    ∀ a ∈ q.out, addrCrcOk a = true

/-- The registry (R30, R31, R48). -/
abbrev State.registryOk (s : State) : Prop :=
  s.reg.length = s.params.nMax ∧ s.regCount ≤ s.params.nMax ∧ (∀ a ∈ s.reg.take s.regCount, addrCrcOk a = true) ∧
    ∀ a ∈ s.reg.drop s.regCount, a = 0

/-- One record (R48): valid exactly when its temperature is not the sentinel, and then active. -/
abbrev Record.ok (p : Params) (r : Record) : Prop :=
  (r.valid = true → r.active = true ∧ r.temp ≠ p.tempSentinel) ∧ (r.valid = false → r.temp = p.tempSentinel)

/-- The record set (R33, R48). -/
abbrev State.recordsOk (s : State) : Prop :=
  s.recs.length = s.params.nMax ∧ ∀ r ∈ s.recs, r.ok s.params

/-- The states of the cycle: those in which a host DISCOVER is refused (R48, R260). -/
abbrev State.inCycle (s : State) : Prop := s.fsm.allowsDiscover = false

/-- The scheduler (R34, R40, R48): a cursor in range, and in a cycle at least one device, every record below the count
active and no other; in Read a cursor below the count; in NoSensor no record active, and so none valid (R250, R257). -/
abbrev State.schedulerOk (s : State) : Prop :=
  s.cursor ≤ s.params.nMax ∧
    (s.inCycle → 1 ≤ s.regCount ∧
      s.recs.map (fun r => r.active) = (List.range s.params.nMax).map (fun i => decide (i < s.regCount))) ∧
    (s.fsm = .read → s.cursor < s.regCount) ∧
    (s.fsm = .noSensor → ∀ r ∈ s.recs, r.active = false)

/-- A search in flight keeps to its capacity; a discovery uses the registry's and runs outside a cycle (R210, R244). -/
abbrev State.inFlightOk (s : State) : Prop :=
  match s.inFlight with
  | none => True
  | some f =>
    s.search.out.length ≤ f.capacity ∧
      match f.next with
      | .report => True
      | .discover _ => f.capacity = s.params.nMax ∧ s.fsm.allowsDiscover = true
      | .initTick => f.capacity = s.params.nMax ∧ s.fsm = .init

/-- The consumer was handed records the block has (R252, R333). -/
abbrev State.handedOk (s : State) : Prop := ∀ n, s.handed = some n → n ≤ s.params.nMax

/-- The invariants of R48, with the ranges of R24 to R26, R40 and R44. -/
abbrev State.Inv (s : State) : Prop :=
  s.line.idle ∧ s.search.inRange ∧ s.registryOk ∧ s.recordsOk ∧ s.schedulerOk ∧ s.spBuf.length = 9 ∧ s.inFlightOk ∧
    s.handedOk

/-- The 20 elements of R20 at their reset values. -/
abbrev State.atReset (s : State) : Prop :=
  s.line.lineDrive = false ∧ s.line.crit = false ∧ s.line.hist = [] ∧
    s.search.romBuf = 0 ∧ s.search.pos = 1 ∧ s.search.lastDisc = 0 ∧ s.search.candDisc = 0 ∧
    s.search.fault = false ∧ s.search.out = [] ∧ s.search.outCount = 0 ∧
    s.reg = List.replicate s.params.nMax 0 ∧ s.regCount = 0 ∧
    s.recs = List.replicate s.params.nMax { active := false, valid := false, temp := s.params.tempSentinel } ∧
    s.fsm = .init ∧ s.countdown = 0 ∧ s.cursor = 0 ∧ s.lastTime = 0 ∧ s.cbSet = false ∧ s.spBuf = List.replicate 9 0

/-! ### Runs of ticks, and the ideal bus -/

/-- Calls of ADVANCE at the given times, as the host issues them (R240). -/
def advanceCalls (times : List Time) : List HostInput :=
  times.map (fun now => .call .operation 0x10 { time := now } none)

/-- Every call of a run is effective: each time is `TICK_INTERVAL` or more past the one before (R241). -/
def allEffective (p : Params) (last : Time) (times : List Time) : Bool :=
  match times with
  | [] => true
  | now :: rest => tickEffective p last now && allEffective p now rest

/-- Operations issued one by one: `n` READ_BYTE operations, the bytes they present and the line after them (R157). -/
def bytesOneByOne (n : Nat) (s : State) : List Byte × Line :=
  match n with
  | 0 => ([], s.line)
  | k + 1 =>
    match exec .readByte s with
    | .next t => (t.res.byte.toList ++ (bytesOneByOne k t).1, (bytesOneByOne k t).2)
    | .fault _ | .refused _ => ([], s.line)

/-- `n` READ_BIT operations, the bits they present and the line after them (R157). -/
def bitsOneByOne (n : Nat) (s : State) : List Bool × Line :=
  match n with
  | 0 => ([], s.line)
  | k + 1 =>
    match exec .readBit s with
    | .next t => (t.res.bit.toList ++ (bitsOneByOne k t).1, (bitsOneByOne k t).2)
    | .fault _ | .refused _ => ([], s.line)

/-- WRITE_BIT operations for a list of bits, and the line after them (R157). -/
def writtenOneByOne (bits : List Bool) (s : State) : Line :=
  match bits with
  | [] => s.line
  | b :: rest =>
    match exec (.writeBit b) s with
    | .next t => writtenOneByOne rest t
    | .fault _ | .refused _ => s.line

/-- The place of an address among the leaves of the search tree: position 1 first, 0 before 1 (R194). -/
def leafOrder (a : Addr) : Nat := (List.range 64).foldl (fun n i => 2 * n + (positionBit a (i + 1)).toNat) 0

/-- The devices that take part in a search: all, or the alarmed ones (R75, R194). -/
def takingPart (alarmOnly : Bool) (devices : List Device) : List Device :=
  if alarmOnly then devices.filter (fun d => d.alarm) else devices

end Sys2Proof.Machine
end

