-- ==== Sys2Proof/Certificates/Slice0/Obligations.lean ====
section
/-! DEFINITION. The statements for the provers. The block has no byte-addressed memory, no program counter and no general
register (R29, R42, 20_memory.md): a frame here is an equation of whole states, `{ s with ... }`, so that every element it
does not name is unchanged. A clause that rests on a decision D<n> of 92_eei_decisions.md or on a log entry says so. -/

open Sys2Proof Sys2Proof.Machine

/-! ### Decoding and stepping -/

/-- Fourteen words written out bit by bit from R114, R115 and R100 to R110 decode to their instructions, and 0x0F to none
(codes: D3; that a command byte is an instruction, on a port of its own, is the model's choice: notes/assumptions/2). -/
def Obligations.WrittenOutWordsDecode : Prop :=
  decodeOpw 0b00000000 = some .reset ∧ decodeOpw 0b00000001 = some (.writeBit false) ∧
    decodeOpw 0b00100001 = some (.writeBit true) ∧ decodeOpw 0b00000111 = some .crc8 ∧
    decodeOpw 0b00101000 = some (.searchRom true) ∧ decodeOpw 0b00001001 = some (.discover false) ∧
    decodeOpw 0b00101100 = some (.startConversion true) ∧ decodeOpw 0b00001101 = some .readTemperature ∧
    decodeOpw 0b00010000 = some .advance ∧ decodeOpw 0b00010110 = some .reinit ∧
    decodeLineCommand 0b11110000 = some .searchRomCmd ∧ decodeLineCommand 0b00110011 = some .readRomCmd ∧
    decodeLineCommand 0b10111110 = some .readScratchpadCmd ∧ decodeTableWord 8 0b11101100 = some .alarmSearchCmd ∧
    decodeTableWord 8 0b00001111 = none

/-- The decoder reads every instruction back from its bytes, with every flag the encoding admits (R115; codes: D3). -/
def Obligations.DecodeReadsBackEveryEncoding : Prop :=
  ∀ (i : Instr) (rest : List Byte),
    decode (encode i ++ rest) = some (i, rest) ∧ decodeAt (encodePort i) (encodeWord i) = some i

/-- A reserved operation word has no step (R117 (a); D33). -/
def Obligations.ReservedOperationWordsAreRefused : Prop :=
  ∀ (s : State) (w : Byte) (ops : Operands) (cb : Option (List Call)) (rest : List HostInput),
    s.inFlight = none → s.inputs = .call .operation w ops cb :: rest →
      (w.getLsbD 7 = true ∨ w.getLsbD 6 = true ∨ w.toNat % 32 = 0x0F ∨ 0x17 ≤ w.toNat % 32 ∨
        (w.getLsbD 5 = true ∧ w.toNat % 32 ∉ [0x01, 0x08, 0x09, 0x0C, 0x0E])) →
      step s = .refused .reservedEncoding

/-- A step runs the decoded instruction: the input is taken off the queue, its operands are on the port, and the rest is
`exec`. -/
def Obligations.StepRunsTheDecodedInstruction : Prop :=
  ∀ (s : State) (p : Port) (w : Byte) (ops : Operands) (cb : Option (List Call)) (rest : List HostInput) (i : Instr),
    s.inFlight = none → s.inputs = .call p w ops cb :: rest → decodeAt p w = some i →
      step s = exec i { s with inputs := rest, ops := ops, argCb := cb }

/-- What a step does when it runs no new operation: with no input the block is idle; a rewired line changes nothing but
the bus; a search in flight goes on from its registers and the line as they stand, and keeps the next operation waiting
(R115); when it has ended, what follows it happens: the report (R180), the registry (R210), or the registry, the records and
the state of an Init tick (R244). The model's choices: the queue of inputs, notes/assumptions/6; a search in flight,
notes/assumptions/7; a rewired line as an input between two steps, which waits while a search is in flight,
notes/assumptions/14. -/
def Obligations.StepWithoutANewOperation : Prop :=
  (∀ s : State, s.inFlight = none → s.inputs = [] → step s = .next s) ∧
  (∀ (s : State) (b : Bus) (rest : List HostInput), s.inFlight = none → s.inputs = .rewire b :: rest →
    step s = .next { s with inputs := rest, line := { s.line with bus := b } }) ∧
  (∀ (s : State) (f : InFlight), s.inFlight = some f → (∀ rest, s.inputs ≠ .reset :: rest) →
    let r := searchLoop Config.passBudget s.params f.capacity f.alarmOnly s.search s.line
    let u : State := { s with search := r.2.1, line := r.2.2, ready := none }
    let found := r.2.1.out
    let known := found.filter (fun x => recognised s.params (x.extractLsb' 0 8))
    (r.1 = false → step s = .next { u with inFlight := some f, res := {} }) ∧
    (r.1 = true → f.next = .report → step s = .next { u with
      inFlight := none
      res := { addrs := some found, count := some found.length } }) ∧
    (r.1 = true → ∀ filter, f.next = .discover filter →
      let kept := if filter then known else found
      step s = .next { u with
        inFlight := none
        reg := kept ++ List.replicate (s.params.nMax - kept.length) 0
        regCount := kept.length
        res := { count := some kept.length } }) ∧
    (r.1 = true → f.next = .initTick → step s = .next { u with
      inFlight := none
      reg := known ++ List.replicate (s.params.nMax - known.length) 0
      regCount := known.length
      recs := (List.range s.params.nMax).map (fun i =>
        { active := decide (i < known.length), valid := false, temp := s.params.tempSentinel })
      fsm := if 0 < known.length then .convert else .noSensor
      res := {} }))

/-! ### Reset/presence and the transceiver -/

/-- R140: one reset slot, one sample, the result true iff the level sampled is 0; nothing else changes. -/
def Obligations.ResetSamplesPresenceOnce : Prop :=
  decodeOpw 0x00 = some .reset ∧
  (∀ s : State,
    let a := s.line.bus.answer .resetSlot (s.line.hist ++ [.driveLow s.params.tRstl, .release 70])
    exec .reset s = .next { s with
      line :=
        { lineDrive := false, crit := s.line.crit, bus := a.2
          hist := s.line.hist ++ [.driveLow s.params.tRstl, .release 70, .sample a.1, .release 410] }
      res := { bit := some (!a.1) }
      ready := none }) ∧
  ∀ (s : State) (devices : List Device), s.line.bus = .ideal devices →
    ∃ t, exec .reset s = .next t ∧ t.res.bit = some (!devices.isEmpty)

/-- R150: one write slot, 6 and 64 microseconds for a 1, 60 and 10 for a 0; nothing else changes. -/
def Obligations.WriteBitPutsOneWriteSlot : Prop :=
  decodeOpw 0x01 = some (.writeBit false) ∧ decodeOpw 0x21 = some (.writeBit true) ∧
  ∀ (s : State) (b : Bool),
    exec (.writeBit b) s = .next { s with
      line :=
        { lineDrive := false, crit := s.line.crit, bus := s.line.bus.written b
          hist := s.line.hist ++ if b then [.driveLow 6, .release 64] else [.driveLow 60, .release 10] }
      res := {}
      ready := none }

/-- R151: one read slot, the sample inside the critical section, the result the level sampled; nothing else changes. -/
def Obligations.ReadBitPutsOneReadSlot : Prop :=
  decodeOpw 0x02 = some .readBit ∧
  ∀ s : State,
    let a := s.line.bus.answer .readSlot (s.line.hist ++ [.critEnter, .driveLow 6, .release 9])
    exec .readBit s = .next { s with
      line :=
        { lineDrive := false, crit := false, bus := a.2
          hist := s.line.hist ++ [.critEnter, .driveLow 6, .release 9, .sample a.1, .critExit, .release 55] }
      res := { bit := some a.1 }
      ready := none }

/-- R153: eight write slots, bit 0 first; nothing else changes. -/
def Obligations.WriteByteSendsEightSlotsBitZeroFirst : Prop :=
  decodeOpw 0x03 = some .writeByte ∧
  ∀ s : State,
    let v := s.ops.byte
    let slots := [Slot.w (v.getLsbD 0), .w (v.getLsbD 1), .w (v.getLsbD 2), .w (v.getLsbD 3),
      .w (v.getLsbD 4), .w (v.getLsbD 5), .w (v.getLsbD 6), .w (v.getLsbD 7)]
    exec .writeByte s = .next { s with
      line :=
        { lineDrive := false, crit := s.line.crit, bus := (byteBits v).foldl (fun b x => b.written x) s.line.bus
          hist := s.line.hist ++ slotEvents s.params slots }
      res := {}
      ready := none }

/-- R154: eight read slots, the first one bit 0 of the result; all ones where nobody answers, all zeros on a line stuck
low; nothing else changes. -/
def Obligations.ReadByteAssemblesEightSamples : Prop :=
  decodeOpw 0x04 = some .readByte ∧
  (∀ s : State, ∃ (v : Byte) (b : Bus),
    exec .readByte s = .next { s with
      line :=
        { lineDrive := false, crit := false, bus := b
          hist := s.line.hist ++ slotEvents s.params
            [.rd (v.getLsbD 0), .rd (v.getLsbD 1), .rd (v.getLsbD 2), .rd (v.getLsbD 3),
             .rd (v.getLsbD 4), .rd (v.getLsbD 5), .rd (v.getLsbD 6), .rd (v.getLsbD 7)] }
      res := { byte := some v }
      ready := none }) ∧
  ∀ (s : State) (level : Bool) (script : List Bool) (choice : Nat) (past : List BusEvent),
    s.line.bus = .oracle (List.replicate 8 level ++ script) choice past →
      ∃ t, exec .readByte s = .next t ∧ t.res.byte = some (if level then 0xFF else 0x00)

/-- WRITE_BYTES sends `data[0..n-1]` in index order, each byte bit 0 first, and changes nothing else; `n` = 0 does
nothing on the line (D6, D35); with fewer than `n` bytes it is refused (D33, notes/assumptions/4). -/
def Obligations.WriteBytesSendsInIndexOrder : Prop :=
  ∀ s : State,
    (s.ops.n ≤ s.ops.data.length →
      let data := s.ops.data.take s.ops.n
      exec .writeBytes s = .next { s with
        line :=
          { lineDrive := if s.ops.n = 0 then s.line.lineDrive else false
            crit := s.line.crit
            bus := (data.flatMap byteBits).foldl (fun b x => b.written x) s.line.bus
            hist := s.line.hist ++ slotEvents s.params (data.flatMap writtenByte) }
        res := {}
        ready := none }) ∧
    (s.ops.data.length < s.ops.n → exec .writeBytes s = .refused .dataShorterThanCount)

/-- READ_BYTES reads `n` bytes in index order, each from eight read slots bit 0 first, and changes nothing else; `n` = 0
does nothing on the line (D6, D35). -/
def Obligations.ReadBytesStoresInIndexOrder : Prop :=
  ∀ s : State, ∃ (data : List Byte) (b : Bus), data.length = s.ops.n ∧
    exec .readBytes s = .next { s with
      line :=
        { lineDrive := if s.ops.n = 0 then s.line.lineDrive else false
          crit := if s.ops.n = 0 then s.line.crit else false
          bus := b
          hist := s.line.hist ++ slotEvents s.params (data.flatMap readByteSlots) }
      res := { data := some data }
      ready := none }

/-- The stream law (R157): READ_BYTES gives what `n` READ_BYTE give, READ_BYTE what eight READ_BIT give, bit 0 first, and
WRITE_BYTES what WRITE_BIT gives for the bits of its bytes in order: the same results and the same line. Data longer than `n`
is cut to `n` bytes: notes/assumptions/4. -/
def Obligations.StreamLaw : Prop :=
  (∀ s : State, ∃ t, exec .readBytes s = .next t ∧ t.res.data = some (bytesOneByOne s.ops.n s).1 ∧
    t.line = (bytesOneByOne s.ops.n s).2) ∧
  (∀ s : State, ∃ (t : State) (v : Byte), exec .readByte s = .next t ∧ t.res.byte = some v ∧
    byteBits v = (bitsOneByOne 8 s).1 ∧ t.line = (bitsOneByOne 8 s).2) ∧
  ∀ s : State, s.ops.n ≤ s.ops.data.length →
    ∃ t, exec .writeBytes s = .next t ∧ t.line = writtenOneByOne ((s.ops.data.take s.ops.n).flatMap byteBits) s

/-- The eleven command bytes, each put on the line by its eight write slots, bit 0 first, and nothing else (values: R100
to R110; that the row is an action of the host: notes/assumptions/2). -/
def Obligations.LineCommandsSendTheirByte : Prop :=
  ∀ s : State, ∀ x ∈
    [(Instr.searchRomCmd, 0xF0#8), (.readRomCmd, 0x33#8), (.matchRomCmd, 0x55#8), (.skipRomCmd, 0xCC#8),
     (.alarmSearchCmd, 0xEC#8), (.convertTCmd, 0x44#8), (.writeScratchpadCmd, 0x4E#8), (.readScratchpadCmd, 0xBE#8),
     (.copyScratchpadCmd, 0x48#8), (.recallE2Cmd, 0xB8#8), (.readPowerSupplyCmd, 0xB4#8)],
    exec x.1 s = .next { s with
      line :=
        { lineDrive := false, crit := s.line.crit, bus := (byteBits x.2).foldl (fun b y => b.written y) s.line.bus
          hist := s.line.hist ++ slotEvents s.params (writtenByte x.2) }
      res := {}
      ready := none }

/-! ### CRC-8 -/

/-- R170: seed 0, one byte at a time, bit 0 first, each bit step a shift right with 0x8C added when the bit shifted out
differs from the data bit; the result is presented, and neither state nor bus is touched. -/
def Obligations.Crc8FollowsTheBitSerialRegister : Prop :=
  decodeOpw 0x07 = some .crc8 ∧
  (∀ s : State, s.ops.n = s.ops.data.length →
    exec .crc8 s = .next { s with res := { byte := some (crc8 s.ops.data) }, ready := none }) ∧
  crc8 [] = 0x00 ∧
  (∀ (d : List Byte) (v : Byte), crc8 (d ++ [v]) =
    crcBit (crcBit (crcBit (crcBit (crcBit (crcBit (crcBit (crcBit (crc8 d) (v.getLsbD 0)) (v.getLsbD 1))
      (v.getLsbD 2)) (v.getLsbD 3)) (v.getLsbD 4)) (v.getLsbD 5)) (v.getLsbD 6)) (v.getLsbD 7)) ∧
  (∀ (c : Byte) (b : Bool), (crcBit c b).toNat =
    if c.getLsbD 0 = b then c.toNat / 2 else (c.toNat / 2) ^^^ 0x8C) ∧
  crc8 [0x28, 0x00, 0x11, 0x00, 0x00, 0x00, 0x00] = 0xAF

/-- The residue law (R172, §8): appending the CRC gives residue 0, and the two forms of the check accept the same data. -/
def Obligations.CrcResidueLaw : Prop :=
  (∀ d : List Byte, crc8 (d ++ [crc8 d]) = 0) ∧
  ∀ (d : List Byte) (v : Byte), crc8 d = v ↔ crc8 (d ++ [v]) = 0

/-- The corner cases of R173. -/
def Obligations.CrcCornerCases : Prop :=
  crc8 [] = 0x00 ∧ (∀ n, crc8 (List.replicate n 0x00) = 0x00) ∧ crc8 (List.replicate 7 0xFF) = 0x14 ∧
    crc8 (List.replicate 8 0xFF) = 0xC9 ∧ crc8 [0x01] = 0x5E ∧ crc8 [0x02] = 0xBC ∧ crc8 [0x80] = 0x8C ∧
    crc8 [0xFF] = 0x35

/-! ### ROM search -/

/-- One position of a pass, for every pair of samples (R184 to R188; recording a replayed 0: 90_conflicts.md C1): both
high aborts with no write slot; agreement takes the bit; a discrepancy before the marker replays, at the marker takes 1,
after it takes 0, and a 0 taken is recorded; the direction is stored at the position, and nowhere else, and written. And a
whole pass, on an arbitrary line (R95, R182, R185, R189 to R192, R196): the reset slot; without presence no more; with it the
byte 0xF0 or 0xEC and then positions 1 to 64 in order, `steps` holding bit, complement and direction of each, to the last or to
a bus fault; the last 0 taken at a discrepancy is the new marker, and the address is emitted if the pass is complete, its CRC
good and capacity left; `SEARCH_FAULT` is 0 again (R27). -/
def Obligations.SearchPositionFollowsTheBitPair : Prop :=
  (∀ (p : Nat) (q : Search) (c : Params) (drive crit : Bool) (h : List BusEvent) (x y : Bool) (script : List Bool)
    (choice : Nat) (past : List BusEvent), 1 ≤ p → p ≤ 64 →
    let r := searchPosition p q
      { lineDrive := drive, crit := crit, hist := h, bus := .oracle (x :: y :: script) choice past }
    let d := if x = y then (if p < q.lastDisc then positionBit q.romBuf p else decide (p = q.lastDisc)) else x
    if x = true ∧ y = true then
      r = (true, { q with pos := p, fault := true },
        { lineDrive := false, crit := false, hist := h ++ slotEvents c [.rd true, .rd true]
          bus := .oracle script choice past })
    else
      r.1 = false ∧ r.2.1.pos = p ∧ r.2.1.lastDisc = q.lastDisc ∧ r.2.1.fault = q.fault ∧ r.2.1.out = q.out ∧
        r.2.1.candDisc = (if x = false ∧ y = false ∧ d = false then p else q.candDisc) ∧
        positionBit r.2.1.romBuf p = d ∧
        (∀ k, 1 ≤ k → k ≤ 64 → k ≠ p → positionBit r.2.1.romBuf k = positionBit q.romBuf k) ∧
        r.2.2 = { lineDrive := false, crit := false, hist := h ++ slotEvents c [.rd x, .rd y, .w d]
                  bus := .oracle script choice past }) ∧
  ∀ (c : Params) (capacity : Nat) (alarmOnly : Bool) (q : Search) (l : Line),
    let r := searchLoop 1 c capacity alarmOnly q l
    let absent := (l.bus.answer .resetSlot (l.hist ++ [.driveLow c.tRstl, .release 70])).1
    (absent = true → r = (true, q, l.playSlots c [.rst true]) ∧ r.2.2.hist = l.hist ++ slotEvents c [.rst true]) ∧
    (absent = false → ∃ steps : List (Bool × Bool × Bool),
      let slots := .rst false :: writtenByte (if alarmOnly then 0xEC else 0xF0) ++ steps.flatMap positionSlots ++
        if steps.length < 64 then [.rd true, .rd true] else []
      steps.length ≤ 64 ∧ (∀ x ∈ steps, ¬(x.1 = true ∧ x.2.1 = true)) ∧
      r.2.2 = l.playSlots c slots ∧ r.2.2.hist = l.hist ++ slotEvents c slots ∧
      (∀ i x, steps[i]? = some x →
        x.2.2 = (if x.1 = x.2.1 then
          (if i + 1 < q.lastDisc then positionBit q.romBuf (i + 1) else decide (i + 1 = q.lastDisc)) else x.1) ∧
        positionBit r.2.1.romBuf (i + 1) = x.2.2) ∧
      (∀ k, steps.length < k → k ≤ 64 → positionBit r.2.1.romBuf k = positionBit q.romBuf k) ∧
      r.2.1.pos = min 64 (steps.length + 1) ∧ r.2.1.fault = false ∧ r.2.1.candDisc = r.2.1.lastDisc ∧
      (r.2.1.lastDisc = 0 ∧ (false, false, false) ∉ steps ∨
        ∃ i, r.2.1.lastDisc = i + 1 ∧ steps[i]? = some (false, false, false) ∧
          ∀ j, i < j → steps[j]? ≠ some (false, false, false)) ∧
      r.2.1.out = (if steps.length = 64 ∧ addrCrcOk r.2.1.romBuf = true ∧ q.out.length < capacity then
        q.out ++ [r.2.1.romBuf] else q.out) ∧
      r.1 = decide (r.2.1.lastDisc = 0))

/-- When the first reset slot samples 1, SEARCH_ROM emits nothing and puts no further slot on the line (R146, R180). That the
start of the search clears OUT, LAST_DISC and ROM_BUF, and that SEARCH_POS, CAND_DISC and SEARCH_FAULT stay as they were, rests
on D11 and notes/assumptions/10; in a state that meets the invariant SEARCH_FAULT was 0 (R27). -/
def Obligations.SearchWithoutPresenceIsEmpty : Prop :=
  ∀ (s : State) (alarmOnly : Bool),
    let a := s.line.bus.answer .resetSlot (s.line.hist ++ [.driveLow s.params.tRstl, .release 70])
    a.1 = true →
      exec (.searchRom alarmOnly) s = .next { s with
        line :=
          { lineDrive := false, crit := s.line.crit, bus := a.2
            hist := s.line.hist ++ slotEvents s.params [.rst true] }
        search := { s.search with out := [], lastDisc := 0, romBuf := 0 }
        inFlight := none
        res := { addrs := some [], count := some 0 }
        ready := none }

/-- SEARCH_ROM runs passes from cleared registers, one after the other, until one ends the search (R180, R189); it completes
for every oracle, or is still walking (R195); it writes the search registers and the line and nothing else; when it has ended
it presents what it emitted, at most `capacity` addresses, each with a good CRC (R190, R191), and the marker is zero or the
last slot was a reset slot without presence (R189; 92 D9, D10). What one pass does is `SearchPositionFollowsTheBitPair`. On a
line whose samples are all 0 neither it nor DISCOVER nor an Init tick presents a result before its 2^64th pass (R195, R327): it
stays in flight step after step (its form there: notes/assumptions/7). -/
def Obligations.SearchEmitsCheckedAddressesWithinCapacity : Prop :=
  (∀ (s : State) (alarmOnly : Bool),
    let r := searchLoop Config.passBudget s.params s.ops.n alarmOnly
      { s.search with out := [], lastDisc := 0, romBuf := 0 } s.line
    exec (.searchRom alarmOnly) s = .next { s with
      search := r.2.1
      line := r.2.2
      inFlight := if r.1 then none else some { capacity := s.ops.n, alarmOnly := alarmOnly, next := .report }
      res := if r.1 then { addrs := some r.2.1.out, count := some r.2.1.out.length } else {}
      ready := none } ∧
    r.2.1.out.length ≤ s.ops.n ∧ (∀ x ∈ r.2.1.out, addrCrcOk x = true) ∧
    (r.1 = true → r.2.1.lastDisc = 0 ∨ ∃ h, r.2.2.hist = h ++ slotEvents s.params [.rst true])) ∧
  (∀ (c : Params) (n k : Nat) (alarmOnly : Bool) (q : Search) (l : Line),
    searchLoop 0 c n alarmOnly q l = (false, q, l) ∧
    searchLoop (k + 1) c n alarmOnly q l =
      let r := searchLoop 1 c n alarmOnly q l
      if r.1 then r else searchLoop k c n alarmOnly r.2.1 r.2.2) ∧
  ∀ (s t : State) (i : Instr) (k : Nat) (rest : List Bool) (choice : Nat) (past : List BusEvent), exec i s = .next t →
    ((∃ alarmOnly, i = .searchRom alarmOnly) ∨ (∃ filter, i = .discover filter) ∨
      i = .advance ∧ s.fsm = .init ∧ tickEffective s.params s.lastTime s.ops.time = true) →
    s.line.bus = .oracle (List.replicate (129 * ((k + 1) * Config.passBudget)) false ++ rest) choice past →
    (k + 1) * Config.passBudget < 2 ^ 64 → (∀ r, s.inputs ≠ .reset :: r) →
      ∃ u : State, Sys2Proof.core.run k t = .next u ∧ u.inFlight ≠ none ∧ u.res = {} ∧ u.inputs = s.inputs

/-- On an ideal bus with distinct addresses SEARCH_ROM ends, after as many passes as devices take part (one if none does), each
pass walked in full whatever the capacity, and leaves the same line for every capacity; the addresses with a good CRC of the
devices taking part, each once, in the order of the leaves, are `all`, and the result is the first `n` of them (R191, R194,
R196; §8: "returns exactly that set, each address exactly once", and a corrupted CRC "omits only that address"). It ends in its
first step where `Config.passBudget` devices or fewer take part, and after `k` further steps of the same search otherwise
(notes/assumptions/7). -/
def Obligations.SearchFindsExactlyTheDevices : Prop :=
  ∀ (s : State) (alarmOnly : Bool) (devices : List Device), s.line.bus = .ideal devices →
    (devices.map (fun d => d.addr)).Nodup → (∀ rest, s.inputs ≠ .reset :: rest) →
      ∃ (k : Nat) (all : List Addr) (l : Line) (slots : List Slot),
        ((takingPart alarmOnly devices).length ≤ Config.passBudget → k = 0) ∧
        (∀ a, a ∈ all ↔ addrCrcOk a = true ∧ ∃ d ∈ takingPart alarmOnly devices, d.addr = a) ∧
        all.Pairwise (fun a b => leafOrder a < leafOrder b) ∧
        l.hist = s.line.hist ++ slotEvents s.params slots ∧
        slots.countP Slot.isReset = max 1 (takingPart alarmOnly devices).length ∧
        (takingPart alarmOnly devices ≠ [] → slots.length = 201 * (takingPart alarmOnly devices).length) ∧
        ∀ n : Nat, ∃ t u : State,
          exec (.searchRom alarmOnly) { s with ops := { s.ops with n := n } } = .next t ∧
          Sys2Proof.core.run k t = .next u ∧ u.inFlight = none ∧ u.inputs = s.inputs ∧ u.line = l ∧
          u.search.lastDisc = 0 ∧ u.res = { addrs := some (all.take n), count := some (min n all.length) }

/-! ### Discovery, selection, conversion, reading -/

/-- DISCOVER, where it is allowed, runs SEARCH_ROM, not alarm-only, with the registry's capacity (R210): the search registers,
the line, and whether the search has ended are SEARCH_ROM's. It replaces the registry and touches neither the records nor the
scheduler (R210; D12): when its search has ended, the retained addresses stand from index 0, zero above them, and their count
is presented. -/
def Obligations.DiscoverReplacesTheRegistry : Prop :=
  ∀ (s : State) (filter : Bool), s.fsm = .init ∨ s.fsm = .noSensor →
    ∃ (t : State) (reg : List Addr) (n : Nat) (a : Answer),
      exec (.searchRom false) { s with ops := { s.ops with n := s.params.nMax } } = .next t ∧
      exec (.discover filter) s = .next { s with
        search := t.search, line := t.line, reg := reg, regCount := n, res := a, ready := none
        inFlight := t.inFlight.map (fun f => { f with next := .discover filter }) } ∧
      (t.inFlight ≠ none → reg = s.reg ∧ n = s.regCount ∧ a = {}) ∧
      (t.inFlight = none → a = { count := some n } ∧ n ≤ s.params.nMax ∧ reg.length = s.params.nMax ∧
        reg.take n = (if filter then t.search.out.filter (fun x =>
          s.params.familyA.contains (x.extractLsb' 0 8) || s.params.familyB.contains (x.extractLsb' 0 8))
          else t.search.out) ∧
        (∀ x ∈ reg.drop n, x = 0) ∧ ∀ x ∈ reg.take n, addrCrcOk x = true)

/-- A host's DISCOVER in a cycle has no step (R260; D26). -/
def Obligations.DiscoverIsRefusedInACycle : Prop :=
  ∀ (s : State) (filter : Bool), s.fsm ∈ [.convert, .convertWait, .read, .readWait] →
    exec (.discover filter) s = .refused .discoverMidCycle

/-- A discovery that finds no presence empties the registry all the same (R212 (a)). -/
def Obligations.DiscoverWithoutPresenceEmptiesTheRegistry : Prop :=
  ∀ (s : State) (filter : Bool), s.fsm = .init ∨ s.fsm = .noSensor →
    (s.line.bus.answer .resetSlot (s.line.hist ++ [.driveLow s.params.tRstl, .release 70])).1 = true →
      ∃ t, exec (.discover filter) s = .next t ∧ t.reg = List.replicate s.params.nMax 0 ∧ t.regCount = 0 ∧
        t.res = { count := some 0 } ∧ t.line.hist = s.line.hist ++ slotEvents s.params [.rst true]

/-- Two discoveries of an unchanged ideal bus leave the same registry (§8, R194): "Calling Discover twice against an
unchanged simulated bus returns identical address sets both times". -/
def Obligations.DiscoverTwiceLeavesTheSameRegistry : Prop :=
  ∀ (s t u : State) (filter : Bool) (devices : List Device), s.line.bus = .ideal devices →
    exec (.discover filter) s = .next t → t.inFlight = none → exec (.discover filter) t = .next u →
      u.inFlight = none ∧ u.reg = t.reg ∧ u.regCount = t.regCount ∧ u.res = t.res

/-- SELECT_ADDRESSED sends 0x55 and the eight address bytes, `a[0]` first, and leaves nothing behind in the block (D18). -/
def Obligations.SelectAddressedSendsMatchRomAndTheAddress : Prop :=
  ∀ s : State,
    let a := s.ops.addr
    let sent : List Byte := [0x55, a.extractLsb' 0 8, a.extractLsb' 8 8, a.extractLsb' 16 8, a.extractLsb' 24 8,
      a.extractLsb' 32 8, a.extractLsb' 40 8, a.extractLsb' 48 8, a.extractLsb' 56 8]
    exec .selectAddressed s = .next { s with
      line :=
        { lineDrive := false, crit := s.line.crit
          bus := (sent.flatMap byteBits).foldl (fun b x => b.written x) s.line.bus
          hist := s.line.hist ++ slotEvents s.params (sent.flatMap writtenByte) }
      res := {}
      ready := none }

/-- R214: SELECT_ALL sends 0xCC in eight write slots, and changes nothing else. -/
def Obligations.SelectAllSendsSkipRom : Prop :=
  decodeOpw 0x0B = some .selectAll ∧
  ∀ s : State,
    exec .selectAll s = .next { s with
      line :=
        { lineDrive := false, crit := s.line.crit, bus := (byteBits 0xCC).foldl (fun b x => b.written x) s.line.bus
          hist := s.line.hist ++ slotEvents s.params
            [.w false, .w false, .w true, .w true, .w false, .w false, .w true, .w true] }
      res := {}
      ready := none }

/-- START_CONVERSION: the reset slot; with presence the selection and 0x44; without, nothing more, unreported; nothing
else changes (R216; the two-way operand: D36). -/
def Obligations.StartConversionSendsItsFrame : Prop :=
  ∀ (s : State) (broadcast : Bool),
    let a := s.line.bus.answer .resetSlot (s.line.hist ++ [.driveLow s.params.tRstl, .release 70])
    let sent : List Byte :=
      if a.1 then [] else (if broadcast then [0xCC] else 0x55 :: addrBytes s.ops.addr) ++ [0x44]
    exec (.startConversion broadcast) s = .next { s with
      line :=
        { lineDrive := false, crit := s.line.crit
          bus := (sent.flatMap byteBits).foldl (fun b x => b.written x) a.2
          hist := s.line.hist ++ slotEvents s.params (.rst a.1 :: sent.flatMap writtenByte) }
      res := {}
      ready := none }

/-- CONVERT_BLOCKING is START_CONVERSION and then one release of `T_CONV_BLOCK`, presence or not (R226; D28, C4). -/
def Obligations.ConvertBlockingAddsTheWait : Prop :=
  ∀ (s : State) (broadcast : Bool), ∃ t, exec (.startConversion broadcast) s = .next t ∧
    exec (.convertBlocking broadcast) s = .next { t with
      line := { t.line with hist := t.line.hist ++ [.release s.params.tConvBlock] } }

/-- READ_TEMPERATURE: without presence the sentinel and one reset slot; with it the addressed frame with 0xBE, nine bytes
read into `SP_BUF`, the sentinel on a CRC mismatch, else the decode by the family of the operand address; nothing else
changes (R218 to R221; D14, D15, D18). -/
def Obligations.ReadTemperatureReadsChecksDecodes : Prop :=
  ∀ s : State,
    let a := s.line.bus.answer .resetSlot (s.line.hist ++ [.driveLow s.params.tRstl, .release 70])
    let sent : List Byte := 0x55 :: addrBytes s.ops.addr ++ [0xBE]
    let m : Line :=
      { lineDrive := false, crit := s.line.crit
        bus := (sent.flatMap byteBits).foldl (fun b x => b.written x) a.2
        hist := s.line.hist ++ slotEvents s.params (.rst false :: sent.flatMap writtenByte) }
    let sp := (m.readBytes 9).1
    (a.1 = true → exec .readTemperature s = .next { s with
      line :=
        { lineDrive := false, crit := s.line.crit, bus := a.2, hist := s.line.hist ++ slotEvents s.params [.rst true] }
      res := { temp := some s.params.tempSentinel }
      ready := none }) ∧
    (a.1 = false → sp.length = 9 ∧ exec .readTemperature s = .next { s with
      line :=
        { lineDrive := false, crit := false, bus := (m.readBytes 9).2.bus
          hist := m.hist ++ slotEvents s.params (sp.flatMap readByteSlots) }
      spBuf := sp
      res := { temp := some (
        if crc8 (sp.take 8) = sp.getD 8 0 then decodeTemperature s.params s.ops.addr sp else s.params.tempSentinel) }
      ready := none })

/-- The decode (R221 to R223; low byte first: D7; truncation: D16): for a family A code `raw * 50`, for a family B code
`raw * 100 / 16` with the fraction dropped toward zero, each the exact value in 32 signed bits and in the ranges of R223;
for any other code the sentinel. -/
def Obligations.DecodedTemperatureIsExactAndInRange : Prop :=
  ∀ (p : Params) (a : Addr) (sp : List Byte),
    let code := a.extractLsb' 0 8
    let raw : Int := (sp.getD 1 0 ++ sp.getD 0 0 : BitVec 16).toInt
    let t := decodeTemperature p a sp
    (code ∈ p.familyA → t.toInt = raw * 50 ∧ -1638400 ≤ t.toInt ∧ t.toInt ≤ 1638350) ∧
    (code ∉ p.familyA → code ∈ p.familyB →
      t.toInt.natAbs = (raw * 100).natAbs / 16 ∧ (0 ≤ raw → 0 ≤ t.toInt) ∧ (raw ≤ 0 → t.toInt ≤ 0) ∧
        -204800 ≤ t.toInt ∧ t.toInt ≤ 204793) ∧
    (code ∉ p.familyA → code ∉ p.familyB → t = p.tempSentinel)

/-- The raw value 0x0191 of a family B device decodes to 2506 hundredths of a degree (R225); that a scratchpad beginning 91 01
has that raw value, the low byte first, is D7 (R64). -/
def Obligations.DecodeOfTheSourceExample : Prop :=
  ∀ (p : Params) (a : Addr) (rest : List Byte),
    a.extractLsb' 0 8 ∉ p.familyA → a.extractLsb' 0 8 ∈ p.familyB →
      rawTemperature (0x91 :: 0x01 :: rest) = 401 ∧ tdiv (401 * 100) 16 = 2506 ∧
        (decodeTemperature p a (0x91 :: 0x01 :: rest)).toInt = 2506

/-- On an ideal bus READ_TEMPERATURE reads the scratchpad of the device with the operand's address, and no other (R75,
R218); where no device has it, nine bytes 0xFF, and so the sentinel (R173, V44-25). -/
def Obligations.ReadTemperatureOnTheIdealBus : Prop :=
  ∀ (s : State) (devices : List Device), s.line.bus = .ideal devices → devices ≠ [] →
    (devices.map (fun d => d.addr)).Nodup →
    (∀ d ∈ devices, d.addr = s.ops.addr → d.scratchpad.length = 9 →
      ∃ t, exec .readTemperature s = .next t ∧ t.spBuf = d.scratchpad ∧
        t.res.temp = some (if scratchpadCrcOk d.scratchpad then decodeTemperature s.params s.ops.addr d.scratchpad
          else s.params.tempSentinel)) ∧
    ((∀ d ∈ devices, d.addr ≠ s.ops.addr) →
      ∃ t, exec .readTemperature s = .next t ∧ t.spBuf = List.replicate 9 0xFF ∧
        t.res.temp = some s.params.tempSentinel)

/-- How the three faults show (R280 to R284; no signal: D30): a pass emits its address exactly if no fault class applies to
it, and its end carries the marker forward in any case, clears SEARCH_FAULT (R27) and changes nothing else; a SEARCH_ROM that has ended presents the
addresses emitted and their number; READ_TEMPERATURE answers the sentinel where a class applies to the read, else the decode
of the nine bytes, and writes nothing but the line, `SP_BUF` and that result. -/
def Obligations.FaultsShowOnlyInResults : Prop :=
  (∀ (capacity : Nat) (q : Search), q.endPass capacity = { q with
    lastDisc := q.candDisc
    fault := false
    out := if passFault capacity q = none then q.out ++ [q.romBuf] else q.out }) ∧
  (∀ (s t : State) (alarmOnly : Bool), exec (.searchRom alarmOnly) s = .next t → t.inFlight = none →
    t = { s with
      line := t.line, search := t.search, inFlight := none, ready := none
      res := { addrs := some t.search.out, count := some t.search.out.length } }) ∧
  ∀ s : State,
    let v := (s.line.bus.answer .resetSlot (s.line.hist ++ [.driveLow s.params.tRstl, .release 70])).1
    ∃ (l : Line) (sp : List Byte), exec .readTemperature s = .next { s with
      line := l
      spBuf := sp
      res := { temp := some (
        if readFault (!v) sp = none then decodeTemperature s.params s.ops.addr sp else s.params.tempSentinel) }
      ready := none }

/-- An address is its eight bytes, `a[0]` in bits 7:0 (R98, R116 (a)), and search position `p` is its bit `p - 1` (R63;
D5). -/
def Obligations.AddressLayout : Prop :=
  (∀ a : Addr, addrOfBytes (addrBytes a) = a) ∧
  (∀ b0 b1 b2 b3 b4 b5 b6 b7 : Byte,
    addrBytes (addrOfBytes [b0, b1, b2, b3, b4, b5, b6, b7]) = [b0, b1, b2, b3, b4, b5, b6, b7]) ∧
  ∀ (a : Addr) (p : Nat), 1 ≤ p → p ≤ 64 →
    positionBit a p = a.getLsbD (p - 1) ∧
      ((addrBytes a).flatMap byteBits)[p - 1]? = some (positionBit a p)

/-! ### The scheduler -/

/-- A call of ADVANCE that is not effective changes nothing at all and presents nothing (R241; D19). -/
def Obligations.AdvanceBeforeTheIntervalIsANoOp : Prop :=
  ∀ s : State, (s.ops.time.toNat + 2 ^ 32 - s.lastTime.toNat) % 2 ^ 32 < s.params.tickInterval.toNat →
    exec .advance s = .next { s with res := {}, ready := none }

/-- The Init tick (R244; D22): a filtered discovery, so SEARCH_ROM, not alarm-only, with the registry's capacity (R210), whose
search registers, line and end are its; when its search has ended, every record is replaced, active below the count, invalid,
at the sentinel, and the next state is Convert if anything was found, else NoSensor; nothing else changes. -/
def Obligations.InitTickDiscoversAndReplacesTheRecords : Prop :=
  ∀ s : State, s.fsm = .init → tickEffective s.params s.lastTime s.ops.time = true →
    ∃ (t : State) (reg : List Addr) (n : Nat) (recs : List Record) (fsm : SchedulerState),
      exec (.searchRom false) { s with ops := { s.ops with n := s.params.nMax } } = .next t ∧
      exec .advance s = .next { s with
        search := t.search, line := t.line, reg := reg, regCount := n, recs := recs, fsm := fsm
        inFlight := t.inFlight.map (fun f => { f with next := .initTick })
        lastTime := s.ops.time, res := {}, ready := none } ∧
      (t.inFlight ≠ none → reg = s.reg ∧ n = s.regCount ∧ recs = s.recs ∧ fsm = .init) ∧
      (t.inFlight = none → n ≤ s.params.nMax ∧ reg.length = s.params.nMax ∧
        reg.take n = t.search.out.filter (fun x => recognised s.params (x.extractLsb' 0 8)) ∧
        (∀ x ∈ reg.drop n, x = 0) ∧
        recs = (List.range s.params.nMax).map (fun i =>
          { active := decide (i < n), valid := false, temp := s.params.tempSentinel }) ∧
        (0 < n → fsm = .convert) ∧ (n = 0 → fsm = .noSensor))

/-- R245: the Convert tick starts a broadcast conversion, arms the countdown and goes to ConvertWait, whether the reset
slot shows presence or not; nothing else changes. -/
def Obligations.ConvertTickStartsABroadcastConversion : Prop :=
  ∀ s : State, s.fsm = .convert → tickEffective s.params s.lastTime s.ops.time = true →
    let a := s.line.bus.answer .resetSlot (s.line.hist ++ [.driveLow s.params.tRstl, .release 70])
    let sent : List Byte := if a.1 then [] else [0xCC, 0x44]
    exec .advance s = .next { s with
      line :=
        { lineDrive := false, crit := s.line.crit
          bus := (sent.flatMap byteBits).foldl (fun b x => b.written x) a.2
          hist := s.line.hist ++ slotEvents s.params (.rst a.1 :: sent.flatMap writtenByte) }
      countdown := s.params.convertWaitTicks
      fsm := .convertWait
      lastTime := s.ops.time
      res := {}
      ready := none }

/-- The ticks of the two waiting states and of NoSensor (R246, R248, R250; D20): the guarded decrement; ConvertWait left
for Read with the cursor at 0, ReadWait for Convert, on the tick that reaches zero; NoSensor does nothing; none touches
the line. -/
def Obligations.WaitingTicksCountDown : Prop :=
  ∀ s : State, tickEffective s.params s.lastTime s.ops.time = true →
    let c : Ticks := BitVec.ofNat 16 (s.countdown.toNat - 1)
    let u : State := { s with lastTime := s.ops.time, res := {}, ready := none }
    (s.fsm = .convertWait → 1 < s.countdown.toNat → exec .advance s = .next { u with countdown := c }) ∧
    (s.fsm = .convertWait → s.countdown.toNat ≤ 1 →
      exec .advance s = .next { u with countdown := 0, cursor := 0, fsm := .read }) ∧
    (s.fsm = .readWait → 1 < s.countdown.toNat → exec .advance s = .next { u with countdown := c }) ∧
    (s.fsm = .readWait → s.countdown.toNat ≤ 1 →
      exec .advance s = .next { u with countdown := 0, fsm := .convert }) ∧
    (s.fsm = .noSensor → exec .advance s = .next u)

/-- A Read tick reads exactly one device, the one at the cursor, stores its temperature and validity and advances the
cursor (R247; D17); it is READ_TEMPERATURE of the registered address; before the last device nothing else changes. The
records the ready consumer was handed are the block's own, and so change with it (R333; D25). -/
def Obligations.ReadTickReadsOneDevice : Prop :=
  ∀ (s : State) (a : Addr) (r : Record), s.fsm = .read →
    tickEffective s.params s.lastTime s.ops.time = true → s.reg[s.cursor]? = some a → s.recs[s.cursor]? = some r →
    s.cursor + 1 ≠ s.regCount →
      ∃ (t : State) (x : Temp), exec .readTemperature { s with ops := { s.ops with addr := a } } = .next t ∧
        t.res.temp = some x ∧
        let recs := s.recs.set s.cursor { active := r.active, valid := decide (x ≠ s.params.tempSentinel), temp := x }
        let u : State := { s with
          line := t.line
          spBuf := t.spBuf
          recs := recs
          cursor := s.cursor + 1
          lastTime := s.ops.time
          res := {}
          ready := none }
        exec .advance s = .next u ∧ ∀ n, s.handed = some n → u.handedRecords = some (recs.take n)

/-- The last Read tick of a cycle also ends it: the ready event if a callback is registered, with the full record set and
the count, then the countdown and ReadWait, in the same tick (R247, R252, R290; D21, D24). The consumer is handed the block's
own records (R333), and its calls are answered at the entry of the event: the records of the cycle just finished, the cursor
at the count, the state still Read, the countdown not yet armed (R253; the form: notes/assumptions/8). -/
def Obligations.LastReadTickFiresTheReadyEvent : Prop :=
  ∀ (s : State) (a : Addr) (r : Record), s.fsm = .read →
    tickEffective s.params s.lastTime s.ops.time = true → s.reg[s.cursor]? = some a → s.recs[s.cursor]? = some r →
    s.cursor + 1 = s.regCount →
      ∃ (t : State) (x : Temp),
        exec .readTemperature { s with ops := { s.ops with addr := a } } = .next t ∧ t.res.temp = some x ∧
        let recs := s.recs.set s.cursor { active := r.active, valid := decide (x ≠ s.params.tempSentinel), temp := x }
        let entry : State := { s with
          line := t.line
          spBuf := t.spBuf
          recs := recs
          cursor := s.regCount
          lastTime := s.ops.time
          res := {}
          ready := none }
        let event : ReadyEvent :=
          { records := recs.take s.regCount, count := s.regCount, answers := s.callback.map entry.answerCall }
        exec .advance s = .next { entry with
          countdown := s.params.cycleDelayTicks
          fsm := .readWait
          handed := if s.cbSet then some s.regCount else s.handed
          ready := if s.cbSet then some event else none }

/-- What the ready consumer may do while the callback runs (R253; D25): GET_MIN, GET_MID, GET_MAX, GET_ADDRESSES and CRC8
answer what they answer the host; any other word, ADVANCE included, is refused. -/
def Obligations.CallbackMayOnlyRead : Prop :=
  ∀ (s : State) (c : Call),
    (∀ i ∈ [Instr.getMin, .getMid, .getMax, .getAddresses], decodeOpw c.word = some i →
      ∃ t, exec i { s with ops := c.ops } = .next t ∧ s.answerCall c = some t.res) ∧
    (decodeOpw c.word = some .crc8 → c.ops.n ≤ c.ops.data.length →
      ∃ t, exec .crc8 { s with ops := c.ops } = .next t ∧ s.answerCall c = some t.res) ∧
    ((∀ i ∈ [Instr.getMin, .getMid, .getMax, .getAddresses, .crc8], decodeOpw c.word ≠ some i) →
      s.answerCall c = none)

/-- SET_READY_CALLBACK: one slot, a later registration replaces; nothing else changes (R251; D24). What the model keeps of the
callback is the list of its calls, none where none is registered, the host's and not the block's: notes/assumptions/8. -/
def Obligations.SetReadyCallbackReplacesTheSlot : Prop :=
  ∀ s : State,
    (∀ calls, s.argCb = some calls → exec .setReadyCallback s =
      .next { s with cbSet := true, callback := calls, res := {}, ready := none }) ∧
    (s.argCb = none → exec .setReadyCallback s =
      .next { s with cbSet := false, callback := [], res := {}, ready := none })

/-- R255: GET_MIN presents the sentinel over an empty valid set, else the least valid temperature; it writes nothing. -/
def Obligations.GetMinPresentsTheLeastValid : Prop :=
  decodeOpw 0x12 = some .getMin ∧
  ∀ s : State, ∃ x : Temp, exec .getMin s = .next { s with res := { temp := some x }, ready := none } ∧
    ((∀ r ∈ s.recs, r.valid = false) → x = s.params.tempSentinel) ∧
    ((∃ r ∈ s.recs, r.valid = true) → (∃ r ∈ s.recs, r.valid = true ∧ r.temp = x) ∧
      ∀ r ∈ s.recs, r.valid = true → x.toInt ≤ r.temp.toInt)

/-- R257: GET_MAX presents the sentinel over an empty valid set, else the greatest valid temperature; it writes nothing. -/
def Obligations.GetMaxPresentsTheGreatestValid : Prop :=
  decodeOpw 0x14 = some .getMax ∧
  ∀ s : State, ∃ x : Temp, exec .getMax s = .next { s with res := { temp := some x }, ready := none } ∧
    ((∀ r ∈ s.recs, r.valid = false) → x = s.params.tempSentinel) ∧
    ((∃ r ∈ s.recs, r.valid = true) → (∃ r ∈ s.recs, r.valid = true ∧ r.temp = x) ∧
      ∀ r ∈ s.recs, r.valid = true → r.temp.toInt ≤ x.toInt)

/-- GET_MID presents the sentinel over an empty valid set, else the exact sum divided by the number of valid records,
truncated toward zero, which 32 signed bits always hold (R256; D23); it writes nothing. -/
def Obligations.GetMidPresentsTheTruncatedMean : Prop :=
  ∀ s : State,
    let v : List Int := (s.recs.filter (fun r => r.valid)).map (fun r => r.temp.toInt)
    ∃ x : Temp, exec .getMid s = .next { s with res := { temp := some x }, ready := none } ∧
      (v = [] → x = s.params.tempSentinel) ∧
      (v ≠ [] → x.toInt = Int.tdiv v.sum (v.length : Int))

/-- GET_ADDRESSES presents `REG[0 .. REG_COUNT-1]` and `REG_COUNT`, and writes nothing (R259; D37). -/
def Obligations.GetAddressesPresentsTheRegistry : Prop :=
  ∀ s : State, s.regCount ≤ s.reg.length → ∃ addrs : List Addr,
    exec .getAddresses s = .next { s with res := { addrs := some addrs, count := some s.regCount }, ready := none } ∧
      addrs.length = s.regCount ∧ ∀ i < s.regCount, addrs[i]? = s.reg[i]?

/-- REINIT puts the scheduler back to Init, countdown and cursor to 0, and leaves all else as it is (R258; D27). -/
def Obligations.ReinitRestartsTheScheduler : Prop :=
  ∀ s : State, exec .reinit s =
    .next { s with fsm := .init, countdown := 0, cursor := 0, res := {}, ready := none }

/-! ### Runs of the scheduler -/

/-- ConvertWait lasts exactly its countdown in effective ticks (R246; D20), and the line is not touched. -/
def Obligations.ConvertWaitLastsItsCountdown : Prop :=
  ∀ (s : State) (times : List Time) (rest : List HostInput), s.fsm = .convertWait → s.inFlight = none →
    times.length = s.countdown.toNat → 0 < s.countdown.toNat → s.inputs = advanceCalls times ++ rest →
    allEffective s.params s.lastTime times = true →
      (∀ k < times.length, ∃ u : State, Sys2Proof.core.run k s = .next u ∧ u.fsm = .convertWait ∧ u.line = s.line ∧
        u.countdown.toNat = s.countdown.toNat - k) ∧
      ∃ t : State, Sys2Proof.core.run times.length s = .next t ∧ t.fsm = .read ∧ t.cursor = 0 ∧ t.line = s.line ∧
        t.inputs = rest

/-- One cycle (R249, R252, R261; D20, D21): from Convert, with a callback registered and `N` = `REG_COUNT` devices, the
ready event fires exactly once in the `1 + C + N + D` effective ticks of the cycle, on tick `1 + C + N`, with exactly `N`
records, each active and the block's own (R333), and the last tick is back in Convert; whatever the bus answers. -/
def Obligations.CycleFiresReadyExactlyOnce : Prop :=
  ∀ (s : State) (times : List Time) (rest : List HostInput), s.Inv → s.params.wf = true → s.fsm = .convert →
    s.inFlight = none → s.cbSet = true → s.inputs = advanceCalls times ++ rest →
    allEffective s.params s.lastTime times = true →
    times.length = 1 + s.params.convertWaitTicks.toNat + s.regCount + s.params.cycleDelayTicks.toNat →
      (∀ k, 1 ≤ k → k ≤ times.length → ∃ u : State, Sys2Proof.core.run k s = .next u ∧
        (u.ready ≠ none ↔ k = 1 + s.params.convertWaitTicks.toNat + s.regCount) ∧
        ∀ e, u.ready = some e → e.count = s.regCount ∧ e.records.length = s.regCount ∧
          u.handedRecords = some e.records ∧ ∀ r ∈ e.records, r.active = true) ∧
      ∃ t : State, Sys2Proof.core.run times.length s = .next t ∧ t.fsm = .convert ∧ t.inputs = rest

/-- NoSensor is terminal under ADVANCE (R250): however often it is called, at whatever times, the state stays NoSensor,
the line is not touched, and no ready event fires. -/
def Obligations.NoSensorIsTerminal : Prop :=
  ∀ (s : State) (times : List Time) (rest : List HostInput), s.fsm = .noSensor → s.inFlight = none →
    s.inputs = advanceCalls times ++ rest → ∀ k ≤ times.length, ∃ u : State,
      Sys2Proof.core.run k s = .next u ∧ u.fsm = .noSensor ∧ u.line = s.line ∧ u.reg = s.reg ∧ u.recs = s.recs ∧
        (1 ≤ k → u.ready = none)

/-- The scheduler moves only along the table of R243: every change of state in a step, from a state that meets the
invariant, is a row of the table, taken by an effective ADVANCE (or by the search of an Init tick ending), or goes to Init
by REINIT or the reset event. -/
def Obligations.SchedulerMovesOnlyAlongTheTable : Prop :=
  ∀ s t : State, s.Inv → step s = .next t → t.fsm ≠ s.fsm →
    (((s.inFlight ≠ none ∧ s.fsm = .init) ∨ (∃ w ops cb rest, s.inputs = .call .operation w ops cb :: rest ∧
        decodeOpw w = some .advance ∧ tickEffective s.params s.lastTime ops.time = true)) ∧
      (s.fsm = .init ∧ t.fsm = .convert ∧ 0 < t.regCount ∨
        s.fsm = .init ∧ t.fsm = .noSensor ∧ t.regCount = 0 ∨
        s.fsm = .convert ∧ t.fsm = .convertWait ∧ t.countdown = s.params.convertWaitTicks ∨
        s.fsm = .convertWait ∧ t.fsm = .read ∧ t.countdown = 0 ∧ t.cursor = 0 ∨
        s.fsm = .read ∧ t.fsm = .readWait ∧ t.cursor = t.regCount ∧ t.countdown = s.params.cycleDelayTicks ∨
        s.fsm = .readWait ∧ t.fsm = .convert ∧ t.countdown = 0)) ∨
    (t.fsm = .init ∧ ((∃ rest, s.inputs = .reset :: rest) ∨
      ∃ w ops cb rest, s.inputs = .call .operation w ops cb :: rest ∧ decodeOpw w = some .reinit))

/-! ### The whole machine -/

/-- The ready event comes only from the last Read tick of a cycle, with a callback registered (R252: "never emitted from
any other state"), and hands the consumer the block's own records (R333). -/
def Obligations.ReadyComesOnlyFromTheLastRead : Prop :=
  ∀ (i : Instr) (s t : State) (e : ReadyEvent), exec i s = .next t → t.ready = some e →
    i = .advance ∧ tickEffective s.params s.lastTime s.ops.time = true ∧ s.fsm = .read ∧ s.cbSet = true ∧
      s.cursor + 1 = s.regCount ∧ t.fsm = .readWait ∧ e.records = t.recs.take t.regCount ∧ e.count = t.regCount ∧
      t.handed = some t.regCount

/-- Which instruction may write what (R45, R20 "written by"): the scheduler's elements only ADVANCE and REINIT, the records
and what the ready consumer was handed only ADVANCE, the registry only DISCOVER and ADVANCE, the search registers only those
two and SEARCH_ROM, `SP_BUF` only READ_TEMPERATURE and ADVANCE, `CB_SET` only SET_READY_CALLBACK, the parameters and the
host's inputs nobody; the accessors and CRC8 nothing. -/
def Obligations.OnlyTheOwnersWrite : Prop :=
  ∀ (i : Instr) (s t : State), exec i s = .next t →
    t.params = s.params ∧ t.inputs = s.inputs ∧ t.ops = s.ops ∧
    (i ≠ .advance → t.recs = s.recs ∧ t.lastTime = s.lastTime ∧ t.handed = s.handed) ∧
    (i ≠ .advance → i ≠ .reinit → t.fsm = s.fsm ∧ t.countdown = s.countdown ∧ t.cursor = s.cursor) ∧
    (i ≠ .advance → (∀ f, i ≠ .discover f) → t.reg = s.reg ∧ t.regCount = s.regCount) ∧
    (i ≠ .advance → (∀ f, i ≠ .discover f) → (∀ f, i ≠ .searchRom f) →
      t.search = s.search ∧ t.inFlight = s.inFlight) ∧
    (i ≠ .advance → i ≠ .readTemperature → t.spBuf = s.spBuf) ∧
    (i ≠ .setReadyCallback → t.cbSet = s.cbSet ∧ t.callback = s.callback) ∧
    (i ∈ [.crc8, .getMin, .getMid, .getMax, .getAddresses, .setReadyCallback, .reinit] → t.line = s.line)

/-- Everything an instruction puts on the line is whole slots, CONVERT_BLOCKING adding its one wait: the history is only
appended to, a critical section is entered and left once in each read slot and nowhere else, and a line that was idle is
idle after (R15, R21, R22, R68, R152, R74). -/
def Obligations.TheLineSeesOnlyWholeSlots : Prop :=
  ∀ (i : Instr) (s t : State), exec i s = .next t →
    (∃ slots : List Slot, t.line.hist = s.line.hist ++ slotEvents s.params slots ++
      (if ∃ f, i = .convertBlocking f then [.release s.params.tConvBlock] else [])) ∧
    (s.line.idle → t.line.idle)

/-- An instruction is refused in two situations, which the spec names, and in no other (R284, R260, R115; D26, D33): a
DISCOVER in a cycle, and a WRITE_BYTES or CRC8 whose data is shorter than its count (the second: notes/assumptions/4). Data
longer than the count is not refused, and the surplus not read (notes/assumptions/4; WRITE_BYTES:
`WriteBytesSendsInIndexOrder`). -/
def Obligations.OnlyTheNamedRefusals : Prop :=
  (∀ (i : Instr) (s : State) (r : Refusal), exec i s = .refused r →
    (∃ f, i = .discover f) ∧ s.fsm ∉ [.init, .noSensor] ∧ r = .discoverMidCycle ∨
      (i = .writeBytes ∨ i = .crc8) ∧ s.ops.data.length < s.ops.n ∧ r = .dataShorterThanCount) ∧
  (∀ (s : State) (filter : Bool), s.fsm ∉ [.init, .noSensor] → exec (.discover filter) s = .refused .discoverMidCycle) ∧
  (∀ s : State, s.ops.data.length < s.ops.n →
    exec .writeBytes s = .refused .dataShorterThanCount ∧ exec .crc8 s = .refused .dataShorterThanCount) ∧
  ∀ s : State, s.ops.n ≤ s.ops.data.length →
    exec .crc8 s = .next { s with res := { byte := some (crc8 (s.ops.data.take s.ops.n)) }, ready := none }

/-- Whether an operation has a step never depends on what is attached to the line, only its result and its later events
do (R74). -/
def Obligations.TheBusNeverDecidesWhetherAStepExists : Prop :=
  ∀ (s : State) (b : Bus),
    (∃ t, step s = .next t) ↔ ∃ t, step { s with line := { s.line with bus := b } } = .next t

/-- Reset (R310, R20; values: D29): in the reset state, and after the reset event in any state, a search in flight included,
every element holds its reset value. The devices carry on (R312): those of an ideal bus are as they were, and an oracle answers
the next sample as it would have without the event, whatever the block does before it. That the event leaves the parameters and
the host's further inputs is notes/assumptions/5, that it may come while a search is in flight notes/assumptions/14. -/
def Obligations.ResetPutsEveryElementToItsValue : Prop :=
  State.reset.atReset ∧
  ∀ (s : State) (rest : List HostInput), s.inputs = .reset :: rest →
    ∃ t, step s = .next t ∧ t.atReset ∧ t.params = s.params ∧ t.inputs = rest ∧ t.inFlight = none ∧
      (∀ devices, s.line.bus = .ideal devices → t.line.bus = .ideal devices) ∧
      (∀ script choice past, s.line.bus = .oracle script choice past →
        t.line.bus = .oracle script choice (past ++ s.line.hist)) ∧
      ∀ (k : SlotKind) (h : List BusEvent),
        (t.line.bus.answer k (t.line.hist ++ h)).1 = (s.line.bus.answer k (s.line.hist ++ h)).1

/-- The reset state meets the invariants of R48, whatever the open parameters are. -/
def Obligations.ResetMeetsTheInvariant : Prop := ∀ (p : Params) (b : Bus), (State.resetWith p b).Inv

/-- Every step keeps the invariants of R48 (with the ranges of R24 to R26, R30, R40 and R44), whatever the bus answers. -/
def Obligations.EveryStepKeepsTheInvariant : Prop :=
  ∀ s t : State, s.Inv → step s = .next t → t.Inv
end

