-- ==== Sys2Proof/Laws/State.lean ====
section
/-! SUPPORT. One lemma per field per update of State, Line and Search, each true by rfl, so that no later proof unfolds a
record update. -/

namespace Sys2Proof.Machine

/-! ### withLine -/

@[simp] theorem State.withLine_params (l : Line) (s : State) : (s.withLine l).params = s.params := rfl
@[simp] theorem State.withLine_line (l : Line) (s : State) : (s.withLine l).line = l := rfl
@[simp] theorem State.withLine_search (l : Line) (s : State) : (s.withLine l).search = s.search := rfl
@[simp] theorem State.withLine_reg (l : Line) (s : State) : (s.withLine l).reg = s.reg := rfl
@[simp] theorem State.withLine_regCount (l : Line) (s : State) : (s.withLine l).regCount = s.regCount := rfl
@[simp] theorem State.withLine_recs (l : Line) (s : State) : (s.withLine l).recs = s.recs := rfl
@[simp] theorem State.withLine_fsm (l : Line) (s : State) : (s.withLine l).fsm = s.fsm := rfl
@[simp] theorem State.withLine_countdown (l : Line) (s : State) : (s.withLine l).countdown = s.countdown := rfl
@[simp] theorem State.withLine_cursor (l : Line) (s : State) : (s.withLine l).cursor = s.cursor := rfl
@[simp] theorem State.withLine_lastTime (l : Line) (s : State) : (s.withLine l).lastTime = s.lastTime := rfl
@[simp] theorem State.withLine_cbSet (l : Line) (s : State) : (s.withLine l).cbSet = s.cbSet := rfl
@[simp] theorem State.withLine_spBuf (l : Line) (s : State) : (s.withLine l).spBuf = s.spBuf := rfl
@[simp] theorem State.withLine_inFlight (l : Line) (s : State) : (s.withLine l).inFlight = s.inFlight := rfl
@[simp] theorem State.withLine_callback (l : Line) (s : State) : (s.withLine l).callback = s.callback := rfl
@[simp] theorem State.withLine_handed (l : Line) (s : State) : (s.withLine l).handed = s.handed := rfl
@[simp] theorem State.withLine_ops (l : Line) (s : State) : (s.withLine l).ops = s.ops := rfl
@[simp] theorem State.withLine_argCb (l : Line) (s : State) : (s.withLine l).argCb = s.argCb := rfl
@[simp] theorem State.withLine_inputs (l : Line) (s : State) : (s.withLine l).inputs = s.inputs := rfl
@[simp] theorem State.withLine_res (l : Line) (s : State) : (s.withLine l).res = s.res := rfl
@[simp] theorem State.withLine_ready (l : Line) (s : State) : (s.withLine l).ready = s.ready := rfl

/-! ### present -/

@[simp] theorem State.present_params (a : Answer) (s : State) : (s.present a).params = s.params := rfl
@[simp] theorem State.present_line (a : Answer) (s : State) : (s.present a).line = s.line := rfl
@[simp] theorem State.present_search (a : Answer) (s : State) : (s.present a).search = s.search := rfl
@[simp] theorem State.present_reg (a : Answer) (s : State) : (s.present a).reg = s.reg := rfl
@[simp] theorem State.present_regCount (a : Answer) (s : State) : (s.present a).regCount = s.regCount := rfl
@[simp] theorem State.present_recs (a : Answer) (s : State) : (s.present a).recs = s.recs := rfl
@[simp] theorem State.present_fsm (a : Answer) (s : State) : (s.present a).fsm = s.fsm := rfl
@[simp] theorem State.present_countdown (a : Answer) (s : State) : (s.present a).countdown = s.countdown := rfl
@[simp] theorem State.present_cursor (a : Answer) (s : State) : (s.present a).cursor = s.cursor := rfl
@[simp] theorem State.present_lastTime (a : Answer) (s : State) : (s.present a).lastTime = s.lastTime := rfl
@[simp] theorem State.present_cbSet (a : Answer) (s : State) : (s.present a).cbSet = s.cbSet := rfl
@[simp] theorem State.present_spBuf (a : Answer) (s : State) : (s.present a).spBuf = s.spBuf := rfl
@[simp] theorem State.present_inFlight (a : Answer) (s : State) : (s.present a).inFlight = s.inFlight := rfl
@[simp] theorem State.present_callback (a : Answer) (s : State) : (s.present a).callback = s.callback := rfl
@[simp] theorem State.present_handed (a : Answer) (s : State) : (s.present a).handed = s.handed := rfl
@[simp] theorem State.present_ops (a : Answer) (s : State) : (s.present a).ops = s.ops := rfl
@[simp] theorem State.present_argCb (a : Answer) (s : State) : (s.present a).argCb = s.argCb := rfl
@[simp] theorem State.present_inputs (a : Answer) (s : State) : (s.present a).inputs = s.inputs := rfl
@[simp] theorem State.present_res (a : Answer) (s : State) : (s.present a).res = a := rfl
@[simp] theorem State.present_ready (a : Answer) (s : State) : (s.present a).ready = none := rfl

/-! ### putCommand -/

@[simp] theorem State.putCommand_eq (c : Byte) (s : State) :
    s.putCommand c = (s.withLine (s.line.writeByte c)).present {} := rfl

/-! ### fireReady: entry of the ready event -/

@[simp] theorem State.fireReady_params (s : State) : (s.fireReady).params = s.params := rfl
@[simp] theorem State.fireReady_line (s : State) : (s.fireReady).line = s.line := rfl
@[simp] theorem State.fireReady_search (s : State) : (s.fireReady).search = s.search := rfl
@[simp] theorem State.fireReady_reg (s : State) : (s.fireReady).reg = s.reg := rfl
@[simp] theorem State.fireReady_regCount (s : State) : (s.fireReady).regCount = s.regCount := rfl
@[simp] theorem State.fireReady_recs (s : State) : (s.fireReady).recs = s.recs := rfl
@[simp] theorem State.fireReady_fsm (s : State) : (s.fireReady).fsm = s.fsm := rfl
@[simp] theorem State.fireReady_countdown (s : State) : (s.fireReady).countdown = s.countdown := rfl
@[simp] theorem State.fireReady_cursor (s : State) : (s.fireReady).cursor = s.cursor := rfl
@[simp] theorem State.fireReady_lastTime (s : State) : (s.fireReady).lastTime = s.lastTime := rfl
@[simp] theorem State.fireReady_cbSet (s : State) : (s.fireReady).cbSet = s.cbSet := rfl
@[simp] theorem State.fireReady_spBuf (s : State) : (s.fireReady).spBuf = s.spBuf := rfl
@[simp] theorem State.fireReady_inFlight (s : State) : (s.fireReady).inFlight = s.inFlight := rfl
@[simp] theorem State.fireReady_callback (s : State) : (s.fireReady).callback = s.callback := rfl
@[simp] theorem State.fireReady_handed (s : State) : (s.fireReady).handed = some s.regCount := rfl
@[simp] theorem State.fireReady_ops (s : State) : (s.fireReady).ops = s.ops := rfl
@[simp] theorem State.fireReady_argCb (s : State) : (s.fireReady).argCb = s.argCb := rfl
@[simp] theorem State.fireReady_inputs (s : State) : (s.fireReady).inputs = s.inputs := rfl
@[simp] theorem State.fireReady_res (s : State) : (s.fireReady).res = s.res := rfl

@[simp] theorem State.fireReady_ready (s : State) : s.fireReady.ready =
    some { records := s.recs.take s.regCount, count := s.regCount, answers := s.callback.map s.answerCall } := rfl

/-! ### afterReady: return from the ready event -/

@[simp] theorem State.afterReady_params (s : State) : (s.afterReady).params = s.params := rfl
@[simp] theorem State.afterReady_line (s : State) : (s.afterReady).line = s.line := rfl
@[simp] theorem State.afterReady_search (s : State) : (s.afterReady).search = s.search := rfl
@[simp] theorem State.afterReady_reg (s : State) : (s.afterReady).reg = s.reg := rfl
@[simp] theorem State.afterReady_regCount (s : State) : (s.afterReady).regCount = s.regCount := rfl
@[simp] theorem State.afterReady_recs (s : State) : (s.afterReady).recs = s.recs := rfl
@[simp] theorem State.afterReady_fsm (s : State) : (s.afterReady).fsm = .readWait := rfl
@[simp] theorem State.afterReady_countdown (s : State) : (s.afterReady).countdown = s.params.cycleDelayTicks := rfl
@[simp] theorem State.afterReady_cursor (s : State) : (s.afterReady).cursor = s.cursor := rfl
@[simp] theorem State.afterReady_lastTime (s : State) : (s.afterReady).lastTime = s.lastTime := rfl
@[simp] theorem State.afterReady_cbSet (s : State) : (s.afterReady).cbSet = s.cbSet := rfl
@[simp] theorem State.afterReady_spBuf (s : State) : (s.afterReady).spBuf = s.spBuf := rfl
@[simp] theorem State.afterReady_inFlight (s : State) : (s.afterReady).inFlight = s.inFlight := rfl
@[simp] theorem State.afterReady_callback (s : State) : (s.afterReady).callback = s.callback := rfl
@[simp] theorem State.afterReady_handed (s : State) : (s.afterReady).handed = s.handed := rfl
@[simp] theorem State.afterReady_ops (s : State) : (s.afterReady).ops = s.ops := rfl
@[simp] theorem State.afterReady_argCb (s : State) : (s.afterReady).argCb = s.argCb := rfl
@[simp] theorem State.afterReady_inputs (s : State) : (s.afterReady).inputs = s.inputs := rfl
@[simp] theorem State.afterReady_res (s : State) : (s.afterReady).res = s.res := rfl
@[simp] theorem State.afterReady_ready (s : State) : (s.afterReady).ready = s.ready := rfl

/-! ### replaceRegistry -/

@[simp] theorem State.replaceRegistry_params (f : Bool) (s : State) : (s.replaceRegistry f).params = s.params := rfl
@[simp] theorem State.replaceRegistry_line (f : Bool) (s : State) : (s.replaceRegistry f).line = s.line := rfl
@[simp] theorem State.replaceRegistry_search (f : Bool) (s : State) : (s.replaceRegistry f).search = s.search := rfl
@[simp] theorem State.replaceRegistry_reg (f : Bool) (s : State) : (s.replaceRegistry f).reg = retained s.params f s.search.out ++ List.replicate (s.params.nMax - (retained s.params f s.search.out).length) 0 := rfl
@[simp] theorem State.replaceRegistry_regCount (f : Bool) (s : State) : (s.replaceRegistry f).regCount = (retained s.params f s.search.out).length := rfl
@[simp] theorem State.replaceRegistry_recs (f : Bool) (s : State) : (s.replaceRegistry f).recs = s.recs := rfl
@[simp] theorem State.replaceRegistry_fsm (f : Bool) (s : State) : (s.replaceRegistry f).fsm = s.fsm := rfl
@[simp] theorem State.replaceRegistry_countdown (f : Bool) (s : State) : (s.replaceRegistry f).countdown = s.countdown := rfl
@[simp] theorem State.replaceRegistry_cursor (f : Bool) (s : State) : (s.replaceRegistry f).cursor = s.cursor := rfl
@[simp] theorem State.replaceRegistry_lastTime (f : Bool) (s : State) : (s.replaceRegistry f).lastTime = s.lastTime := rfl
@[simp] theorem State.replaceRegistry_cbSet (f : Bool) (s : State) : (s.replaceRegistry f).cbSet = s.cbSet := rfl
@[simp] theorem State.replaceRegistry_spBuf (f : Bool) (s : State) : (s.replaceRegistry f).spBuf = s.spBuf := rfl
@[simp] theorem State.replaceRegistry_inFlight (f : Bool) (s : State) : (s.replaceRegistry f).inFlight = s.inFlight := rfl
@[simp] theorem State.replaceRegistry_callback (f : Bool) (s : State) : (s.replaceRegistry f).callback = s.callback := rfl
@[simp] theorem State.replaceRegistry_handed (f : Bool) (s : State) : (s.replaceRegistry f).handed = s.handed := rfl
@[simp] theorem State.replaceRegistry_ops (f : Bool) (s : State) : (s.replaceRegistry f).ops = s.ops := rfl
@[simp] theorem State.replaceRegistry_argCb (f : Bool) (s : State) : (s.replaceRegistry f).argCb = s.argCb := rfl
@[simp] theorem State.replaceRegistry_inputs (f : Bool) (s : State) : (s.replaceRegistry f).inputs = s.inputs := rfl
@[simp] theorem State.replaceRegistry_res (f : Bool) (s : State) : (s.replaceRegistry f).res = s.res := rfl
@[simp] theorem State.replaceRegistry_ready (f : Bool) (s : State) : (s.replaceRegistry f).ready = s.ready := rfl

/-! ### resetEvent -/

@[simp] theorem State.resetEvent_params (s : State) : (s.resetEvent).params = s.params := rfl
@[simp] theorem State.resetEvent_line (s : State) : (s.resetEvent).line = .afterReset (s.line.bus.carryOn s.line.hist) := rfl
@[simp] theorem State.resetEvent_fsm (s : State) : (s.resetEvent).fsm = .init := rfl
@[simp] theorem State.resetEvent_countdown (s : State) : (s.resetEvent).countdown = 0 := rfl
@[simp] theorem State.resetEvent_cursor (s : State) : (s.resetEvent).cursor = 0 := rfl
@[simp] theorem State.resetEvent_lastTime (s : State) : (s.resetEvent).lastTime = 0 := rfl
@[simp] theorem State.resetEvent_cbSet (s : State) : (s.resetEvent).cbSet = false := rfl
@[simp] theorem State.resetEvent_regCount (s : State) : (s.resetEvent).regCount = 0 := rfl
@[simp] theorem State.resetEvent_handed (s : State) : (s.resetEvent).handed = none := rfl
@[simp] theorem State.resetEvent_inFlight (s : State) : (s.resetEvent).inFlight = none := rfl
@[simp] theorem State.resetEvent_inputs (s : State) : (s.resetEvent).inputs = s.inputs := rfl

/-! ### driveLow -/

@[simp] theorem Line.driveLow_lineDrive (t : Nat) (l : Line) : (l.driveLow t).lineDrive = true := rfl
@[simp] theorem Line.driveLow_crit (t : Nat) (l : Line) : (l.driveLow t).crit = l.crit := rfl
@[simp] theorem Line.driveLow_hist (t : Nat) (l : Line) : (l.driveLow t).hist = l.hist ++ [.driveLow t] := rfl
@[simp] theorem Line.driveLow_bus (t : Nat) (l : Line) : (l.driveLow t).bus = l.bus := rfl

/-! ### release -/

@[simp] theorem Line.release_lineDrive (t : Nat) (l : Line) : (l.release t).lineDrive = false := rfl
@[simp] theorem Line.release_crit (t : Nat) (l : Line) : (l.release t).crit = l.crit := rfl
@[simp] theorem Line.release_hist (t : Nat) (l : Line) : (l.release t).hist = l.hist ++ [.release t] := rfl
@[simp] theorem Line.release_bus (t : Nat) (l : Line) : (l.release t).bus = l.bus := rfl

/-! ### critEnter -/

@[simp] theorem Line.critEnter_lineDrive (l : Line) : (l.critEnter).lineDrive = l.lineDrive := rfl
@[simp] theorem Line.critEnter_crit (l : Line) : (l.critEnter).crit = true := rfl
@[simp] theorem Line.critEnter_hist (l : Line) : (l.critEnter).hist = l.hist ++ [.critEnter] := rfl
@[simp] theorem Line.critEnter_bus (l : Line) : (l.critEnter).bus = l.bus := rfl

/-! ### critExit -/

@[simp] theorem Line.critExit_lineDrive (l : Line) : (l.critExit).lineDrive = l.lineDrive := rfl
@[simp] theorem Line.critExit_crit (l : Line) : (l.critExit).crit = false := rfl
@[simp] theorem Line.critExit_hist (l : Line) : (l.critExit).hist = l.hist ++ [.critExit] := rfl
@[simp] theorem Line.critExit_bus (l : Line) : (l.critExit).bus = l.bus := rfl

/-! ### sample -/

@[simp] theorem Line.sample_lineDrive (k : SlotKind) (l : Line) : ((l.sample k).2).lineDrive = l.lineDrive := rfl
@[simp] theorem Line.sample_crit (k : SlotKind) (l : Line) : ((l.sample k).2).crit = l.crit := rfl
@[simp] theorem Line.sample_hist (k : SlotKind) (l : Line) : ((l.sample k).2).hist = l.hist ++ [.sample (l.sample k).1] := rfl
@[simp] theorem Line.sample_bus (k : SlotKind) (l : Line) : ((l.sample k).2).bus = (l.bus.answer k l.hist).2 := rfl

@[simp] theorem Line.sample_level (k : SlotKind) (l : Line) : (l.sample k).1 = (l.bus.answer k l.hist).1 := rfl

/-! ### startPass -/

@[simp] theorem Search.startPass_romBuf (q : Search) : (q.startPass).romBuf = q.romBuf := rfl
@[simp] theorem Search.startPass_pos (q : Search) : (q.startPass).pos = 1 := rfl
@[simp] theorem Search.startPass_lastDisc (q : Search) : (q.startPass).lastDisc = q.lastDisc := rfl
@[simp] theorem Search.startPass_candDisc (q : Search) : (q.startPass).candDisc = 0 := rfl
@[simp] theorem Search.startPass_fault (q : Search) : (q.startPass).fault = false := rfl
@[simp] theorem Search.startPass_out (q : Search) : (q.startPass).out = q.out := rfl

/-! ### startSearch -/

@[simp] theorem Search.startSearch_romBuf (q : Search) : (q.startSearch).romBuf = 0 := rfl
@[simp] theorem Search.startSearch_pos (q : Search) : (q.startSearch).pos = q.pos := rfl
@[simp] theorem Search.startSearch_lastDisc (q : Search) : (q.startSearch).lastDisc = 0 := rfl
@[simp] theorem Search.startSearch_candDisc (q : Search) : (q.startSearch).candDisc = q.candDisc := rfl
@[simp] theorem Search.startSearch_fault (q : Search) : (q.startSearch).fault = q.fault := rfl
@[simp] theorem Search.startSearch_out (q : Search) : (q.startSearch).out = [] := rfl

/-! ### endPass -/

@[simp] theorem Search.endPass_romBuf (n : Nat) (q : Search) : (q.endPass n).romBuf = q.romBuf := rfl
@[simp] theorem Search.endPass_pos (n : Nat) (q : Search) : (q.endPass n).pos = q.pos := rfl
@[simp] theorem Search.endPass_lastDisc (n : Nat) (q : Search) : (q.endPass n).lastDisc = q.candDisc := rfl
@[simp] theorem Search.endPass_candDisc (n : Nat) (q : Search) : (q.endPass n).candDisc = q.candDisc := rfl
@[simp] theorem Search.endPass_fault (n : Nat) (q : Search) : (q.endPass n).fault = false := rfl

/-! ### commit -/

@[simp] theorem Search.commit_romBuf (p : Nat) (x d : Bool) (q : Search) : (q.commit p x d).romBuf = setPosition q.romBuf p d := rfl
@[simp] theorem Search.commit_pos (p : Nat) (x d : Bool) (q : Search) : (q.commit p x d).pos = q.pos := rfl
@[simp] theorem Search.commit_lastDisc (p : Nat) (x d : Bool) (q : Search) : (q.commit p x d).lastDisc = q.lastDisc := rfl
@[simp] theorem Search.commit_candDisc (p : Nat) (x d : Bool) (q : Search) : (q.commit p x d).candDisc = (if x && !d then p else q.candDisc) := rfl
@[simp] theorem Search.commit_fault (p : Nat) (x d : Bool) (q : Search) : (q.commit p x d).fault = q.fault := rfl
@[simp] theorem Search.commit_out (p : Nat) (x d : Bool) (q : Search) : (q.commit p x d).out = q.out := rfl

end Sys2Proof.Machine
end

