-- ==== Sys2Proof/Laws/Line.lean ====
section
/-! SUPPORT. What the shared operations of the line can do, said once for each: the slots they put on the line, and that
they leave it released and out of the critical section. -/

namespace Sys2Proof.Machine

@[simp] theorem slotEvents_nil (p : Params) : slotEvents p [] = [] := rfl

@[simp] theorem slotEvents_cons (p : Params) (x : Slot) (xs : List Slot) :
    slotEvents p (x :: xs) = x.events p ++ slotEvents p xs := rfl

@[simp] theorem slotEvents_append (p : Params) (xs ys : List Slot) :
    slotEvents p (xs ++ ys) = slotEvents p xs ++ slotEvents p ys := List.flatMap_append

/-! ### Slots -/

/-- A reset slot: its four events, the line released, `CRIT` as it was (R90, R140). -/
theorem resetSlot_spec (p : Params) (l : Line) :
    (l.resetSlot p).2 =
      { lineDrive := false, crit := l.crit, hist := l.hist ++ slotEvents p [.rst (l.resetSlot p).1]
        bus := (l.bus.answer .resetSlot (l.hist ++ [.driveLow p.tRstl, .release 70])).2 } := by
  simp [Line.resetSlot, Line.sample, Line.release, Line.driveLow, Slot.events, Config.tPds, Config.tRsth]

/-- The level of a reset slot is the bus's answer to its one sample (R90, R140). -/
theorem resetSlot_level (p : Params) (l : Line) :
    (l.resetSlot p).1 = (l.bus.answer .resetSlot (l.hist ++ [.driveLow p.tRstl, .release 70])).1 := by
  simp [Line.resetSlot, Line.sample, Line.driveLow, Line.release, Config.tPds]

/-- A write slot: its two events, the line released, `CRIT` as it was (R91, R92, R150). -/
theorem writeSlot_spec (p : Params) (b : Bool) (l : Line) :
    l.writeSlot b =
      { lineDrive := false, crit := l.crit, hist := l.hist ++ slotEvents p [.w b], bus := l.bus.written b } := by
  cases b <;>
    simp [Line.writeSlot, Line.release, Line.driveLow, Slot.events, Config.tW1l, Config.tW1h, Config.tW0l, Config.tW0h]

/-- A read slot: its six events, the line released and out of the critical section (R93, R151, R152). -/
theorem readSlot_spec (p : Params) (l : Line) :
    l.readSlot.2 =
      { lineDrive := false, crit := false, hist := l.hist ++ slotEvents p [.rd l.readSlot.1]
        bus := (l.bus.answer .readSlot (l.hist ++ [.critEnter, .driveLow 6, .release 9])).2 } := by
  simp [Line.readSlot, Line.sample, Line.release, Line.driveLow, Line.critEnter, Line.critExit, Slot.events,
    Config.tRdl, Config.tRds, Config.tRdi]

/-- `Reset()` is the reset slot, its result the complement of the level (R140). -/
theorem presence_eq (p : Params) (l : Line) : l.presence p = (!(l.resetSlot p).1, (l.resetSlot p).2) := rfl

/-! ### What an operation of the line may do: whole slots, an idle line after an idle line -/

/-- `m` comes from `l` by whole slots: the history grows by their events, and an idle line is idle after them. -/
structure Line.Grows (p : Params) (l m : Line) (xs : List Slot) : Prop where
  hist : m.hist = l.hist ++ slotEvents p xs
  idle : l.idle → m.idle

theorem Line.Grows.refl (p : Params) (l : Line) : l.Grows p l [] := ⟨by simp, id⟩

theorem Line.Grows.trans {p : Params} {l m n : Line} {xs ys : List Slot} (h : l.Grows p m xs) (k : m.Grows p n ys) :
    l.Grows p n (xs ++ ys) :=
  ⟨by rw [k.hist, h.hist, slotEvents_append, List.append_assoc], fun i => k.idle (h.idle i)⟩

theorem resetSlot_grows (p : Params) (l : Line) : l.Grows p (l.resetSlot p).2 [.rst (l.resetSlot p).1] :=
  ⟨by rw [resetSlot_spec], fun i => by rw [resetSlot_spec]; exact ⟨rfl, i.2⟩⟩

theorem presence_grows (p : Params) (l : Line) : l.Grows p (l.presence p).2 [.rst (!(l.presence p).1)] := by
  simpa [presence_eq] using resetSlot_grows p l

theorem writeSlot_grows (p : Params) (b : Bool) (l : Line) : l.Grows p (l.writeSlot b) [.w b] :=
  ⟨by rw [writeSlot_spec p], fun i => by rw [writeSlot_spec p]; exact ⟨rfl, i.2⟩⟩

theorem readSlot_grows (p : Params) (l : Line) : l.Grows p l.readSlot.2 [.rd l.readSlot.1] :=
  ⟨by rw [readSlot_spec p], fun _ => by rw [readSlot_spec p]; exact ⟨rfl, rfl⟩⟩

theorem writeBits_grows (p : Params) (bits : List Bool) (l : Line) :
    l.Grows p (l.writeBits bits) (bits.map Slot.w) := by
  induction bits generalizing l with
  | nil => exact .refl p l
  | cons b rest ih => exact (writeSlot_grows p b l).trans (ih _)

theorem readBits_grows (p : Params) (n : Nat) (l : Line) :
    l.Grows p (l.readBits n).2 ((l.readBits n).1.map Slot.rd) := by
  induction n generalizing l with
  | zero => exact .refl p l
  | succ k ih => exact (readSlot_grows p l).trans (ih _)

theorem readBits_length (n : Nat) (l : Line) : (l.readBits n).1.length = n := by
  induction n generalizing l with
  | zero => rfl
  | succ k ih => simp [Line.readBits, ih]

theorem writeByte_grows (p : Params) (v : Byte) (l : Line) : l.Grows p (l.writeByte v) (writtenByte v) :=
  writeBits_grows p _ l

/-- Eight bits received make the byte whose bits they are (R94, R154). -/
theorem byteBits_byteOfBits {bits : List Bool} (h : bits.length = 8) : byteBits (byteOfBits bits) = bits := by
  match bits, h with
  | [b0, b1, b2, b3, b4, b5, b6, b7], _ => revert b0 b1 b2 b3 b4 b5 b6 b7; decide

theorem readByte_grows (p : Params) (l : Line) : l.Grows p l.readByte.2 (readByteSlots l.readByte.1) := by
  have h := readBits_grows p 8 l
  rwa [← byteBits_byteOfBits (readBits_length 8 l)] at h

theorem writeBytes_grows (p : Params) (data : List Byte) (l : Line) :
    l.Grows p (l.writeBytes data) (writtenBytes data) := by
  induction data generalizing l with
  | nil => exact .refl p l
  | cons v rest ih => exact (writeByte_grows p v l).trans (ih _)

theorem readBytes_grows (p : Params) (n : Nat) (l : Line) :
    l.Grows p (l.readBytes n).2 (readBytesSlots (l.readBytes n).1) := by
  induction n generalizing l with
  | zero => exact .refl p l
  | succ k ih => exact (readByte_grows p l).trans (ih _)

theorem readBytes_length (n : Nat) (l : Line) : (l.readBytes n).1.length = n := by
  induction n generalizing l with
  | zero => rfl
  | succ k ih => simp [Line.readBytes, ih]

theorem select_grows (p : Params) (target : Option Addr) (l : Line) :
    l.Grows p (l.select target) (selectionSlots target) := by
  cases target with
  | none => exact writeByte_grows p 0xCC l
  | some a => exact (writeByte_grows p 0x55 l).trans (writeBytes_grows p _ _)

/-- `StartConversion`: the reset slot, and with presence the selection and the command byte (R216). -/
theorem startConversion_grows (p : Params) (target : Option Addr) (l : Line) :
    l.Grows p (l.startConversion p target)
      (.rst (l.resetSlot p).1 ::
        if (l.resetSlot p).1 then [] else selectionSlots target ++ writtenByte 0x44) := by
  have h := resetSlot_grows p l
  cases hs : (l.resetSlot p).1
  · rw [hs] at h
    simpa [Line.startConversion, presence_eq, hs] using h.trans ((select_grows p target _).trans (writeByte_grows p 0x44 _))
  · rw [hs] at h
    simpa [Line.startConversion, presence_eq, hs] using h

/-- `ReadTemperature` without presence: the sentinel, `SP_BUF` kept, nothing more on the line (R219). -/
theorem readTemperature_absent {p : Params} {l : Line} (h : (l.resetSlot p).1 = true) (a : Addr) (sp : List Byte) :
    l.readTemperature p a sp = (p.tempSentinel, sp, (l.resetSlot p).2) := by
  simp [Line.readTemperature, presence_eq, h]

/-- `ReadTemperature` with presence: nine bytes into `SP_BUF`, the CRC check, the decode (R218, R220, R221). -/
theorem readTemperature_present {p : Params} {l : Line} (h : (l.resetSlot p).1 = false) (a : Addr) (sp : List Byte) :
    let q := (((l.resetSlot p).2.selectAddressed a).writeByte 0xBE).readBytes 9
    l.readTemperature p a sp =
      (if scratchpadCrcOk q.1 then decodeTemperature p a q.1 else p.tempSentinel, q.1, q.2) := by
  simp [Line.readTemperature, presence_eq, h]

/-- Everything `ReadTemperature` puts on the line is whole slots (R97). -/
theorem readTemperature_grows (p : Params) (a : Addr) (sp : List Byte) (l : Line) :
    ∃ xs, l.Grows p (l.readTemperature p a sp).2.2 xs := by
  have h := resetSlot_grows p l
  cases hs : (l.resetSlot p).1 with
  | true => rw [readTemperature_absent hs]; exact ⟨_, h⟩
  | false =>
    rw [readTemperature_present hs]
    exact ⟨_, ((h.trans (select_grows p (some a) _)).trans (writeByte_grows p 0xBE _)).trans (readBytes_grows p 9 _)⟩

/-- `SP_BUF` stays nine bytes (R44). -/
theorem readTemperature_spBuf (p : Params) (a : Addr) (sp : List Byte) (l : Line) (h : sp.length = 9) :
    (l.readTemperature p a sp).2.1.length = 9 := by
  cases hs : (l.resetSlot p).1 with
  | true => rw [readTemperature_absent hs]; exact h
  | false => rw [readTemperature_present hs]; exact readBytes_length 9 _

/-! ### The line after bits and bytes, in full -/

theorem writeBits_spec (p : Params) (bits : List Bool) (l : Line) :
    l.writeBits bits =
      { lineDrive := if bits = [] then l.lineDrive else false, crit := l.crit
        hist := l.hist ++ slotEvents p (bits.map Slot.w), bus := bits.foldl (fun b x => b.written x) l.bus } := by
  induction bits generalizing l with
  | nil => simp [Line.writeBits]
  | cons b rest ih =>
    rw [Line.writeBits, ih, writeSlot_spec p]
    simp

theorem writeByte_spec (p : Params) (v : Byte) (l : Line) :
    l.writeByte v =
      { lineDrive := false, crit := l.crit, hist := l.hist ++ slotEvents p (writtenByte v)
        bus := (byteBits v).foldl (fun b x => b.written x) l.bus } := by
  rw [Line.writeByte, writeBits_spec p, if_neg (by simp [byteBits]), writtenByte]

theorem writeBytes_spec (p : Params) (data : List Byte) (l : Line) :
    l.writeBytes data =
      { lineDrive := if data = [] then l.lineDrive else false, crit := l.crit
        hist := l.hist ++ slotEvents p (writtenBytes data)
        bus := (data.flatMap byteBits).foldl (fun b x => b.written x) l.bus } := by
  induction data generalizing l with
  | nil => simp [Line.writeBytes, writtenBytes]
  | cons v rest ih =>
    rw [Line.writeBytes, ih, writeByte_spec p]
    simp [writtenBytes]

theorem writeBytes_append (xs ys : List Byte) (l : Line) : l.writeBytes (xs ++ ys) = (l.writeBytes xs).writeBytes ys := by
  induction xs generalizing l with
  | nil => rfl
  | cons v rest ih => exact ih _

/-- The bytes that select a target (R213, R214). -/
def selectionBytes (target : Option Addr) : List Byte :=
  match target with
  | none => [0xCC]
  | some a => 0x55 :: addrBytes a

/-- A selection and a function command are one row of bytes written (R213, R214, R216). -/
theorem select_command (target : Option Addr) (c : Byte) (l : Line) :
    (l.select target).writeByte c = l.writeBytes (selectionBytes target ++ [c]) := by
  rw [writeBytes_append]
  cases target <;> rfl

/-- `StartConversion` in full: the reset slot, and with presence the bytes of its frame (R216). -/
theorem startConversion_spec (p : Params) (target : Option Addr) (l : Line) :
    let a := l.bus.answer .resetSlot (l.hist ++ [.driveLow p.tRstl, .release 70])
    let sent := if a.1 then [] else selectionBytes target ++ [0x44]
    l.startConversion p target =
      { lineDrive := false, crit := l.crit
        hist := l.hist ++ slotEvents p (.rst a.1 :: sent.flatMap writtenByte)
        bus := (sent.flatMap byteBits).foldl (fun b x => b.written x) a.2 } := by
  intro a sent
  have hv := resetSlot_level p l
  cases hs : a.1
  · have e : sent = selectionBytes target ++ [0x44] := if_neg (by simp [hs])
    have hn : (l.resetSlot p).1 = false := hv.trans hs
    simp only [Line.startConversion, presence_eq, hn, Bool.not_false, if_true, select_command]
    rw [e, writeBytes_spec p, resetSlot_spec, hn]
    simp [writtenBytes, slotEvents, a]
  · have e : sent = [] := if_pos hs
    have hn : (l.resetSlot p).1 = true := hv.trans hs
    simp only [Line.startConversion, presence_eq, hn, Bool.not_true, Bool.false_eq_true, if_false]
    rw [e, resetSlot_spec, hn]
    simp [a]

theorem readBits_idle (n : Nat) (l : Line) : (l.readBits (n + 1)).2.idle := by
  induction n generalizing l with
  | zero => simp [Line.readBits, readSlot_spec default]
  | succ k ih => exact ih _

theorem readByte_idle (l : Line) : l.readByte.2.idle := readBits_idle 7 l

theorem readBytes_idle (n : Nat) (l : Line) : (l.readBytes (n + 1)).2.idle := by
  induction n generalizing l with
  | zero => exact readByte_idle l
  | succ k ih => exact ih _

theorem Line.eq_of_idle {l : Line} (h : l.idle) : l = { lineDrive := false, crit := false, hist := l.hist, bus := l.bus } := by
  cases l; cases h.1; cases h.2; rfl

/-! ### The operands of WRITE_BYTES and CRC8 -/

@[simp] theorem operandsWf_writeBytes (o : Operands) : operandsWf .writeBytes o = decide (o.n ≤ o.data.length) := rfl

@[simp] theorem operandsWf_crc8 (o : Operands) : operandsWf .crc8 o = decide (o.n ≤ o.data.length) := rfl

theorem execWriteBytes_ok {s : State} (h : s.ops.n ≤ s.ops.data.length) :
    execWriteBytes s = .next ((s.withLine (s.line.writeBytes (dataBytes s.ops))).present {}) := if_pos (by simpa using h)

theorem execWriteBytes_short {s : State} (h : s.ops.data.length < s.ops.n) :
    execWriteBytes s = .refused .dataShorterThanCount := if_neg (by simpa using h)

theorem execCrc8_ok {s : State} (h : s.ops.n ≤ s.ops.data.length) :
    execCrc8 s = .next (s.present (crcAnswer s.ops)) := if_pos (by simpa using h)

theorem execCrc8_short {s : State} (h : s.ops.data.length < s.ops.n) :
    execCrc8 s = .refused .dataShorterThanCount := if_neg (by simpa using h)

end Sys2Proof.Machine
end

