-- ==== Sys2Proof/Laws/Operands.lean ====
section
/-! SUPPORT. What the operand forms and the checks can do, said once for each: search positions (R63, R188), CRC-8 (R170),
the decode of a temperature (R221 to R223), and the queries over temperatures (R254 to R257). -/

namespace Sys2Proof.Machine

/-! ### Search positions -/

/-- Search position `p` is bit `p - 1` of the address (R63). -/
theorem positionBit_eq (a : Addr) (p : Nat) : positionBit a p = a.getLsbD (p - 1) := by
  have hm : (p - 1) % 8 < 8 := Nat.mod_lt _ (by decide)
  simp only [positionBit, addrByte, BitVec.getLsbD_extractLsb', hm, decide_true, Bool.true_and]
  congr 1
  omega

/-- Storing a direction changes the bit of its own position and no other (R188). -/
theorem positionBit_setPosition (a : Addr) {p k : Nat} (d : Bool) (hp : 1 ≤ p ∧ p ≤ 64) (hk : 1 ≤ k ∧ k ≤ 64) :
    positionBit (setPosition a p d) k = if k = p then d else positionBit a k := by
  rw [positionBit_eq, positionBit_eq]
  have hk' : k - 1 < 64 := by omega
  by_cases e : k = p
  · subst e
    cases d <;> simp [setPosition, hk']
  · have hne : ¬(k - 1 < p - 1) → ¬(k - 1 - (p - 1) = 0) := by omega
    by_cases g : k - 1 < p - 1
    · cases d <;> simp [setPosition, e, g, hk']
    · cases d <;> simp [setPosition, e, hne g, hk']

/-! ### CRC-8 -/

/-- One bit step is linear in the register and the data bit together (R170). -/
theorem crcBit_xor (c d : Byte) (b e : Bool) : crcBit (c ^^^ d) (b ^^ e) = crcBit c b ^^^ crcBit d e := by
  unfold crcBit
  rw [BitVec.getLsbD_xor, BitVec.ushiftRight_xor_distrib]
  generalize c >>> 1 = x
  generalize d >>> 1 = y
  generalize (0x8C : Byte) = m
  cases c.getLsbD 0 <;> cases d.getLsbD 0 <;> cases b <;> cases e <;> simp [BitVec.xor_assoc, BitVec.xor_comm y m]

/-- One byte of the CRC is linear in the register and the data byte together (R170). -/
theorem crcByte_xor (c d v w : Byte) : crcByte (c ^^^ d) (v ^^^ w) = crcByte c v ^^^ crcByte d w := by
  simp only [crcByte, byteBits, List.foldl_cons, List.foldl_nil, BitVec.getLsbD_xor, crcBit_xor]

/-! ### The decode -/

/-- A value in 32 signed bits is kept exactly (R37, R223). -/
theorem tempOfInt_toInt {x : Int} (h : -2147483648 ≤ x) (k : x < 2147483648) : (tempOfInt x).toInt = x := by
  rw [tempOfInt, BitVec.toInt_ofInt, Int.bmod_def]
  split <;> omega

/-- The raw temperature is a signed 16-bit number (R64). -/
theorem rawTemperature_range (sp : List Byte) : -32768 ≤ rawTemperature sp ∧ rawTemperature sp ≤ 32767 := by
  have h1 := BitVec.le_toInt (sp.getD 1 0 ++ sp.getD 0 0 : BitVec 16)
  have h2 := BitVec.toInt_lt (x := (sp.getD 1 0 ++ sp.getD 0 0 : BitVec 16))
  norm_num only at h1 h2
  exact ⟨h1, Int.lt_add_one_iff.1 h2⟩

theorem decodeTemperature_familyA {p : Params} {a : Addr} (h : familyCode a ∈ p.familyA) (sp : List Byte) :
    decodeTemperature p a sp = tempOfInt (tdiv (rawTemperature sp * 100) 2) := if_pos (by simpa using h)

theorem decodeTemperature_familyB {p : Params} {a : Addr} (h : familyCode a ∉ p.familyA) (k : familyCode a ∈ p.familyB)
    (sp : List Byte) : decodeTemperature p a sp = tempOfInt (tdiv (rawTemperature sp * 100) 16) := by
  rw [decodeTemperature, if_neg (by simpa using h), if_pos (by simpa using k)]

theorem decodeTemperature_unknown {p : Params} {a : Addr} (h : familyCode a ∉ p.familyA) (k : familyCode a ∉ p.familyB)
    (sp : List Byte) : decodeTemperature p a sp = p.tempSentinel := by
  rw [decodeTemperature, if_neg (by simpa using h), if_neg (by simpa using k)]

/-! ### The queries -/

theorem mem_validTemps (recs : List Record) (t : Temp) :
    t ∈ validTemps recs ↔ ∃ r ∈ recs, r.valid = true ∧ r.temp = t := by
  simp [validTemps, and_assoc]

/-- Folding with the lesser of two gives a member, and no member is below it (R255). -/
theorem foldl_lesserTemp (v : List Temp) (t : Temp) :
    v.foldl lesserTemp t ∈ t :: v ∧ ∀ x ∈ t :: v, (v.foldl lesserTemp t).toInt ≤ x.toInt := by
  induction v generalizing t with
  | nil => simp
  | cons a v ih =>
    have hl : (lesserTemp t a = t ∨ lesserTemp t a = a) ∧ (lesserTemp t a).toInt ≤ t.toInt ∧
        (lesserTemp t a).toInt ≤ a.toInt := by
      unfold lesserTemp; split <;> simp <;> omega
    obtain ⟨h1, h2⟩ := ih (lesserTemp t a)
    have h3 := h2 _ List.mem_cons_self
    rw [List.foldl_cons]
    refine ⟨?_, fun x hx => ?_⟩
    · rcases List.mem_cons.1 h1 with h | h
      · rw [h]; rcases hl.1 with g | g <;> simp [g]
      · simp [h]
    · rcases List.mem_cons.1 hx with rfl | hx
      · exact h3.trans hl.2.1
      · rcases List.mem_cons.1 hx with rfl | hx
        · exact h3.trans hl.2.2
        · exact h2 x (List.mem_cons_of_mem _ hx)

/-- Folding with the greater of two gives a member, and no member is above it (R257). -/
theorem foldl_greaterTemp (v : List Temp) (t : Temp) :
    v.foldl greaterTemp t ∈ t :: v ∧ ∀ x ∈ t :: v, x.toInt ≤ (v.foldl greaterTemp t).toInt := by
  induction v generalizing t with
  | nil => simp
  | cons a v ih =>
    have hl : (greaterTemp t a = t ∨ greaterTemp t a = a) ∧ t.toInt ≤ (greaterTemp t a).toInt ∧
        a.toInt ≤ (greaterTemp t a).toInt := by
      unfold greaterTemp; split <;> simp <;> omega
    obtain ⟨h1, h2⟩ := ih (greaterTemp t a)
    have h3 := h2 _ List.mem_cons_self
    rw [List.foldl_cons]
    refine ⟨?_, fun x hx => ?_⟩
    · rcases List.mem_cons.1 h1 with h | h
      · rw [h]; rcases hl.1 with g | g <;> simp [g]
      · simp [h]
    · rcases List.mem_cons.1 hx with rfl | hx
      · exact hl.2.1.trans h3
      · rcases List.mem_cons.1 hx with rfl | hx
        · exact hl.2.2.trans h3
        · exact h2 x (List.mem_cons_of_mem _ hx)

/-- The exact sum of temperatures is within 32 signed bits times their number (R256, D23). -/
theorem tempSum_range (v : List Temp) :
    -2147483648 * (v.length : Int) ≤ tempSum v ∧ tempSum v ≤ 2147483647 * (v.length : Int) := by
  have hs : tempSum v = (v.map (fun t => t.toInt)).sum := by rw [tempSum, List.sum_eq_foldl]
  rw [hs]
  induction v with
  | nil => simp
  | cons a v ih =>
    have h1 := BitVec.le_toInt a
    have h2 := BitVec.toInt_lt (x := a)
    norm_num at h1 h2
    have := ih (by rw [tempSum, List.sum_eq_foldl])
    simp only [List.map_cons, List.sum_cons, List.length_cons, Nat.cast_add, Nat.cast_one]
    omega

end Sys2Proof.Machine
end

