-- ==== Sys2Proof/Laws/Bus.lean ====
section
/-! SUPPORT. What the bus does over a reset of the block (R312), and the ideal bus with a whole byte or address written to it (R75):
one lemma per phase of a device. -/

namespace Sys2Proof.Machine

/-- Over a reset of the block the devices carry on: the next answer is the one there would have been without it (R312). -/
theorem carryOn_answer (b : Bus) (k : SlotKind) (past h : List BusEvent) :
    ((b.carryOn past).answer k h).1 = (b.answer k (past ++ h)).1 := by
  rcases b with ⟨_ | ⟨_, _⟩, _, _⟩ | _
  · simp only [Bus.carryOn, Bus.answer, List.append_assoc]
  · rfl
  · cases k <;> rfl

/-- Bits written to an ideal bus reach each device on its own. -/
theorem written_ideal (bits : List Bool) (devices : List Device) :
    bits.foldl (fun b x => Bus.written x b) (Bus.ideal devices) =
      Bus.ideal (devices.map (fun d => bits.foldl (fun d x => Device.hearBit x d) d)) := by
  induction bits generalizing devices with
  | nil => simp
  | cons x rest ih =>
    have hx : Bus.written x (Bus.ideal devices) = Bus.ideal (devices.map (Device.hearBit x)) := rfl
    rw [List.foldl_cons, hx, ih, List.map_map]
    rfl

/-- The byte a device has collected from the eight bits of a byte is that byte (R61, R94). -/
theorem collected_byte (c : Byte) :
    ((byteBits c).zipIdx.foldl (fun v x => v ||| (BitVec.ofBool x.1).zeroExtend 8 <<< x.2) (0 : Byte)) = c := by
  revert c
  decide +kernel

/-- A device waiting for a ROM command acts on the byte written (R75). -/
theorem hear_romCommand (c : Byte) (d : Device) (h : d.phase = .romCommand 0 0) :
    (byteBits c).foldl (fun d x => Device.hearBit x d) d = d.romCommand c := by
  obtain ⟨a, sp, al, cv, ph⟩ := d
  cases h
  have hc := collected_byte c
  simp only [byteBits, List.zipIdx_cons, List.zipIdx_nil, List.foldl_cons, List.foldl_nil] at hc
  simp only [byteBits, List.foldl_cons, List.foldl_nil, Device.hearBit]
  simp only [Nat.reduceAdd, Nat.reduceLT, if_true, if_false, Nat.lt_irrefl] at hc ⊢
  rw [hc]
  rfl

/-- A selected device acts on the function command written (R75). -/
theorem hear_functionCommand (c : Byte) (d : Device) (h : d.phase = .functionCommand 0 0) :
    (byteBits c).foldl (fun d x => Device.hearBit x d) d = d.functionCommand c := by
  obtain ⟨a, sp, al, cv, ph⟩ := d
  cases h
  have hc := collected_byte c
  simp only [byteBits, List.zipIdx_cons, List.zipIdx_nil, List.foldl_cons, List.foldl_nil] at hc
  simp only [byteBits, List.foldl_cons, List.foldl_nil, Device.hearBit]
  simp only [Nat.reduceAdd, Nat.reduceLT, if_true, if_false, Nat.lt_irrefl] at hc ⊢
  rw [hc]
  rfl

/-- A device out of the frame stays out whatever is written (R75). -/
theorem hear_idle (bits : List Bool) (d : Device) (h : d.phase = .idle) :
    bits.foldl (fun d x => Device.hearBit x d) d = d := by
  induction bits with
  | nil => rfl
  | cons x rest ih =>
    have hx : d.hearBit x = d := by simp only [Device.hearBit, h]
    rw [List.foldl_cons, hx, ih]

/-- The 64 bits of an address in the order they go on the line are its search positions in order (R62, R63). -/
theorem addrBits_eq (a : Addr) :
    (addrBytes a).flatMap byteBits = (List.range 64).map (fun k => positionBit a (k + 1)) := rfl

/-- A device comparing an address: it goes on while the bits written are its own, and is selected after the last (R75). -/
theorem hear_matching_step (n k : Nat) (hn : n + k = 64) (hk : k < 64) (a : Addr) (d : Device) (h : d.phase = .matching k) :
    ((List.range n).map (fun i => positionBit a (k + i + 1))).foldl (fun d x => Device.hearBit x d) d =
      { d with phase :=
          if ∀ i < n, positionBit d.addr (k + i + 1) = positionBit a (k + i + 1) then .functionCommand 0 0 else .idle } := by
  induction n generalizing k d with
  | zero => omega
  | succ m ih =>
    rw [List.range_succ_eq_map, List.map_cons, List.foldl_cons, List.map_map]
    by_cases hb : positionBit d.addr (k + 1) = positionBit a (k + 1)
    · by_cases hk' : k < 63
      · have hd : d.hearBit (positionBit a (k + 0 + 1)) = { d with phase := .matching (k + 1) } := by
          simp only [Device.hearBit, h, Nat.add_zero, hb, if_true, hk']
        rw [hd]
        have := ih (k + 1) (by omega) (by omega) { d with phase := .matching (k + 1) } rfl
        have hm : ∀ i, k + 1 + i + 1 = k + (i + 1) + 1 := by omega
        simp only [hm] at this
        simp only [Function.comp_def, Nat.succ_eq_add_one]
        rw [this]
        congr 1
        have : (∀ i < m, positionBit d.addr (k + (i + 1) + 1) = positionBit a (k + (i + 1) + 1)) ↔
            ∀ i < m + 1, positionBit d.addr (k + i + 1) = positionBit a (k + i + 1) := by
          constructor
          · intro g i hi
            rcases i with _ | i
            · exact hb
            · exact g i (by omega)
          · exact fun g i hi => g (i + 1) (by omega)
        simp only [this]
      · have hm : m = 0 := by omega
        subst hm
        have hd : d.hearBit (positionBit a (k + 0 + 1)) = { d with phase := .functionCommand 0 0 } := by
          simp only [Device.hearBit, h, Nat.add_zero, hb, if_true, hk', if_false]
        simp [hd, hb]
    · have hd : d.hearBit (positionBit a (k + 0 + 1)) = { d with phase := .idle } := by
        simp only [Device.hearBit, h, Nat.add_zero, hb, if_false]
      rw [hd, hear_idle _ _ rfl, if_neg (fun g => hb (g 0 (by omega)))]

/-- After Match-ROM a device is selected if the address written is its own, and out of the frame otherwise (R75, R213). -/
theorem hear_matching (a : Addr) (d : Device) (h : d.phase = .matching 0) :
    ((addrBytes a).flatMap byteBits).foldl (fun d x => Device.hearBit x d) d =
      { d with phase := if d.addr = a then .functionCommand 0 0 else .idle } := by
  have := hear_matching_step 64 0 rfl (by omega) a d h
  simp only [Nat.zero_add] at this
  rw [addrBits_eq, this]
  have e : (∀ i < 64, positionBit d.addr (i + 1) = positionBit a (i + 1)) ↔ d.addr = a := by
    constructor
    · intro g
      apply BitVec.eq_of_getLsbD_eq
      intro i hi
      simpa [positionBit_eq] using g i hi
    · rintro rfl _ _
      rfl
  simp only [e]

/-- A device sending its scratchpad, in a read slot (R75). -/
theorem level_sending (d : Device) (k : Nat) (h : d.phase = .sending k) :
    d.level = (d.scratchpad.getD (k / 8) 0xFF).getLsbD (k % 8) ∧ d.afterRead = { d with phase := .sending (k + 1) } := by
  simp only [Device.level, Device.afterRead, h, and_self]

/-- A device out of the frame leaves the line alone in a read slot (R75). -/
theorem level_idle (d : Device) (h : d.phase = .idle) : d.level = true ∧ d.afterRead = d := by
  simp only [Device.level, Device.afterRead, h, and_self]

end Sys2Proof.Machine
end

