-- ==== Sys2Proof/Laws/Decode.lean ====
section
/-! SUPPORT. The words of the two ports: no word is an instruction on both, and a word is read on the port `portOf` names. -/

namespace Sys2Proof

/-- Every instruction's word is read on its own port. -/
theorem decodeAt_encode (i : Instr) : decodeAt (encodePort i) (encodeWord i) = some i := by
  cases i with
  | writeBit f | searchRom f | discover f | startConversion f | convertBlocking f => cases f <;> decide
  | _ => decide

/-- No legal operation word is a command byte. -/
theorem ports_disjoint : ∀ w : Byte, decodeOpw w = none ∨ decodeLineCommand w = none := by decide +kernel

/-- The port of an instruction's word. -/
theorem portOf_encode (i : Instr) : portOf (encodeWord i) = encodePort i := by
  cases i with
  | writeBit f | searchRom f | discover f | startConversion f | convertBlocking f => cases f <;> decide
  | _ => decide

end Sys2Proof
end

