-- ==== Sys2Proof/Laws/PerInstr.lean ====
section
/-! SUPPORT. The family RoundTrip of LAWS.json: the decoder reads an instruction back from its bytes, whatever bytes
follow. One lemma per constructor of Instr. -/

namespace Sys2Proof.Laws.RoundTrip

/-- The decoder reads `i` from its bytes and leaves the bytes after them. -/
def Statement (i : Instr) : Prop := ∀ rest : List Byte, decode (encode i ++ rest) = some (i, rest)

theorem reset : Statement .reset := fun _ => rfl
theorem writeBit (f : Bool) : Statement (.writeBit f) := by
  cases f <;> exact fun _ => rfl
theorem readBit : Statement .readBit := fun _ => rfl
theorem writeByte : Statement .writeByte := fun _ => rfl
theorem readByte : Statement .readByte := fun _ => rfl
theorem writeBytes : Statement .writeBytes := fun _ => rfl
theorem readBytes : Statement .readBytes := fun _ => rfl
theorem crc8 : Statement .crc8 := fun _ => rfl
theorem searchRom (f : Bool) : Statement (.searchRom f) := by
  cases f <;> exact fun _ => rfl
theorem discover (f : Bool) : Statement (.discover f) := by
  cases f <;> exact fun _ => rfl
theorem selectAddressed : Statement .selectAddressed := fun _ => rfl
theorem selectAll : Statement .selectAll := fun _ => rfl
theorem startConversion (f : Bool) : Statement (.startConversion f) := by
  cases f <;> exact fun _ => rfl
theorem readTemperature : Statement .readTemperature := fun _ => rfl
theorem convertBlocking (f : Bool) : Statement (.convertBlocking f) := by
  cases f <;> exact fun _ => rfl
theorem advance : Statement .advance := fun _ => rfl
theorem setReadyCallback : Statement .setReadyCallback := fun _ => rfl
theorem getMin : Statement .getMin := fun _ => rfl
theorem getMid : Statement .getMid := fun _ => rfl
theorem getMax : Statement .getMax := fun _ => rfl
theorem getAddresses : Statement .getAddresses := fun _ => rfl
theorem reinit : Statement .reinit := fun _ => rfl
theorem searchRomCmd : Statement .searchRomCmd := fun _ => rfl
theorem readRomCmd : Statement .readRomCmd := fun _ => rfl
theorem matchRomCmd : Statement .matchRomCmd := fun _ => rfl
theorem skipRomCmd : Statement .skipRomCmd := fun _ => rfl
theorem alarmSearchCmd : Statement .alarmSearchCmd := fun _ => rfl
theorem convertTCmd : Statement .convertTCmd := fun _ => rfl
theorem writeScratchpadCmd : Statement .writeScratchpadCmd := fun _ => rfl
theorem readScratchpadCmd : Statement .readScratchpadCmd := fun _ => rfl
theorem copyScratchpadCmd : Statement .copyScratchpadCmd := fun _ => rfl
theorem recallE2Cmd : Statement .recallE2Cmd := fun _ => rfl
theorem readPowerSupplyCmd : Statement .readPowerSupplyCmd := fun _ => rfl

end Sys2Proof.Laws.RoundTrip
end

