-- ==== Sys2Proof/Laws/Search.lean ====
section
/-! SUPPORT. What the search engine can do: one lemma per part of a pass, and the induction over passes packaged once
(`searchLoop_induct`). -/

namespace Sys2Proof.Machine

/-! ### One position -/

/-- Both lines high: the pass is aborted after the two read slots (R185). -/
theorem searchPosition_fault {p : Nat} {q : Search} {l : Line} (hb : l.readSlot.1 = true)
    (hc : l.readSlot.2.readSlot.1 = true) :
    searchPosition p q l = (true, { q with pos := p, fault := true }, l.readSlot.2.readSlot.2) := by
  simp [searchPosition, hb, hc]

/-- Otherwise a direction is taken, recorded and stored (R184, R186 to R188). -/
theorem searchPosition_go {p : Nat} {q : Search} {l : Line}
    (h : ¬(l.readSlot.1 = true ∧ l.readSlot.2.readSlot.1 = true)) :
    searchPosition p q l =
      let d := if l.readSlot.1 != l.readSlot.2.readSlot.1 then l.readSlot.1 else q.direction p
      (false, { q.commit p (l.readSlot.1 == l.readSlot.2.readSlot.1) d with pos := p },
        l.readSlot.2.readSlot.2.writeSlot d) := by
  have h' : (l.readSlot.1 && l.readSlot.2.readSlot.1) = false := by simpa using h
  simp [searchPosition, h']

/-- A position leaves the marker, the output and the ranges alone, and puts whole slots on the line. -/
theorem searchPosition_keeps (p : Nat) (hp : 1 ≤ p ∧ p ≤ 64) (q : Search) (l : Line) (c : Params) :
    let r := searchPosition p q l
    r.2.1.pos = p ∧ r.2.1.lastDisc = q.lastDisc ∧ r.2.1.out = q.out ∧
      (q.candDisc ≤ 64 → r.2.1.candDisc ≤ 64) ∧ ∃ xs, l.Grows c r.2.2 xs := by
  have h1 := readSlot_grows c l
  have h2 := readSlot_grows c l.readSlot.2
  by_cases h : l.readSlot.1 = true ∧ l.readSlot.2.readSlot.1 = true
  · rw [searchPosition_fault h.1 h.2]
    exact ⟨rfl, rfl, rfl, id, _, h1.trans h2⟩
  · rw [searchPosition_go h]
    refine ⟨rfl, rfl, rfl, fun hc => ?_, _, (h1.trans h2).trans (writeSlot_grows c _ _)⟩
    have key : ∀ x : Bool, (if x = true then p else q.candDisc) ≤ 64 := by
      intro x; cases x
      · exact hc
      · exact hp.2
    exact key _

/-! ### One pass -/

/-- A walk leaves the marker, the output and the ranges alone, and puts whole slots on the line. -/
theorem searchWalk_keeps (c : Params) (n p : Nat) (hp : 1 ≤ p) (hn : p + n ≤ 65) (q : Search) (l : Line)
    (hq : 1 ≤ q.pos ∧ q.pos ≤ 64) :
    let r := searchWalk n p q l
    (1 ≤ r.1.pos ∧ r.1.pos ≤ 64) ∧ r.1.lastDisc = q.lastDisc ∧ r.1.out = q.out ∧
      (q.candDisc ≤ 64 → r.1.candDisc ≤ 64) ∧ ∃ xs, l.Grows c r.2 xs := by
  induction n generalizing p q l with
  | zero => exact ⟨hq, rfl, rfl, id, _, .refl c l⟩
  | succ k ih =>
    have h := searchPosition_keeps p ⟨hp, by omega⟩ q l c
    obtain ⟨hpos, hlast, hout, hcand, xs, hxs⟩ := h
    have hpos' : 1 ≤ (searchPosition p q l).2.1.pos ∧ (searchPosition p q l).2.1.pos ≤ 64 := by omega
    simp only [searchWalk]
    split
    · exact ⟨hpos', hlast, hout, hcand, xs, hxs⟩
    · obtain ⟨hi, il, io, ic, ys, hys⟩ := ih (p + 1) (by omega) (by omega) (searchPosition p q l).2.1
        (searchPosition p q l).2.2 hpos'
      exact ⟨hi, il.trans hlast, io.trans hout, fun hc => ic (hcand hc), _, hxs.trans hys⟩

/-- What a walk does from position `p` on, position by position: `steps` holds bit, complement and direction of each position
that was walked, and a walk cut short ends with both lines high (R181, R184 to R188). -/
structure WalkTrace (c : Params) (n p : Nat) (q : Search) (l : Line) (steps : List (Bool × Bool × Bool)) (r : Search × Line) :
    Prop where
  length : steps.length ≤ n
  notBoth : ∀ x ∈ steps, ¬(x.1 = true ∧ x.2.1 = true)
  line : r.2 = l.playSlots c (steps.flatMap positionSlots ++ if steps.length < n then [.rd true, .rd true] else [])
  hist : r.2.hist =
    l.hist ++ slotEvents c (steps.flatMap positionSlots ++ if steps.length < n then [.rd true, .rd true] else [])
  direction : ∀ i x, steps[i]? = some x →
    x.2.2 = (if x.1 = x.2.1 then
      (if p + i < q.lastDisc then positionBit q.romBuf (p + i) else decide (p + i = q.lastDisc)) else x.1) ∧
    positionBit r.1.romBuf (p + i) = x.2.2
  elsewhere : ∀ k, 1 ≤ k → k ≤ 64 → k < p ∨ p + steps.length ≤ k → positionBit r.1.romBuf k = positionBit q.romBuf k
  pos : r.1.pos = if steps.length < n then p + steps.length else if n = 0 then q.pos else p + n - 1
  fault : r.1.fault = (q.fault || decide (steps.length < n))
  candDisc : r.1.candDisc = q.candDisc ∧ (false, false, false) ∉ steps ∨
    ∃ i, r.1.candDisc = p + i ∧ steps[i]? = some (false, false, false) ∧
      ∀ j, i < j → steps[j]? ≠ some (false, false, false)

theorem searchWalk_trace (c : Params) {n p : Nat} (hp : 1 ≤ p) (hn : p + n = 65) (q : Search) (l : Line) :
    ∃ steps, WalkTrace c n p q l steps (searchWalk n p q l) := by
  induction n generalizing p q l with
  | zero =>
    exact ⟨[], Nat.le_refl _, by simp, rfl, by simp [searchWalk], by simp, fun _ _ _ _ => rfl, rfl, by simp [searchWalk],
      .inl ⟨rfl, by simp⟩⟩
  | succ n ih =>
    by_cases h : l.readSlot.1 = true ∧ l.readSlot.2.readSlot.1 = true
    · have e : searchWalk (n + 1) p q l = ({ q with pos := p, fault := true }, l.readSlot.2.readSlot.2) := by
        simp only [searchWalk, searchPosition_fault h.1 h.2, if_true]
      rw [e]
      refine ⟨[], Nat.zero_le _, by simp, rfl, ?_, by simp, fun _ _ _ _ => rfl, rfl, by simp, .inl ⟨rfl, by simp⟩⟩
      simpa [h.1, h.2] using ((readSlot_grows c l).trans (readSlot_grows c l.readSlot.2)).hist
    · have e := searchPosition_go (p := p) (q := q) h
      generalize hb : l.readSlot.1 = b at *
      generalize hk : l.readSlot.2.readSlot.1 = k at *
      generalize hd : (if b != k then b else q.direction p) = d at *
      have hdir : d = if b = k then (if p < q.lastDisc then positionBit q.romBuf p else decide (p = q.lastDisc)) else b := by
        rw [← hd]
        cases b <;> cases k <;> simp [Search.direction] <;> rfl
      obtain ⟨steps, t⟩ := ih (p := p + 1) (by omega) (by omega) { q.commit p (b == k) d with pos := p }
        (l.readSlot.2.readSlot.2.writeSlot d)
      have e' : searchWalk (n + 1) p q l = searchWalk n (p + 1) { q.commit p (b == k) d with pos := p }
          (l.readSlot.2.readSlot.2.writeSlot d) := by
        simp only [searchWalk, e, Bool.false_eq_true, if_false]
      have hget : ∀ j, 1 ≤ j → j ≤ 64 →
          positionBit (q.commit p (b == k) d).romBuf j = if j = p then d else positionBit q.romBuf j :=
        fun j u v => positionBit_setPosition _ _ ⟨hp, by omega⟩ ⟨u, v⟩
      rw [e']
      generalize searchWalk n (p + 1) { q.commit p (b == k) d with pos := p } (l.readSlot.2.readSlot.2.writeSlot d) = r at *
      have hl := t.length
      have hlen : ((b, k, d) :: steps).length < n + 1 ↔ steps.length < n := by simp
      have hite : ∀ α (u v : α), (if ((b, k, d) :: steps).length < n + 1 then u else v) = if steps.length < n then u else v :=
        fun α u v => by simp only [hlen]
      refine ⟨(b, k, d) :: steps, by simpa using hl, ?_, ?_, ?_, ?_, ?_, ?_, ?_, ?_⟩
      · intro x hx
        rcases List.mem_cons.1 hx with rfl | hx
        · exact h
        · exact t.notBoth x hx
      · rw [hite, t.line]
        rfl
      · have g := (((readSlot_grows c l).trans (readSlot_grows c l.readSlot.2)).trans
          (writeSlot_grows c d l.readSlot.2.readSlot.2)).hist
        rw [hite, t.hist, g, hb, hk]
        simp [positionSlots]
      · intro i x hx
        cases i with
        | zero =>
          simp only [List.getElem?_cons_zero, Option.some.injEq] at hx
          subst hx
          refine ⟨hdir, ?_⟩
          rw [Nat.add_zero, t.elsewhere p hp (by omega) (by omega)]
          exact (hget p hp (by omega)).trans (if_pos rfl)
        | succ i =>
          simp only [List.getElem?_cons_succ] at hx
          have hi : i < steps.length := (List.getElem?_eq_some_iff.1 hx).1
          have ht := t.direction i x hx
          simp only [show p + 1 + i = p + (i + 1) by omega] at ht
          rw [(hget (p + (i + 1)) (by omega) (by omega)).trans (if_neg (by omega))] at ht
          exact ht
      · intro j u v w
        simp only [List.length_cons] at w
        rw [t.elsewhere j u v (by omega)]
        exact (hget j u v).trans (if_neg (by omega))
      · rw [hite, t.pos, List.length_cons]
        split
        · omega
        · by_cases hz : n = 0
          · rw [if_pos hz, if_neg (by omega), hz]
            rfl
          · rw [if_neg hz, if_neg (by omega)]
            omega
      · rw [t.fault]
        simp
      · rcases t.candDisc with ⟨u, w⟩ | ⟨i, u, w, z⟩
        · by_cases hf : (b, k, d) = (false, false, false)
          · refine .inr ⟨0, ?_, by rw [List.getElem?_cons_zero, hf], fun j hj hx => ?_⟩
            · simp only [Prod.mk.injEq] at hf
              rw [u, hf.1, hf.2.1, hf.2.2]
              rfl
            · cases j with
              | zero => omega
              | succ j => exact w (List.mem_of_getElem? hx)
          · refine .inl ⟨?_, ?_⟩
            · rw [u]
              revert hf h
              cases b <;> cases k <;> cases d <;> simp
            · simp only [List.mem_cons, not_or]
              exact ⟨fun x => hf x.symm, w⟩
        · refine .inr ⟨i + 1, by rw [u]; omega, by simpa using w, fun j hj => ?_⟩
          cases j with
          | zero => omega
          | succ j => simpa using z j (by omega)

/-- The end of a pass emits at most one address, checked, and within the capacity (R190, R191). -/
theorem Search.endPass_out (n : Nat) (q : Search) :
    (q.endPass n).out = q.out ∨
      (q.endPass n).out = q.out ++ [q.romBuf] ∧ q.fault = false ∧ addrCrcOk q.romBuf = true ∧ q.out.length < n := by
  by_cases h : (!q.fault && addrCrcOk q.romBuf && decide (q.out.length < n)) = true
  · right
    simp only [Search.endPass, h, if_true]
    simpa [and_assoc] using h
  · left
    simp [Search.endPass, h]

/-- A pass keeps the search registers in range, the output within the capacity, and puts whole slots on the line. -/
theorem searchPass_keeps (c : Params) (n : Nat) (f : Bool) (q : Search) (l : Line) (hq : q.inRange)
    (ho : q.out.length ≤ n) :
    let r := searchPass n f q l
    r.1.inRange ∧ r.1.out.length ≤ n ∧ ∃ xs, l.Grows c r.2 xs := by
  obtain ⟨_, _, _, _, _, hcrc⟩ := hq
  obtain ⟨wp, wl, wo, wc, xs, hxs⟩ := searchWalk_keeps c 64 1 (by omega) (by omega) q.startPass
    (l.writeByte (searchCommand f)) (by simp)
  have hc : (searchWalk 64 1 q.startPass (l.writeByte (searchCommand f))).1.candDisc ≤ 64 := wc (by simp)
  rw [Search.startPass_out] at wo
  refine ⟨⟨wp.1, wp.2, hc, hc, rfl, ?_⟩, ?_, _, (writeByte_grows c _ l).trans hxs⟩
  · intro a ha
    rcases Search.endPass_out n (searchWalk 64 1 q.startPass (l.writeByte (searchCommand f))).1 with h | ⟨h, _, hk, _⟩
    all_goals simp only [searchPass, h, wo] at ha
    · exact hcrc a ha
    · rcases List.mem_append.1 ha with ha | ha
      · exact hcrc a ha
      · rw [List.mem_singleton.1 ha]; exact hk
  · rcases Search.endPass_out n (searchWalk 64 1 q.startPass (l.writeByte (searchCommand f))).1 with h | ⟨h, _, _, hl⟩
    all_goals simp only [searchPass, h, wo]
    · exact ho
    · rw [wo] at hl; simpa using hl

/-! ### Passes -/

/-- What holds of the registers and the line, and is kept by a reset slot and by a pass, holds after the loop. -/
theorem searchLoop_induct (P : Search → Line → Prop) (p : Params) (n : Nat) (f : Bool)
    (hreset : ∀ q l, P q l → P q (l.presence p).2)
    (hpass : ∀ q l, P q l → P (searchPass n f q l).1 (searchPass n f q l).2)
    (budget : Nat) (q : Search) (l : Line) (h : P q l) :
    P (searchLoop budget p n f q l).2.1 (searchLoop budget p n f q l).2.2 := by
  induction budget generalizing q l with
  | zero => exact h
  | succ k ih =>
    simp only [searchLoop]
    split
    · split
      · exact hpass _ _ (hreset _ _ h)
      · exact ih _ _ (hpass _ _ (hreset _ _ h))
    · exact hreset _ _ h

/-- A search keeps its registers in range, its output within the capacity, and puts whole slots on the line. -/
theorem searchLoop_keeps (p : Params) (n : Nat) (f : Bool) (budget : Nat) (q : Search) (l : Line) (hq : q.inRange)
    (ho : q.out.length ≤ n) :
    let r := searchLoop budget p n f q l
    r.2.1.inRange ∧ r.2.1.out.length ≤ n ∧ ∃ xs, l.Grows p r.2.2 xs := by
  refine searchLoop_induct (fun q' l' => q'.inRange ∧ q'.out.length ≤ n ∧ ∃ xs, l.Grows p l' xs) p n f
    ?_ ?_ budget q l ⟨hq, ho, _, .refl p l⟩
  · rintro q' l' ⟨h1, h2, xs, h3⟩
    exact ⟨h1, h2, _, h3.trans (presence_grows p l')⟩
  · rintro q' l' ⟨h1, h2, xs, h3⟩
    obtain ⟨k1, k2, ys, k3⟩ := searchPass_keeps p n f q' l' h1 h2
    exact ⟨k1, k2, _, h3.trans k3⟩

/-- A pass puts whole slots on the line, from any registers. -/
theorem searchPass_grows (c : Params) (n : Nat) (f : Bool) (q : Search) (l : Line) :
    ∃ xs, l.Grows c (searchPass n f q l).2 xs := by
  obtain ⟨_, _, _, _, xs, hxs⟩ := searchWalk_keeps c 64 1 (by omega) (by omega) q.startPass
    (l.writeByte (searchCommand f)) (by simp)
  exact ⟨_, (writeByte_grows c _ l).trans hxs⟩

/-- A search puts whole slots on the line, from any registers. -/
theorem searchLoop_grows (p : Params) (n : Nat) (f : Bool) (budget : Nat) (q : Search) (l : Line) :
    ∃ xs, l.Grows p (searchLoop budget p n f q l).2.2 xs := by
  refine searchLoop_induct (fun _ l' => ∃ xs, l.Grows p l' xs) p n f ?_ ?_ budget q l ⟨_, .refl p l⟩
  · rintro _ l' ⟨xs, h⟩
    exact ⟨_, h.trans (presence_grows p l')⟩
  · rintro q' l' ⟨xs, h⟩
    obtain ⟨ys, k⟩ := searchPass_grows p n f q' l'
    exact ⟨_, h.trans k⟩

/-- A search of `a + b` passes is one of `a` passes and, unless that has ended, one of `b` passes from where it stands: so
the steps of a search in flight make up one search (R195). -/
theorem searchLoop_add (a b : Nat) (p : Params) (n : Nat) (f : Bool) (q : Search) (l : Line) :
    searchLoop (a + b) p n f q l =
      let r := searchLoop a p n f q l
      if r.1 then r else searchLoop b p n f r.2.1 r.2.2 := by
  induction a generalizing q l with
  | zero => simp [searchLoop]
  | succ k ih =>
    rw [Nat.add_right_comm]
    simp only [searchLoop]
    split
    · split
      · rfl
      · exact ih _ _
    · rfl

/-- The search ends at once when the reset slot shows no presence (R183). -/
theorem searchLoop_absent {p : Params} {l : Line} (h : (l.resetSlot p).1 = true) (k n : Nat) (f : Bool) (q : Search) :
    searchLoop (k + 1) p n f q l = (true, q, (l.resetSlot p).2) := by
  simp [searchLoop, presence_eq, h]

/-- The start of a search is in range and has emitted nothing (R180). -/
theorem Search.startSearch_inRange {q : Search} (h : q.inRange) : q.startSearch.inRange := by
  obtain ⟨a, b, _, d, e, _⟩ := h
  exact ⟨a, b, Nat.zero_le _, d, e, by simp⟩

/-! ### At the state -/

/-- A search at the state: it has ended and what follows it has happened, or it is in flight (R195). -/
theorem continueSearch_cases (f : InFlight) (s : State) :
    let r := searchLoop Config.passBudget s.params f.capacity f.alarmOnly s.search s.line
    (r.1 = true ∧ s.continueSearch f = State.finishSearch f.next
        { s with search := r.2.1, line := r.2.2, inFlight := none }) ∨
      (r.1 = false ∧ s.continueSearch f = State.present {}
        { s with search := r.2.1, line := r.2.2, inFlight := some f }) := by
  intro r
  cases h : r.1
  · exact .inr ⟨rfl, by simp only [State.continueSearch]; rw [if_neg (by simpa [r] using h)]⟩
  · exact .inl ⟨rfl, by simp only [State.continueSearch]; rw [if_pos (by simpa [r] using h)]⟩

/-- What follows a search keeps the parameters, the line and the search registers. -/
theorem finishSearch_keeps (a : AfterSearch) (s : State) :
    (s.finishSearch a).params = s.params ∧ (s.finishSearch a).line = s.line ∧ (s.finishSearch a).search = s.search ∧
      (s.finishSearch a).inFlight = s.inFlight ∧ (s.finishSearch a).inputs = s.inputs ∧
      (s.finishSearch a).ready = none ∧ (s.finishSearch a).spBuf = s.spBuf ∧ (s.finishSearch a).cursor = s.cursor ∧
      (s.finishSearch a).countdown = s.countdown ∧ (s.finishSearch a).lastTime = s.lastTime ∧
      (s.finishSearch a).cbSet = s.cbSet ∧ (s.finishSearch a).handed = s.handed := by
  cases a <;> exact ⟨rfl, rfl, rfl, rfl, rfl, rfl, rfl, rfl, rfl, rfl, rfl, rfl⟩

end Sys2Proof.Machine
end

