-- ==== Sys2Proof/Laws/Scheduler.lean ====
section
/-! SUPPORT. What discovery and the scheduler can do: the registry after a discovery (R210), and one lemma per kind of tick
(R244 to R250). -/

namespace Sys2Proof.Machine

/-! ### Discovery -/

/-- A discovery retains a subset of what was emitted (R210, R211). -/
theorem retained_sublist (p : Params) (f : Bool) (found : List Addr) : (retained p f found).Sublist found := by
  cases f
  · exact List.Sublist.refl _
  · exact List.filter_sublist

/-- The registry after a discovery: the retained addresses, then zeros, in `N_MAX` places (R30, R210). -/
theorem replaceRegistry_spec (f : Bool) (s : State) (h : s.search.out.length ≤ s.params.nMax) :
    (s.replaceRegistry f).reg.length = s.params.nMax ∧ (s.replaceRegistry f).regCount ≤ s.params.nMax ∧
      (s.replaceRegistry f).reg.take (s.replaceRegistry f).regCount = retained s.params f s.search.out ∧
      ∀ a ∈ (s.replaceRegistry f).reg.drop (s.replaceRegistry f).regCount, a = 0 := by
  have hl := (retained_sublist s.params f s.search.out).length_le.trans h
  refine ⟨?_, hl, List.take_left, ?_⟩
  · simp only [State.replaceRegistry, List.length_append, List.length_replicate]
    omega
  · simp only [State.replaceRegistry, List.drop_left]
    exact fun a ha => List.eq_of_mem_replicate ha

/-- The emitted addresses of a search, from its start: within the capacity, each checked (R190, R191). -/
theorem searchLoop_out (p : Params) (n : Nat) (f : Bool) (budget : Nat) (q : Search) (l : Line)
    (h : q.out.length ≤ n) (hc : ∀ a ∈ q.out, addrCrcOk a = true) :
    (searchLoop budget p n f q l).2.1.out.length ≤ n ∧
      ∀ a ∈ (searchLoop budget p n f q l).2.1.out, addrCrcOk a = true := by
  refine searchLoop_induct (fun q _ => q.out.length ≤ n ∧ ∀ a ∈ q.out, addrCrcOk a = true) p n f
    (fun _ _ h => h) ?_ budget q l ⟨h, hc⟩
  rintro q l ⟨h, hc⟩
  have wo := (searchWalk_keeps default 64 1 (by omega) (by omega) q.startPass (l.writeByte (searchCommand f))
    (by simp)).2.2.1
  rw [Search.startPass_out] at wo
  simp only [searchPass]
  rcases Search.endPass_out n (searchWalk 64 1 q.startPass (l.writeByte (searchCommand f))).1 with k | ⟨k, _, k2, k3⟩
  · rw [k, wo]
    exact ⟨h, hc⟩
  · rw [wo] at k k3
    rw [k]
    refine ⟨by simpa using k3, fun a ha => ?_⟩
    rcases List.mem_append.1 ha with ha | ha
    · exact hc a ha
    · rw [List.mem_singleton.1 ha]
      exact k2

/-! ### Ticks -/

/-- An effective ADVANCE stores the time and runs one tick (R240, R241). -/
theorem execAdvance_effective {s : State} (h : tickEffective s.params s.lastTime s.ops.time = true) :
    execAdvance s = .next ({ s with lastTime := s.ops.time }.present {}).tick := by
  simp [execAdvance, State.advance, h]

/-- Any other ADVANCE does nothing (R241). -/
theorem execAdvance_early {s : State} (h : tickEffective s.params s.lastTime s.ops.time = false) :
    execAdvance s = .next (s.present {}) := by
  simp [execAdvance, State.advance, h]

theorem tick_init {s : State} (h : s.fsm = .init) : s.tick = s.initTick := by simp only [State.tick, h]
theorem tick_convert {s : State} (h : s.fsm = .convert) : s.tick = s.convertTick := by simp only [State.tick, h]
theorem tick_convertWait {s : State} (h : s.fsm = .convertWait) : s.tick = s.convertWaitTick := by
  simp only [State.tick, h]
theorem tick_read {s : State} (h : s.fsm = .read) : s.tick = s.readTick := by simp only [State.tick, h]
theorem tick_readWait {s : State} (h : s.fsm = .readWait) : s.tick = s.readWaitTick := by simp only [State.tick, h]
theorem tick_noSensor {s : State} (h : s.fsm = .noSensor) : s.tick = s := by simp only [State.tick, h]

/-- The guarded decrement, as a number (R246, R248). -/
theorem countDown_toNat (c : Ticks) : (countDown c).toNat = c.toNat - 1 := by
  have := c.isLt
  unfold countDown
  split
  · rw [BitVec.toNat_sub]
    simp
    omega
  · omega

/-- It reaches zero from 1 or 0 (R246, R248). -/
theorem countDown_eq_zero (c : Ticks) : countDown c = 0 ↔ c.toNat ≤ 1 := by
  rw [← BitVec.toNat_inj, countDown_toNat]
  simp
  omega

/-- The read of one device whose address and record are there (R247). -/
theorem readDevice_eq {s : State} {a : Addr} {r : Record} (ha : s.reg[s.cursor]? = some a)
    (hr : s.recs[s.cursor]? = some r) :
    let x := s.line.readTemperature s.params a s.spBuf
    s.readDevice = { s with
      line := x.2.2, spBuf := x.2.1, cursor := s.cursor + 1
      recs := s.recs.set s.cursor (Record.update s.params x.1 r) } := by
  have e : s.reg.getD s.cursor 0 = a := by simp [List.getD, ha]
  simp only [State.readDevice, e, List.modify_eq_set_getElem?, hr]
  rfl

end Sys2Proof.Machine
end

