-- ==== Sys2Proof/Laws/Step.lean ====
section
/-! SUPPORT. Everything a step can do, said once: if it answers a next state, which of its five forms it was. -/

namespace Sys2Proof.Machine

/-- The five forms of a step that answers a next state: the reset event, a search in flight going on, an idle block, a
rewired line, and the instruction of the host's next input. -/
theorem step_next_cases {s t : State} (h : step s = .next t) :
    (∃ rest, s.inputs = .reset :: rest ∧ t = { s with inputs := rest }.resetEvent) ∨
    (∃ f, s.inFlight = some f ∧ (∀ rest, s.inputs ≠ .reset :: rest) ∧ t = s.continueSearch f) ∨
    (s.inFlight = none ∧ s.inputs = [] ∧ t = s) ∨
    (∃ b rest, s.inFlight = none ∧ s.inputs = .rewire b :: rest ∧
      t = { s with inputs := rest }.withLine { s.line with bus := b }) ∨
    (∃ p w ops cb rest i, s.inFlight = none ∧ s.inputs = .call p w ops cb :: rest ∧ decodeAt p w = some i ∧
      exec i { s with inputs := rest, ops := ops, argCb := cb } = .next t) := by
  rcases hf : s.inFlight with _ | f
  · rcases hi : s.inputs with _ | ⟨_ | b | _, rest⟩ <;> simp only [step, hf, hi] at h
    · cases h
      exact .inr (.inr (.inl ⟨rfl, rfl, rfl⟩))
    · rename_i p w ops cb
      split at h
      · cases h
      · exact .inr (.inr (.inr (.inr ⟨p, w, ops, cb, rest, _, rfl, rfl, by assumption, h⟩)))
    · cases h
      exact .inr (.inr (.inr (.inl ⟨b, rest, rfl, rfl, rfl⟩)))
    · cases h
      exact .inl ⟨rest, rfl, rfl⟩
  · rcases hi : s.inputs with _ | ⟨_ | b | _, rest⟩ <;> simp only [step, hf, hi] at h <;> cases h
    · exact .inr (.inl ⟨f, rfl, by simp, rfl⟩)
    · exact .inr (.inl ⟨f, rfl, by simp, rfl⟩)
    · exact .inr (.inl ⟨f, rfl, by simp, rfl⟩)
    · exact .inl ⟨rest, rfl, rfl⟩

/-- A search in flight goes on, unless the reset event comes first (R115, R195, R310). -/
theorem step_inFlight {s : State} {f : InFlight} (h : s.inFlight = some f) (hr : ∀ rest, s.inputs ≠ .reset :: rest) :
    step s = .next (s.continueSearch f) := by
  rcases hi : s.inputs with _ | ⟨_ | _ | _, rest⟩
  case cons.reset => exact absurd hi (hr rest)
  all_goals simp only [step, h, hi]

/-- A run goes on from the next state. -/
theorem run_of_next {s t : State} (h : step s = .next t) (k : Nat) :
    Sys2Proof.core.run (k + 1) s = Sys2Proof.core.run k t := by
  have h' : Sys2Proof.core.step s = .next t := h
  simp only [Host.Core.run, h']

/-- One call of ADVANCE, off a queue of such calls (R240). -/
theorem step_advanceCalls {s : State} {now : Time} {times : List Time} {rest : List HostInput} (hf : s.inFlight = none)
    (hi : s.inputs = advanceCalls (now :: times) ++ rest) :
    step s = .next (State.advance
      { s with inputs := advanceCalls times ++ rest, ops := { time := now }, argCb := none }) := by
  simp only [advanceCalls, List.map_cons, List.cons_append] at hi
  simp only [step, hf, hi]
  rfl

end Sys2Proof.Machine
end

