-- ==== Sys2Proof/Laws/StuckLow.lean ====
section
/-! SUPPORT. A search on a line that answers every sample with 0 (R195, R327): each pass takes the next leaf of the tree of
2^64, so a search does not end before the 2^64th pass. -/

namespace Sys2Proof.Machine

/-! ### The place of an address among the leaves, from a position on -/

/-- The bits of positions `p`, `p + 1`, ..., `n` of them, as a number, position `p` first (R194). -/
def leafFrom (a : Addr) (n p : Nat) : Nat :=
  match n with
  | 0 => 0
  | k + 1 => (positionBit a p).toNat * 2 ^ k + leafFrom a k (p + 1)

theorem leafFrom_congr {a b : Addr} (n p : Nat) (h : ∀ j, p ≤ j → j < p + n → positionBit a j = positionBit b j) :
    leafFrom a n p = leafFrom b n p := by
  induction n generalizing p with
  | zero => rfl
  | succ k ih =>
    simp only [leafFrom]
    rw [h p (by omega) (by omega), ih (p + 1) fun j h1 h2 => h j (by omega) (by omega)]

/-- Only the leaf of all ones has the last place. -/
theorem leafFrom_ones {a : Addr} (n p : Nat) (h : ∀ j, p ≤ j → j < p + n → positionBit a j = true) :
    leafFrom a n p + 1 = 2 ^ n := by
  induction n generalizing p with
  | zero => rfl
  | succ k ih =>
    have := ih (p + 1) fun j h1 h2 => h j (by omega) (by omega)
    simp only [leafFrom, h p (by omega) (by omega), Bool.toNat_true, Nat.pow_succ]
    omega

/-! ### The line stuck low -/

/-- The next `k` samples of the line are 0. -/
def Line.low (k : Nat) (l : Line) : Prop :=
  ∃ rest choice past, l.bus = .oracle (List.replicate k false ++ rest) choice past

theorem Line.low.writeSlot {k : Nat} {l : Line} (h : l.low k) (b : Bool) : (l.writeSlot b).low k := by
  obtain ⟨rest, c, past, h⟩ := h
  exact ⟨rest, c, past, by rw [writeSlot_spec default, h]; rfl⟩

theorem Line.low.writeBits {k : Nat} {l : Line} (h : l.low k) (bits : List Bool) : (l.writeBits bits).low k := by
  induction bits generalizing l with
  | nil => exact h
  | cons b rest ih => exact ih (h.writeSlot b)

theorem Line.low.readSlot {k : Nat} {l : Line} (h : l.low (k + 1)) : l.readSlot.1 = false ∧ l.readSlot.2.low k := by
  obtain ⟨rest, c, past, h⟩ := h
  simp only [List.replicate_succ, List.cons_append] at h
  refine ⟨by simp [Line.readSlot, Line.sample, Line.release, Line.driveLow, Line.critEnter, h, Bus.answer], rest, c, past, ?_⟩
  rw [readSlot_spec default, h]
  rfl

theorem Line.low.presence {k : Nat} {l : Line} (h : l.low (k + 1)) (p : Params) :
    (l.presence p).1 = true ∧ (l.presence p).2.low k := by
  obtain ⟨rest, c, past, h⟩ := h
  simp only [List.replicate_succ, List.cons_append] at h
  refine ⟨by simp [presence_eq, Line.resetSlot, Line.sample, Line.release, Line.driveLow, h, Bus.answer], rest, c, past, ?_⟩
  rw [presence_eq, resetSlot_spec, h]
  rfl

/-! ### One pass on it -/

/-- The marker is the last position with a 0: the leaf has a next one. -/
structure Search.AtMarker (q : Search) : Prop where
  range : 1 ≤ q.lastDisc ∧ q.lastDisc ≤ 64
  zero : positionBit q.romBuf q.lastDisc = false
  ones : ∀ j, q.lastDisc < j → j ≤ 64 → positionBit q.romBuf j = true

/-- One position: both samples 0, so a discrepancy (R186 to R188). -/
theorem searchPosition_low {p k : Nat} {l : Line} (h : l.low (k + 2)) (q : Search) :
    (searchPosition p q l).1 = false ∧
      (searchPosition p q l).2.1 = { q.commit p true (q.direction p) with pos := p } ∧ (searchPosition p q l).2.2.low k := by
  obtain ⟨hb, h⟩ := h.readSlot
  obtain ⟨hc, h⟩ := h.readSlot
  rw [searchPosition_go (by simp [hb]), hb, hc]
  exact ⟨rfl, rfl, h.writeSlot _⟩

/-- A walk from position `p` on: the bits before `p` stay; past the marker the bits become 0, up to the marker the leaf
moves on by one; and the candidate is the last position with a 0, if there is one. -/
theorem searchWalk_low {n p k : Nat} (hp : 1 ≤ p) (hn : p + n = 65) {q : Search} {l : Line} (h : l.low (2 * n + k)) :
    let r := searchWalk n p q l
    r.2.low k ∧ r.1.lastDisc = q.lastDisc ∧
      (∀ j, 1 ≤ j → j < p → positionBit r.1.romBuf j = positionBit q.romBuf j) ∧
      (q.lastDisc < p → leafFrom r.1.romBuf n p = 0) ∧
      (p ≤ q.lastDisc → q.AtMarker → leafFrom r.1.romBuf n p = leafFrom q.romBuf n p + 1) ∧
      ((r.1.candDisc = q.candDisc ∧ ∀ j, p ≤ j → j ≤ 64 → positionBit r.1.romBuf j = true) ∨
        (p ≤ r.1.candDisc ∧ r.1.candDisc ≤ 64 ∧ positionBit r.1.romBuf r.1.candDisc = false ∧
          ∀ j, r.1.candDisc < j → j ≤ 64 → positionBit r.1.romBuf j = true)) := by
  induction n generalizing p q l with
  | zero =>
    refine ⟨by simpa [searchWalk] using h, rfl, fun _ _ _ => rfl, fun _ => rfl, ?_, .inl ⟨rfl, fun j _ _ => by omega⟩⟩
    intro hq m
    have := m.range
    omega
  | succ n ih =>
    obtain ⟨h1, h2, h3⟩ := searchPosition_low (p := p) (k := 2 * n + k)
      (by rwa [show 2 * n + k + 2 = 2 * (n + 1) + k by omega]) q
    have hget : ∀ j, 1 ≤ j → j ≤ 64 → positionBit (searchPosition p q l).2.1.romBuf j =
        if j = p then q.direction p else positionBit q.romBuf j := fun j a b => by
      rw [h2]; exact positionBit_setPosition _ _ ⟨hp, by omega⟩ ⟨a, b⟩
    have hlast : (searchPosition p q l).2.1.lastDisc = q.lastDisc := by rw [h2]; rfl
    have hcand : (searchPosition p q l).2.1.candDisc = if q.direction p then q.candDisc else p := by
      rw [h2]
      cases q.direction p <;> rfl
    obtain ⟨k1, k2, k3, k4, k5, k6⟩ := ih (p := p + 1) (by omega) (by omega) (q := (searchPosition p q l).2.1) h3
    simp only [searchWalk, h1, Bool.false_eq_true, if_false]
    generalize searchWalk n (p + 1) (searchPosition p q l).2.1 (searchPosition p q l).2.2 = r at *
    generalize searchPosition p q l = m at *
    have hbit : positionBit r.1.romBuf p = q.direction p := by
      rw [k3 p hp (by omega), hget p hp (by omega), if_pos rfl]
    refine ⟨k1, k2.trans hlast, fun j a b => ?_, fun a => ?_, fun a w => ?_, ?_⟩
    · rw [k3 j a (by omega), hget j a (by omega), if_neg (by omega)]
    · have hd : q.direction p = false := by
        rw [Search.direction, if_neg (by omega)]
        exact beq_eq_false_iff_ne.2 (by omega)
      simp only [leafFrom, hbit, hd, k4 (by omega), Bool.toNat_false, Nat.zero_mul]
    · simp only [leafFrom, hbit]
      have := w.range
      by_cases hm : p = q.lastDisc
      · have hd : q.direction p = true := by simp [Search.direction, hm]
        have hz : positionBit q.romBuf p = false := by rw [hm]; exact w.zero
        have ho := leafFrom_ones (a := q.romBuf) n (p + 1) fun j c d => w.ones j (by omega) (by omega)
        rw [hd, hz, k4 (by omega)]
        simp only [Bool.toNat_true, Bool.toNat_false]
        omega
      · have hd : q.direction p = positionBit q.romBuf p := by rw [Search.direction, if_pos (by omega)]
        have w' : m.2.1.AtMarker := by
          refine ⟨by rw [hlast]; exact w.range, ?_, fun j c d => ?_⟩
          · rw [hlast, hget _ (by omega) (by omega), if_neg (by omega)]; exact w.zero
          · rw [hget _ (by omega) (by omega), if_neg (by omega)]; exact w.ones j (by omega) d
        have e : leafFrom m.2.1.romBuf n (p + 1) = leafFrom q.romBuf n (p + 1) :=
          leafFrom_congr n (p + 1) fun j c d => by rw [hget j (by omega) (by omega), if_neg (by omega)]
        rw [hd, k5 (by omega) w', e]
        omega
    · rcases k6 with ⟨c, ones⟩ | ⟨a, b, z, ones⟩
      · cases hd : q.direction p
        · right
          rw [hd] at hcand hbit
          have hc : r.1.candDisc = p := by rw [c, hcand]; rfl
          rw [hc]
          exact ⟨Nat.le_refl _, by omega, hbit, fun j u v => ones j (by omega) v⟩
        · left
          rw [hd] at hcand hbit
          refine ⟨by rw [c, hcand]; rfl, fun j u v => ?_⟩
          by_cases e : j = p
          · rw [e]; exact hbit
          · exact ones j (by omega) v
      · exact .inr ⟨by omega, b, z, ones⟩

/-- The leaf the next pass takes: the first one from marker zero, from a marker the one after the last. -/
abbrev Search.NextLeaf (q : Search) (v : Nat) : Prop :=
  q.lastDisc = 0 ∧ v = 0 ∨ q.AtMarker ∧ v = leafFrom q.romBuf 64 1 + 1

/-- A pass takes the next leaf, and leaves a marker again unless that was the last one (R189). -/
theorem searchPass_low {k c v : Nat} {f : Bool} {q : Search} {l : Line} (h : l.low (128 + k)) (hq : q.NextLeaf v)
    (hv : v + 1 < 2 ^ 64) :
    let r := searchPass c f q l
    r.2.low k ∧ r.1.AtMarker ∧ r.1.NextLeaf (v + 1) := by
  obtain ⟨k1, k2, -, k4, k5, k6⟩ := searchWalk_low (n := 64) (p := 1) (k := k) (by omega) (by omega) (q := q.startPass)
    (h.writeBits (byteBits (searchCommand f)))
  simp only [searchPass, Line.writeByte]
  generalize searchWalk 64 1 q.startPass (l.writeBits (byteBits (searchCommand f))) = r at *
  have hval : leafFrom r.1.romBuf 64 1 = v := by
    rcases hq with ⟨h0, rfl⟩ | ⟨hm, rfl⟩
    · exact k4 (by simp [h0])
    · exact k5 (by simpa using hm.range.1) ⟨hm.range, hm.zero, hm.ones⟩
  have hm : (r.1.endPass c).AtMarker := by
    rcases k6 with ⟨-, ones⟩ | ⟨a, b, z, ones⟩
    · have := leafFrom_ones (a := r.1.romBuf) 64 1 fun j c d => ones j c (by omega)
      omega
    · exact ⟨⟨a, b⟩, z, ones⟩
  exact ⟨k1, hm, .inr ⟨hm, congrArg (· + 1) hval.symm⟩⟩

/-! ### The search -/

/-- A search has not ended after `budget` passes, fewer than 2^64 of them in all, on a line whose samples are all 0 (R195,
R327). -/
theorem searchLoop_low (p : Params) (c : Nat) (f : Bool) {budget k v : Nat} {q : Search} {l : Line}
    (h : l.low (129 * budget + k)) (hq : q.NextLeaf v) (hv : v + budget < 2 ^ 64) :
    let r := searchLoop budget p c f q l
    r.1 = false ∧ r.2.2.low k ∧ r.2.1.NextLeaf (v + budget) := by
  induction budget generalizing v q l with
  | zero =>
    rw [Nat.mul_zero, Nat.zero_add] at h
    exact ⟨rfl, h, hq⟩
  | succ b ih =>
    obtain ⟨h1, h2⟩ := Line.low.presence (k := 128 + (129 * b + k))
      (by rwa [show 128 + (129 * b + k) + 1 = 129 * (b + 1) + k by omega]) p
    obtain ⟨k1, k2, k3⟩ := searchPass_low (c := c) (f := f) h2 hq (by omega)
    have := k2.range
    rw [searchLoop, if_pos h1, if_neg (by omega), show v + (b + 1) = v + 1 + b by omega]
    exact ih k1 k3 (by omega)

/-- So a step that runs or continues a search there leaves it in flight, and presents nothing. -/
theorem continueSearch_low (f : InFlight) {s : State} {k v : Nat} (h : s.line.low (129 * Config.passBudget + k))
    (hq : s.search.NextLeaf v) (hv : v + Config.passBudget < 2 ^ 64) :
    let t := s.continueSearch f
    t.inFlight = some f ∧ t.res = {} ∧ t.inputs = s.inputs ∧ t.line.low k ∧ t.search.NextLeaf (v + Config.passBudget) := by
  obtain ⟨k1, k2, k3⟩ := searchLoop_low s.params f.capacity f.alarmOnly h hq hv
  rcases continueSearch_cases f s with ⟨e, -⟩ | ⟨-, e⟩
  · rw [k1] at e
    cases e
  · rw [e]
    exact ⟨rfl, rfl, rfl, k2, k3⟩

end Sys2Proof.Machine
end

