-- ==== Sys2Proof/Tests/Slice0.lean ====
section
/-! SUPPORT. Tests of the model, each expected result from the spec (the vectors V<n> are those of 95_test_vectors.md), and a
witness for the hypotheses of every obligation that has some. -/

namespace Sys2Proof.Tests

open Sys2Proof Sys2Proof.Machine

/-! ### The parameters, the devices and the states of 95_test_vectors.md -/

/-- The parameters of 95_test_vectors.md. -/
def params : Params :=
  { nMax := 4, tickInterval := 100, convertWaitTicks := 3, cycleDelayTicks := 2, familyA := [0x10], familyB := [0x28]
    tempSentinel := -99999, tConvBlock := 750000, tRstl := 480 }

/-- The bytes 28 00 11 00 00 00 00 AF, the first in bits 7:0 (R116 (a)). -/
def addrX : Addr := 0xAF00000000110028
/-- The bytes 10 05 44 00 00 00 00 E6. -/
def addrW : Addr := 0xE600000000440510
/-- The bytes 22 07 00 00 00 00 00 10. -/
def addrQ : Addr := 0x1000000000000722

/-- A scratchpad of 95_test_vectors.md: the raw bytes, the constant middle, the CRC. -/
def scratch (lo hi crc : Byte) : List Byte := [lo, hi, 0x4B, 0x46, 0x7F, 0xFF, 0x0C, 0x10, crc]

/-- X with the scratchpad of V44-1. -/
def devX : Device := { addr := addrX, scratchpad := scratch 0x91 0x01 0x70 }
/-- W with the scratchpad of V44-2. -/
def devW : Device := { addr := addrW, scratchpad := scratch 0x32 0x00 0xB2 }
/-- Q with the scratchpad of V44-1. -/
def devQ : Device := { addr := addrQ, scratchpad := scratch 0x91 0x01 0x70 }

/-- After reset, on an ideal bus. -/
def on (devices : List Device) : State := State.resetWith params (.ideal devices)

/-- After reset, on a line that answers the samples from a script. -/
def scripted (answers : List Bool) : State := State.resetWith params (.oracle answers 0 [])

/-- In a state of the cycle with W and X registered. -/
def inCycle (fsm : SchedulerState) (countdown : Ticks) (cursor : Nat) : State :=
  { on [devW, devX] with
    reg := [addrW, addrX, 0, 0], regCount := 2, fsm := fsm, countdown := countdown, cursor := cursor
    recs := freshRecords params 2 }

/-- The registry holding nothing and NoSensor reached. -/
def noSensor : State := { on [] with fsm := .noSensor }

/-- The time operand. -/
def at_ (now : Time) (s : State) : State := { s with ops := { time := now } }

/-- One field of the next state, if there is one. -/
def field {α : Type} (f : State → α) (o : Outcome) : Option α :=
  match o with
  | .next t => some (f t)
  | .fault _ | .refused _ => none

/-- The refusal, if it is one. -/
def refusal (o : Outcome) : Option Refusal :=
  match o with
  | .refused r => some r
  | .next _ | .fault _ => none

def rec_ (valid : Bool) (t : Temp) : Record := { active := true, valid := valid, temp := t }

/-! ### Well-formedness: an ill-formed term for each check -/

theorem test_params_wf : params.wf = true := by decide
theorem test_params_nMax_refused : Params.wf { params with nMax := 0 } = false := by decide
theorem test_params_convertWait_refused : Params.wf { params with convertWaitTicks := 0 } = false := by decide
theorem test_params_cycleDelay_refused : Params.wf { params with cycleDelayTicks := 0 } = false := by decide
theorem test_params_families_refused : Params.wf { params with familyB := [0x28, 0x10] } = false := by decide
theorem test_params_tRstl_refused : Params.wf { params with tRstl := 479 } = false := by decide
theorem test_writeBytes_short_refused : operandsWf .writeBytes { n := 2, data := [0x28] } = false := by decide
theorem test_crc8_short_refused : operandsWf .crc8 { n := 1 } = false := by decide

/-! ### Decoding: the code column of R114 with the bits of R115, and R100 to R110, written out -/

theorem test_decode_transceiver :
    decodeOpw 0b00000000 = some .reset ∧ decodeOpw 0b00000001 = some (.writeBit false) ∧
    decodeOpw 0b00100001 = some (.writeBit true) ∧ decodeOpw 0b00000010 = some .readBit ∧
    decodeOpw 0b00000011 = some .writeByte ∧ decodeOpw 0b00000100 = some .readByte ∧
    decodeOpw 0b00000101 = some .writeBytes ∧ decodeOpw 0b00000110 = some .readBytes ∧
    decodeOpw 0b00000111 = some .crc8 := by decide

theorem test_decode_search_and_sensor :
    decodeOpw 0b00001000 = some (.searchRom false) ∧ decodeOpw 0b00101000 = some (.searchRom true) ∧
    decodeOpw 0b00001001 = some (.discover false) ∧ decodeOpw 0b00101001 = some (.discover true) ∧
    decodeOpw 0b00001010 = some .selectAddressed ∧ decodeOpw 0b00001011 = some .selectAll ∧
    decodeOpw 0b00001100 = some (.startConversion false) ∧ decodeOpw 0b00101100 = some (.startConversion true) ∧
    decodeOpw 0b00001101 = some .readTemperature ∧ decodeOpw 0b00001110 = some (.convertBlocking false) ∧
    decodeOpw 0b00101110 = some (.convertBlocking true) := by decide

theorem test_decode_scheduler :
    decodeOpw 0b00010000 = some .advance ∧ decodeOpw 0b00010001 = some .setReadyCallback ∧
    decodeOpw 0b00010010 = some .getMin ∧ decodeOpw 0b00010011 = some .getMid ∧ decodeOpw 0b00010100 = some .getMax ∧
    decodeOpw 0b00010101 = some .getAddresses ∧ decodeOpw 0b00010110 = some .reinit := by decide

theorem test_decode_line_commands :
    decodeLineCommand 0b11110000 = some .searchRomCmd ∧ decodeLineCommand 0b00110011 = some .readRomCmd ∧
    decodeLineCommand 0b01010101 = some .matchRomCmd ∧ decodeLineCommand 0b11001100 = some .skipRomCmd ∧
    decodeLineCommand 0b11101100 = some .alarmSearchCmd ∧ decodeLineCommand 0b01000100 = some .convertTCmd ∧
    decodeLineCommand 0b01001110 = some .writeScratchpadCmd ∧ decodeLineCommand 0b10111110 = some .readScratchpadCmd ∧
    decodeLineCommand 0b01001000 = some .copyScratchpadCmd ∧ decodeLineCommand 0b10111000 = some .recallE2Cmd ∧
    decodeLineCommand 0b10110100 = some .readPowerSupplyCmd := by decide

/-- R117 (a): the reserved operation words; 0x33 and 0x22 are a command byte and a flag on READ_BIT. -/
theorem test_decode_reserved :
    decodeOpw 0x0F = none ∧ decodeOpw 0x17 = none ∧ decodeOpw 0x1F = none ∧ decodeOpw 0x20 = none ∧
    decodeOpw 0x22 = none ∧ decodeOpw 0x30 = none ∧ decodeOpw 0x40 = none ∧ decodeOpw 0x81 = none ∧
    decodeOpw 0x33 = none ∧ decodeLineCommand 0x01 = none := by decide

/-- Every word of the table runs as the first instruction after reset, and no other word does. -/
theorem test_first_instruction_after_reset :
    (List.range 256).all (fun w =>
      (field (fun _ => ()) (step (State.reset.withFetchWord 8 w))).isSome == (decodeTableWord 8 w).isSome) = true := by
  decide +kernel

/-! ### RESET and the transceiver -/

/-- V40-1. -/
theorem test_reset_presence :
    field (fun t => (t.res.bit, t.line.hist)) (exec .reset (on [devX])) =
      some (some true, [.driveLow 480, .release 70, .sample false, .release 410]) := by decide +kernel
/-- V40-2. -/
theorem test_reset_empty_line : field (fun t => t.res.bit) (exec .reset (on [])) = some (some false) := by decide +kernel
/-- V41-1. -/
theorem test_writeBit_one :
    field (fun t => t.line.hist) (exec (.writeBit true) (on [])) = some [.driveLow 6, .release 64] := by decide +kernel
/-- V41-2. -/
theorem test_writeBit_zero :
    field (fun t => t.line.hist) (exec (.writeBit false) (on [])) = some [.driveLow 60, .release 10] := by decide +kernel
/-- V41-3. -/
theorem test_readBit_one :
    field (fun t => (t.res.bit, t.line.crit, t.line.hist)) (exec .readBit (scripted [true])) =
      some (some true, false, [.critEnter, .driveLow 6, .release 9, .sample true, .critExit, .release 55]) := by
  decide +kernel
/-- V41-4. -/
theorem test_readBit_zero : field (fun t => t.res.bit) (exec .readBit (scripted [false])) = some (some false) := by
  decide +kernel
/-- V41-5. -/
theorem test_writeByte_F0 :
    field (fun t => t.line.hist) (exec .writeByte { on [] with ops := { byte := 0xF0 } }) =
      some (slotEvents params
        [.w false, .w false, .w false, .w false, .w true, .w true, .w true, .w true]) := by decide +kernel
/-- V41-12. -/
theorem test_readByte_91 :
    field (fun t => t.res.byte) (exec .readByte (scripted [true, false, false, false, true, false, false, true])) =
      some (some 0x91) := by decide +kernel
/-- V41-13: an empty line. -/
theorem test_readByte_empty_line : field (fun t => t.res.byte) (exec .readByte (on [])) = some (some 0xFF) := by
  decide +kernel
/-- V41-15. -/
theorem test_writeBytes_order :
    field (fun t => t.line.hist) (exec .writeBytes { on [] with ops := { n := 2, data := [0x28, 0x00] } }) =
      some (slotEvents params
        [.w false, .w false, .w false, .w true, .w false, .w true, .w false, .w false,
         .w false, .w false, .w false, .w false, .w false, .w false, .w false, .w false]) := by decide +kernel
/-- V41-17. -/
theorem test_writeBytes_none :
    field (fun t => t.line.hist) (exec .writeBytes { on [] with ops := { n := 0, data := [0x28] } }) = some [] := by
  decide +kernel
/-- V41-16. -/
theorem test_readBytes_order :
    field (fun t => t.res.data) (exec .readBytes
      { scripted [true, false, false, false, true, false, false, true, true, false, false, false, false, false, false, false]
        with ops := { n := 2 } }) = some (some [0x91, 0x01]) := by decide +kernel
/-- V41-17. -/
theorem test_readBytes_none : field (fun t => (t.res.data, t.line.hist)) (exec .readBytes (on [])) = some (some [], []) := by
  decide +kernel

/-! ### CRC8 -/

/-- V42-11. -/
theorem test_crc8_address : field (fun t => (t.res.byte, t.line.hist))
    (exec .crc8 { on [] with ops := { n := 7, data := [0x28, 0x00, 0x11, 0x00, 0x00, 0x00, 0x00] } }) =
      some (some 0xAF, []) := by decide +kernel
/-- V42-3: the register after each of the eight bit steps of the byte 01. -/
theorem test_crc8_bit_steps :
    (byteBits 0x01).scanl crcBit 0x00 = [0x00, 0x8C, 0x46, 0x23, 0x9D, 0xC2, 0x61, 0xBC, 0x5E] := by decide +kernel

/-! ### SEARCH_ROM and DISCOVER -/

/-- V43-7: W, X, Q; in the order of the leaves. -/
theorem test_searchRom_order : field (fun t => (t.res.addrs, t.search.lastDisc))
    (exec (.searchRom false) { on [devQ, devX, devW] with ops := { n := 8 } }) =
      some (some [addrW, addrX, addrQ], 0) := by decide +kernel
/-- V43-7 with capacity 2 (R191, V43-3): the first two in leaf order, and the passes go on to marker zero. -/
theorem test_searchRom_capacity : field (fun t => (t.res.addrs, t.search.lastDisc))
    (exec (.searchRom false) { on [devQ, devX, devW] with ops := { n := 2 } }) =
      some (some [addrW, addrX], 0) := by decide +kernel
/-- V43-9: presence, then both lines high at position 1: aborted, no write slot for the position, an empty result,
and `SEARCH_FAULT` 0 from the end of that pass on (R27). -/
theorem test_searchRom_bus_fault : field (fun t => (t.res.count, t.search.fault, t.line.hist))
    (exec (.searchRom true) { scripted [false, true, true] with ops := { n := 8 } }) =
      some (some 0, false, slotEvents params
        ([.rst false] ++ [.w false, .w false, .w true, .w true, .w false, .w true, .w true, .w true] ++
          [.rd true, .rd true])) := by decide +kernel
/-- V44-12: filtered, Q is dropped. -/
theorem test_discover_filtered : field (fun t => (t.res.count, t.reg)) (exec (.discover true) (on [devW, devX, devQ])) =
    some (some 2, [addrW, addrX, 0, 0]) := by decide +kernel
/-- V45-16. -/
theorem test_discover_refused : refusal (exec (.discover true) (inCycle .read 0 0)) = some .discoverMidCycle := by
  decide +kernel

/-! ### Selection, conversion, reading -/

/-- V44-18. -/
theorem test_selectAddressed : field (fun t => t.line.hist) (exec .selectAddressed { on [] with ops := { addr := addrX } }) =
    some (slotEvents params ([0x55, 0x28, 0x00, 0x11, 0x00, 0x00, 0x00, 0x00, 0xAF].flatMap writtenByte)) := by
  decide +kernel
/-- V44-17. -/
theorem test_selectAll : field (fun t => t.line.hist) (exec .selectAll (on [])) =
    some (slotEvents params [.w false, .w false, .w true, .w true, .w false, .w false, .w true, .w true]) := by
  decide +kernel
/-- V44-20. -/
theorem test_startConversion_addressed : field (fun t => t.line.hist)
    (exec (.startConversion false) { on [devX] with ops := { addr := addrX } }) =
      some (slotEvents params (.rst false ::
        [0x55, 0x28, 0x00, 0x11, 0x00, 0x00, 0x00, 0x00, 0xAF, 0x44].flatMap writtenByte)) := by decide +kernel
/-- V44-21. -/
theorem test_startConversion_empty_line : field (fun t => t.line.hist) (exec (.startConversion true) (on [])) =
    some (slotEvents params [.rst true]) := by decide +kernel
/-- V44-22. -/
theorem test_readTemperature_familyB : field (fun t => t.res.temp)
    (exec .readTemperature { on [devW, devX] with ops := { addr := addrX } }) = some (some 2506) := by decide +kernel
/-- V44-23: a bad CRC. -/
theorem test_readTemperature_bad_crc : field (fun t => t.res.temp)
    (exec .readTemperature
      { on [{ devX with scratchpad := scratch 0x91 0x01 0x8F }] with ops := { addr := addrX } }) =
      some (some (-99999)) := by decide +kernel
/-- V44-29. -/
theorem test_convertBlocking : field (fun t => t.line.hist) (exec (.convertBlocking true) (on [devX])) =
    some (slotEvents params (.rst false :: [0xCC, 0x44].flatMap writtenByte) ++ [.release 750000]) := by decide +kernel
/-- V44-3 in family B and in family A. -/
theorem test_decode_negative :
    (decodeTemperature params addrX (scratch 0x5E 0xFF 0x6A)).toInt = -1012 ∧
    (decodeTemperature params addrW (scratch 0x5E 0xFF 0x6A)).toInt = -8100 := by decide +kernel

/-- R75: a device takes the next result of its script on 0x44, and its alarm flag follows that result (V44-1's bytes; the
alarm bytes of the scratchpad are 4B and 46). -/
theorem test_convert_takes_result_and_alarm :
    let d := { devX with alarm := true, conversions := [scratch 0x91 0x01 0x70] }.functionCommand 0x44
    d.scratchpad = scratch 0x91 0x01 0x70 ∧ d.conversions = [] ∧
      d.alarm = Config.outsideAlarmLimits 0x28 401 0x4B 0x46 := ⟨rfl, rfl, rfl⟩
/-- R327: the line stuck low; SEARCH_ROM presents nothing and is still searching. -/
theorem test_searchRom_stuck_low :
    let t := (scripted (List.replicate (129 * Config.passBudget) false)).runSearch
      { capacity := 8, alarmOnly := false, next := .report }
    t.inFlight = some { capacity := 8, alarmOnly := false, next := .report } ∧ t.res = {} :=
  have h := continueSearch_low { capacity := 8, alarmOnly := false, next := .report } (k := 0) (v := 0)
    (s := { scripted (List.replicate (129 * Config.passBudget) false) with search := Search.afterReset.startSearch })
    ⟨[], 0, [], by rw [List.append_nil]; rfl⟩ (.inl ⟨rfl, rfl⟩) (by decide)
  ⟨h.1, h.2.1⟩

/-! ### The scheduler -/

/-- V45-3 and V45-4: the difference of times is modular. -/
theorem test_advance_wrap :
    tickEffective params 0xFFFFFFF0 0x00000054 = true ∧ tickEffective params 0xFFFFFFF0 0x00000053 = false := by decide
/-- V45-13: the last read of the cycle, no callback registered. -/
theorem test_advance_last_read :
    field (fun t => (t.cursor, t.countdown, t.fsm, t.ready)) (exec .advance (at_ 100 (inCycle .read 0 1))) =
      some (2, 2, .readWait, none) := by decide +kernel
/-- R252 and R253: the consumer sees the record just read (V44-22), and its ADVANCE has no answer. -/
theorem test_ready_consumer :
    field (fun t => t.ready.map (fun e => e.answers)) (exec .advance (at_ 100
      { inCycle .read 0 1 with cbSet := true, callback := [{ word := 0x14 }, { word := 0x10 }] })) =
      some (some [some { temp := some 2506 }, none]) := by decide +kernel
/-- R333: the records handed over are the block's own, and change at the next Read tick (V44-2: 2500). -/
theorem test_handed_records_follow :
    field (fun t => t.handedRecords) (exec .advance (at_ 100 { inCycle .read 0 0 with handed := some 2 })) =
      some (some [rec_ true 2500, rec_ false (-99999)]) := by decide +kernel
/-- R251. -/
theorem test_setReadyCallback : field (fun t => t.cbSet) (exec .setReadyCallback { on [] with argCb := some [] }) =
    some true := by decide
/-- V45-7. -/
theorem test_queries :
    let s : State := { on [] with recs := [rec_ true 2500, rec_ true 2600, rec_ false 9990] }
    field (fun t => t.res.temp) (exec .getMin s) = some (some 2500) ∧
    field (fun t => t.res.temp) (exec .getMid s) = some (some 2550) ∧
    field (fun t => t.res.temp) (exec .getMax s) = some (some 2600) := by decide +kernel
/-- V45-9: negative values. -/
theorem test_queries_negative :
    let s : State := { on [] with recs := [rec_ true (-1012), rec_ true (-7)] }
    field (fun t => t.res.temp) (exec .getMin s) = some (some (-1012)) ∧
    field (fun t => t.res.temp) (exec .getMid s) = some (some (-509)) ∧
    field (fun t => t.res.temp) (exec .getMax s) = some (some (-7)) := by decide +kernel
/-- R259. -/
theorem test_getAddresses : field (fun t => (t.res.addrs, t.res.count)) (exec .getAddresses (inCycle .convert 0 0)) =
    some (some [addrW, addrX], some 2) := by decide +kernel
/-- V45-15. -/
theorem test_reinit : field (fun t => (t.fsm, t.countdown, t.cursor, t.regCount)) (exec .reinit (inCycle .readWait 2 2)) =
    some (.init, 0, 0, 2) := by decide +kernel

/-! ### The command bytes: V41-5 to V41-10 for six of them; the bits of R101, R106, R108 to R110 for the others -/

/-- The bits a command byte puts on the line, in order. -/
def sent (i : Instr) : Option (List BusEvent) := field (fun t => t.line.hist) (exec i (on []))

/-- Write slots for 0 and 1, in order. -/
def slotsOf (bits : List Nat) : Option (List BusEvent) := some (slotEvents params (bits.map (fun b => .w (b == 1))))

theorem test_searchRomCmd : sent .searchRomCmd = slotsOf [0, 0, 0, 0, 1, 1, 1, 1] := by decide +kernel
theorem test_readRomCmd : sent .readRomCmd = slotsOf [1, 1, 0, 0, 1, 1, 0, 0] := by decide +kernel
theorem test_matchRomCmd : sent .matchRomCmd = slotsOf [1, 0, 1, 0, 1, 0, 1, 0] := by decide +kernel
theorem test_skipRomCmd : sent .skipRomCmd = slotsOf [0, 0, 1, 1, 0, 0, 1, 1] := by decide +kernel
theorem test_alarmSearchCmd : sent .alarmSearchCmd = slotsOf [0, 0, 1, 1, 0, 1, 1, 1] := by decide +kernel
theorem test_convertTCmd : sent .convertTCmd = slotsOf [0, 0, 1, 0, 0, 0, 1, 0] := by decide +kernel
theorem test_writeScratchpadCmd : sent .writeScratchpadCmd = slotsOf [0, 1, 1, 1, 0, 0, 1, 0] := by decide +kernel
theorem test_readScratchpadCmd : sent .readScratchpadCmd = slotsOf [0, 1, 1, 1, 1, 1, 0, 1] := by decide +kernel
theorem test_copyScratchpadCmd : sent .copyScratchpadCmd = slotsOf [0, 0, 0, 1, 0, 0, 1, 0] := by decide +kernel
theorem test_recallE2Cmd : sent .recallE2Cmd = slotsOf [0, 0, 0, 1, 1, 1, 0, 1] := by decide +kernel
theorem test_readPowerSupplyCmd : sent .readPowerSupplyCmd = slotsOf [0, 0, 1, 0, 1, 1, 0, 1] := by decide +kernel

/-! ### Witnesses: a state and operands that meet the hypotheses of each obligation that has some, clause by clause -/

/-- ReservedOperationWordsAreRefused: the words 0x80, 0x40, 0x0F, 0x17, 0x1F, 0x20 and 0x2F, one per clause and bound. -/
theorem witness_reserved_words :
    (0x80 : Byte).getLsbD 7 = true ∧ (0x40 : Byte).getLsbD 6 = true ∧ (0x0F : Byte).toNat % 32 = 0x0F ∧
    0x17 ≤ (0x17 : Byte).toNat % 32 ∧ 0x17 ≤ (0x1F : Byte).toNat % 32 ∧
    ((0x20 : Byte).getLsbD 5 = true ∧ (0x20 : Byte).toNat % 32 ∉ [0x01, 0x08, 0x09, 0x0C, 0x0E]) ∧
    (let s : State := { on [] with inputs := [.call .operation 0x80 {} none] }
     s.inFlight = none ∧ s.inputs = .call .operation 0x80 {} none :: []) := by decide

/-- StepRunsTheDecodedInstruction, on each port. -/
theorem witness_step_runs :
    (let s : State := { on [] with inputs := [.call .operation 0x21 {} none] }
     s.inFlight = none ∧ s.inputs = .call .operation 0x21 {} none :: [] ∧
       decodeAt .operation 0x21 = some (.writeBit true)) ∧
    (let s : State := { on [] with inputs := [.call .lineCommand 0x33 {} none] }
     s.inFlight = none ∧ s.inputs = .call .lineCommand 0x33 {} none :: [] ∧
       decodeAt .lineCommand 0x33 = some .readRomCmd) := by decide

/-- A search in flight. -/
def searching : State :=
  { on [devX] with inFlight := some { capacity := 8, alarmOnly := false, next := .report } }

/-- A search in flight on a line stuck low, with what follows it. -/
def stuck (next : AfterSearch) : State :=
  { scripted (List.replicate (129 * Config.passBudget) false) with
    inFlight := some { capacity := 8, alarmOnly := false, next := next } }

/-- StepWithoutANewOperation: idle, rewired, and a search in flight with an operation waiting. -/
theorem witness_step_without_operation :
    ((on []).inFlight = none ∧ (on []).inputs = []) ∧
    (let s : State := { on [] with inputs := [.rewire (.ideal [devX])] }
     s.inFlight = none ∧ s.inputs = .rewire (.ideal [devX]) :: []) ∧
    (let s : State := { searching with inputs := [.call .operation 0x00 {} none] }
     s.inFlight = some { capacity := 8, alarmOnly := false, next := .report } ∧ ∀ rest, s.inputs ≠ .reset :: rest) := by
  refine ⟨by decide, by decide, rfl, fun rest h => by cases h⟩

/-- StepWithoutANewOperation, its four cases of a search in flight: ended and not, for each thing that may follow it. -/
theorem witness_continued_search :
    (searchLoop Config.passBudget params 8 false searching.search searching.line).1 = true ∧
    (searchLoop Config.passBudget params 8 false (stuck .report).search (stuck .report).line).1 = false ∧
    ∀ next, { searching with inFlight := some { capacity := 8, alarmOnly := false, next := next } }.inFlight =
      some { capacity := 8, alarmOnly := false, next := next } :=
  ⟨by decide +kernel,
   (searchLoop_low params 8 false (k := 0) (v := 0) ⟨[], 0, [], by rw [List.append_nil]; rfl⟩ (.inl ⟨rfl, rfl⟩) (by decide)).1,
   fun _ => rfl⟩

/-- ResetSamplesPresenceOnce: an ideal bus, with a device and with none. -/
theorem witness_reset : (on [devX]).line.bus = .ideal [devX] ∧ (on []).line.bus = .ideal [] := ⟨rfl, rfl⟩

/-- ReadByteAssemblesEightSamples: a line nobody answers and a line stuck low. -/
theorem witness_readByte :
    (scripted (List.replicate 8 true)).line.bus = .oracle (List.replicate 8 true ++ []) 0 [] ∧
    (scripted (List.replicate 8 false)).line.bus = .oracle (List.replicate 8 false ++ []) 0 [] := by decide

/-- WriteBytesSendsInIndexOrder, StreamLaw and Crc8FollowsTheBitSerialRegister: no byte, all the bytes given, too few. -/
theorem witness_data_count :
    (let o : Operands := { n := 0, data := [] }; o.n ≤ o.data.length) ∧
    (let o : Operands := { n := 2, data := [0x28, 0x00] }; o.n ≤ o.data.length ∧ o.n = o.data.length) ∧
    (let o : Operands := { n := 3, data := [0x28, 0x00] }; o.data.length < o.n) := by decide

/-- SearchPositionFollowsTheBitPair: the first and the last position; before, at and after the marker; a line with and one
without presence. -/
theorem witness_search_position :
    (1 ≤ 1 ∧ 1 ≤ 64) ∧ (1 ≤ 64 ∧ 64 ≤ 64) ∧
    (let q : Search := { Search.afterReset with lastDisc := 10 }; 9 < q.lastDisc ∧ 10 = q.lastDisc ∧ ¬ 11 < q.lastDisc) ∧
    ((on [devX]).line.bus.answer .resetSlot ((on [devX]).line.hist ++ [.driveLow params.tRstl, .release 70])).1 = false ∧
    ((on []).line.bus.answer .resetSlot ((on []).line.hist ++ [.driveLow params.tRstl, .release 70])).1 = true := by
  decide

/-- SearchWithoutPresenceIsEmpty, DiscoverWithoutPresenceEmptiesTheRegistry and the first clause of
ReadTemperatureReadsChecksDecodes: an empty line, in Init and in NoSensor. -/
theorem witness_no_presence :
    ((on []).line.bus.answer .resetSlot
      ((on []).line.hist ++ [.driveLow (on []).params.tRstl, .release 70])).1 = true ∧
    (noSensor.line.bus.answer .resetSlot
      (noSensor.line.hist ++ [.driveLow noSensor.params.tRstl, .release 70])).1 = true ∧
    (on []).fsm = .init ∧ noSensor.fsm = .noSensor := by decide

/-- The second clause of ReadTemperatureReadsChecksDecodes: a line with a device. -/
theorem witness_presence :
    ((on [devX]).line.bus.answer .resetSlot
      ((on [devX]).line.hist ++ [.driveLow (on [devX]).params.tRstl, .release 70])).1 = false := by decide

/-- SearchEmitsCheckedAddressesWithinCapacity, on a line stuck low: each of the three operations, for one step and two. -/
theorem witness_stuck_low :
    (∀ k, k = 0 ∨ k = 1 →
      let s := scripted (List.replicate (129 * ((k + 1) * Config.passBudget)) false)
      s.line.bus = .oracle (List.replicate (129 * ((k + 1) * Config.passBudget)) false ++ []) 0 [] ∧
        (k + 1) * Config.passBudget < 2 ^ 64 ∧ (∀ r, s.inputs ≠ .reset :: r) ∧
        (∃ t, exec (.searchRom false) s = .next t) ∧ (∃ t, exec (.discover true) s = .next t)) ∧
    (let s := at_ 100 (scripted (List.replicate (129 * ((0 + 1) * Config.passBudget)) false))
     s.fsm = .init ∧ tickEffective s.params s.lastTime s.ops.time = true ∧ ∃ t, exec .advance s = .next t) := by
  refine ⟨fun k hk => ⟨by rw [List.append_nil]; rfl, ?_, (fun r h => by cases h), ⟨_, rfl⟩, ⟨_, rfl⟩⟩, rfl, ?_, ⟨_, rfl⟩⟩
  · rcases hk with rfl | rfl <;> decide
  · decide

/-- SearchFindsExactlyTheDevices: three devices; an alarm search on a bus with one alarm; no device. -/
theorem witness_search_finds :
    (∀ rest, (on [devW, devX, devQ]).inputs ≠ .reset :: rest) ∧
    ((on [devW, devX, devQ]).line.bus = .ideal [devW, devX, devQ] ∧
      ([devW, devX, devQ].map (fun d => d.addr)).Nodup ∧ (takingPart false [devW, devX, devQ]).length = 3 ∧
      (takingPart false [devW, devX, devQ]).length ≤ Config.passBudget) ∧
    (let ds : List Device := [devW, { devX with alarm := true }]
     (on ds).line.bus = .ideal ds ∧ (ds.map (fun d => d.addr)).Nodup ∧ (takingPart true ds).length = 1) ∧
    ((on []).line.bus = .ideal [] ∧ takingPart false [] = []) :=
  ⟨(fun _ h => by cases h), by decide +kernel, by decide +kernel, by decide⟩

/-- DiscoverReplacesTheRegistry: the two states in which it is allowed. -/
theorem witness_discover_allowed : (on [devX]).fsm = .init ∧ noSensor.fsm = .noSensor := by decide

/-- DiscoverIsRefusedInACycle: the four states of a cycle. -/
theorem witness_discover_refused :
    ∀ f ∈ [SchedulerState.convert, .convertWait, .read, .readWait],
      (inCycle f 1 0).fsm ∈ [SchedulerState.convert, .convertWait, .read, .readWait] := by decide

/-- DiscoverTwiceLeavesTheSameRegistry: both discoveries of one device end. -/
theorem witness_discover_twice :
    (on [devX]).line.bus = .ideal [devX] ∧
    field (fun t => (t.inFlight, (field (fun u => u.reg) (exec (.discover true) t)))) (exec (.discover true) (on [devX])) =
      some (none, some [addrX, 0, 0, 0]) := by decide +kernel

/-- DecodedTemperatureIsExactAndInRange and DecodeOfTheSourceExample: a family of each kind. -/
theorem witness_families :
    addrW.extractLsb' 0 8 ∈ params.familyA ∧
    (addrX.extractLsb' 0 8 ∉ params.familyA ∧ addrX.extractLsb' 0 8 ∈ params.familyB) ∧
    (addrQ.extractLsb' 0 8 ∉ params.familyA ∧ addrQ.extractLsb' 0 8 ∉ params.familyB) := by decide +kernel

/-- ReadTemperatureOnTheIdealBus: the operand is the address of a device, and of none. -/
theorem witness_ideal_bus :
    (let s : State := { on [devW, devX] with ops := { addr := addrX } }
     s.line.bus = .ideal [devW, devX] ∧ [devW, devX] ≠ [] ∧ ([devW, devX].map (fun d => d.addr)).Nodup ∧
       devX ∈ [devW, devX] ∧ devX.addr = s.ops.addr ∧ devX.scratchpad.length = 9) ∧
    (let s : State := { on [devW, devX] with ops := { addr := addrQ } }
     ∀ d ∈ [devW, devX], d.addr ≠ s.ops.addr) := by decide +kernel

/-- FaultsShowOnlyInResults: a pass without a fault, one of each class, reads of the three kinds, and a SEARCH_ROM that has
ended. -/
theorem witness_faults :
    passFault 1 Search.afterReset = none ∧ passFault 1 { Search.afterReset with fault := true } = some .busFault ∧
    passFault 1 { Search.afterReset with romBuf := 1 } = some .integrityFault ∧
    passFault 0 Search.afterReset = some .capacityFault ∧
    readFault true devX.scratchpad = none ∧ readFault false devX.scratchpad = some .busFault ∧
    readFault true (scratch 0x91 0x01 0x8F) = some .integrityFault ∧
    field (fun t => t.inFlight) (exec (.searchRom false) { on [devX] with ops := { n := 8 } }) = some none := by
  decide +kernel

/-- AdvanceBeforeTheIntervalIsANoOp: V45-1, and V45-4 across the wrap of the clock. -/
theorem witness_advance_early :
    (let s : State := at_ 99 (on [])
     (s.ops.time.toNat + 2 ^ 32 - s.lastTime.toNat) % 2 ^ 32 < s.params.tickInterval.toNat) ∧
    (let s : State := at_ 0x53 { on [] with lastTime := 0xFFFFFFF0 }
     (s.ops.time.toNat + 2 ^ 32 - s.lastTime.toNat) % 2 ^ 32 < s.params.tickInterval.toNat) := by decide

/-- InitTickDiscoversAndReplacesTheRecords: V45-2, the equality counts. -/
theorem witness_init_tick :
    let s : State := at_ 100 (on [devX])
    s.fsm = .init ∧ tickEffective s.params s.lastTime s.ops.time = true := by decide

/-- ConvertTickStartsABroadcastConversion. -/
theorem witness_convert_tick :
    let s : State := at_ 100 (inCycle .convert 0 0)
    s.fsm = .convert ∧ tickEffective s.params s.lastTime s.ops.time = true := by decide +kernel

/-- WaitingTicksCountDown: each of its five clauses, at the bounds 2, 1 and 0 of the countdown. -/
theorem witness_waiting_ticks :
    (let s : State := at_ 100 (inCycle .convertWait 2 0)
     tickEffective s.params s.lastTime s.ops.time = true ∧ s.fsm = .convertWait ∧ 1 < s.countdown.toNat) ∧
    (let s : State := at_ 100 (inCycle .convertWait 1 0)
     tickEffective s.params s.lastTime s.ops.time = true ∧ s.fsm = .convertWait ∧ s.countdown.toNat ≤ 1) ∧
    (let s : State := at_ 100 (inCycle .readWait 2 2)
     tickEffective s.params s.lastTime s.ops.time = true ∧ s.fsm = .readWait ∧ 1 < s.countdown.toNat) ∧
    (let s : State := at_ 100 (inCycle .readWait 0 2)
     tickEffective s.params s.lastTime s.ops.time = true ∧ s.fsm = .readWait ∧ s.countdown.toNat ≤ 1) ∧
    (let s : State := at_ 100 noSensor
     tickEffective s.params s.lastTime s.ops.time = true ∧ s.fsm = .noSensor) := by decide +kernel

/-- ReadTickReadsOneDevice: the first of two devices, with the records of the last cycle handed over. -/
theorem witness_read_tick :
    let s : State := at_ 100 { inCycle .read 0 0 with handed := some 2 }
    s.handed = some 2 ∧ s.fsm = .read ∧ tickEffective s.params s.lastTime s.ops.time = true ∧ s.reg[s.cursor]? = some addrW ∧
      s.recs[s.cursor]? = some { active := true, valid := false, temp := -99999 } ∧ s.cursor + 1 ≠ s.regCount := by
  decide +kernel

/-- LastReadTickFiresTheReadyEvent: the second of two devices. -/
theorem witness_last_read_tick :
    let s : State := at_ 100 (inCycle .read 0 1)
    s.fsm = .read ∧ tickEffective s.params s.lastTime s.ops.time = true ∧ s.reg[s.cursor]? = some addrX ∧
      s.recs[s.cursor]? = some { active := true, valid := false, temp := -99999 } ∧ s.cursor + 1 = s.regCount := by
  decide +kernel

/-- CallbackMayOnlyRead: an accessor, CRC8, and ADVANCE. -/
theorem witness_callback :
    decodeOpw 0x12 = some .getMin ∧ decodeOpw 0x13 = some .getMid ∧ decodeOpw 0x14 = some .getMax ∧
    decodeOpw 0x15 = some .getAddresses ∧
    (decodeOpw 0x07 = some .crc8 ∧ (let o : Operands := { n := 1, data := [0x01] }; o.n ≤ o.data.length)) ∧
    ∀ i ∈ [Instr.getMin, .getMid, .getMax, .getAddresses, .crc8], decodeOpw 0x10 ≠ some i := by decide

/-- SetReadyCallbackReplacesTheSlot: a callback and none. -/
theorem witness_setReadyCallback :
    (let s : State := { on [] with argCb := some [{ word := 0x12 }] }; s.argCb = some [{ word := 0x12 }]) ∧
    (on []).argCb = none := by decide

/-- GetMin, GetMid and GetMax: no valid record (V45-10), and one (V45-11). -/
theorem witness_queries :
    (∀ r ∈ (on []).recs, r.valid = false) ∧
    (let s : State := { on [] with recs := [rec_ true 2506] }; ∃ r ∈ s.recs, r.valid = true) ∧
    (((on []).recs.filter (fun r => r.valid)).map (fun r => r.temp.toInt) = []) ∧
    (let s : State := { on [] with recs := [rec_ true 2506] }
     (s.recs.filter (fun r => r.valid)).map (fun r => r.temp.toInt) ≠ []) := by decide +kernel

/-- GetAddressesPresentsTheRegistry. -/
theorem witness_getAddresses :
    let s : State := inCycle .convert 0 0
    s.regCount ≤ s.reg.length ∧ 1 < s.regCount := by decide +kernel

/-- ConvertWaitLastsItsCountdown: a countdown of 3. -/
theorem witness_convert_wait :
    let s : State := { inCycle .convertWait 3 0 with inputs := advanceCalls [100, 200, 300] ++ [] }
    s.fsm = .convertWait ∧ s.inFlight = none ∧ [100#32, 200, 300].length = s.countdown.toNat ∧ 0 < s.countdown.toNat ∧
      s.inputs = advanceCalls [100, 200, 300] ++ [] ∧ allEffective s.params s.lastTime [100, 200, 300] = true := by
  decide +kernel

/-- The states of a cycle meet the invariant: in ConvertWait and Convert, at any countdown. -/
theorem inCycle_inv (f : SchedulerState) (h : f = .convert ∨ f = .convertWait) (c : Ticks) : (inCycle f c 0).Inv := by
  have hp : (1 : Nat) ≤ 1 ∧ 1 ≤ 64 ∧ 0 ≤ 64 ∧ 2 ≤ 4 ∧ 0 ≤ 4 ∧ 1 ≤ 2 := by decide
  have hr : ∀ r ∈ freshRecords params 2, r.ok params := by decide +kernel
  refine ⟨⟨rfl, rfl⟩, ⟨hp.1, hp.2.1, hp.2.2.1, hp.2.2.1, rfl, fun a ha => by cases ha⟩,
    ⟨rfl, hp.2.2.2.1, ?_, ?_⟩, ⟨rfl, hr⟩, ⟨hp.2.2.2.2.1, fun _ => ⟨hp.2.2.2.2.2, rfl⟩, ?_, ?_⟩, rfl, trivial,
    fun n h => by cases h⟩
  · exact List.forall_mem_cons.2 ⟨by decide +kernel, List.forall_mem_cons.2 ⟨by decide +kernel, fun a ha => by cases ha⟩⟩
  · exact List.forall_mem_cons.2 ⟨rfl, List.forall_mem_cons.2 ⟨rfl, fun a ha => by cases ha⟩⟩
  · rcases h with rfl | rfl <;> exact fun h => by cases h
  · rcases h with rfl | rfl <;> exact fun h => by cases h

/-- The times of one cycle: 1 + 3 + 2 + 2 effective ticks. -/
def cycleTimes : List Time := [100, 200, 300, 400, 500, 600, 700, 800]

/-- CycleFiresReadyExactlyOnce: two devices, C = 3, D = 2. -/
theorem witness_cycle :
    let s : State := { inCycle .convert 0 0 with cbSet := true, inputs := advanceCalls cycleTimes ++ [] }
    s.Inv ∧ s.params.wf = true ∧ s.fsm = .convert ∧ s.inFlight = none ∧ s.cbSet = true ∧
      s.inputs = advanceCalls cycleTimes ++ [] ∧ allEffective s.params s.lastTime cycleTimes = true ∧
      cycleTimes.length = 1 + s.params.convertWaitTicks.toNat + s.regCount + s.params.cycleDelayTicks.toNat :=
  ⟨inCycle_inv .convert (.inl rfl) 0, by decide, rfl, rfl, rfl, rfl, by decide +kernel, by decide +kernel⟩

/-- NoSensorIsTerminal, with an early call among the effective ones. -/
theorem witness_noSensor :
    let s : State := { noSensor with inputs := advanceCalls [100, 150, 200] ++ [] }
    s.fsm = .noSensor ∧ s.inFlight = none ∧ s.inputs = advanceCalls [100, 150, 200] ++ [] ∧
      3 ≤ [100#32, 150, 200].length := by decide

/-- SchedulerMovesOnlyAlongTheTable and EveryStepKeepsTheInvariant: the last tick of ConvertWait goes to Read. -/
theorem witness_scheduler_moves :
    let s : State := { inCycle .convertWait 1 0 with inputs := advanceCalls [100] }
    s.Inv ∧ field (fun t => t.fsm) (step s) = some .read ∧ s.fsm = .convertWait :=
  ⟨inCycle_inv .convertWait (.inr rfl) 1, by decide +kernel, rfl⟩

/-- ReadyComesOnlyFromTheLastRead: an ADVANCE that fires the event, with two records. -/
theorem witness_ready :
    field (fun t => t.ready.map (fun e => (e.records.length, e.count)))
      (exec .advance (at_ 100 { inCycle .read 0 1 with cbSet := true })) = some (some (2, 2)) := by decide +kernel

/-- OnlyTheOwnersWrite and TheLineSeesOnlyWholeSlots: instructions that answer a next state, from an idle line. -/
theorem witness_next :
    (field (fun _ => ()) (exec .reinit (on []))).isSome = true ∧
    (field (fun _ => ()) (exec (.convertBlocking true) (on [devX]))).isSome = true ∧ (on [devX]).line.idle := by
  decide +kernel

/-- OnlyTheNamedRefusals: one of each. -/
theorem witness_refusals :
    refusal (exec (.discover false) (inCycle .readWait 1 2)) = some .discoverMidCycle ∧
    (inCycle .readWait 1 2).fsm ∉ [.init, .noSensor] ∧
    refusal (exec .writeBytes { on [] with ops := { n := 1 } }) = some .dataShorterThanCount ∧
    refusal (exec .crc8 { on [] with ops := { n := 1 } }) = some .dataShorterThanCount := by decide +kernel

/-- R312: the block's reset puts nothing on the line and the devices carry on: an oracle's answers go on from what the line
has carried, on from one reset to the next. -/
theorem test_reset_devices_carry_on :
    field (fun t => (t.line.hist, t.line.bus)) (step
      { scripted [] with
        line := { lineDrive := true, crit := false, hist := [.driveLow 480], bus := .oracle [] 7 [.release 55] }
        inputs := [.reset] }) = some ([], .oracle [] 7 [.release 55, .driveLow 480]) := by decide +kernel

/-- ResetPutsEveryElementToItsValue: the reset event while a search is in flight, on an ideal bus and on an oracle. -/
theorem witness_reset_event :
    let s : State := { searching with inputs := [.reset] }
    s.inputs = .reset :: [] ∧ s.inFlight ≠ none ∧ s.line.bus = .ideal [devX] ∧
      (scripted [true]).line.bus = .oracle [true] 0 [] := by decide

end Sys2Proof.Tests
end

section
/-! PROOFS. RESET (R140): its one slot, its result and its frame, on any bus and on an ideal one. -/

namespace Sys2Proof.Machine

/-- RESET is one reset slot, and it presents the complement of the level sampled (R90, R140). -/
theorem exec_reset (s : State) :
    exec .reset s = .next ((s.withLine (s.line.resetSlot s.params).2).present
      { bit := some (!(s.line.resetSlot s.params).1) }) := rfl

/-- On an ideal bus the line is high in a reset slot iff no device is attached (R75). -/
theorem answer_resetSlot_ideal (devices : List Device) (h : List BusEvent) :
    ((Bus.ideal devices).answer .resetSlot h).1 = devices.isEmpty := rfl

/-- RESET with the slot written out: four events, the bus after its one answer, and nothing else changed (R140). -/
theorem exec_reset_frame (s : State) :
    let a := s.line.bus.answer .resetSlot (s.line.hist ++ [.driveLow s.params.tRstl, .release 70])
    exec .reset s = .next { s with
      line :=
        { lineDrive := false, crit := s.line.crit, bus := a.2
          hist := s.line.hist ++ [.driveLow s.params.tRstl, .release 70, .sample a.1, .release 410] }
      res := { bit := some (!a.1) }
      ready := none } := by
  rw [exec_reset, resetSlot_spec, resetSlot_level]
  rfl

/-- On an ideal bus RESET is true iff a device is attached (R75, R140). -/
theorem exec_reset_ideal {s : State} {devices : List Device} (h : s.line.bus = .ideal devices) :
    ∃ t, exec .reset s = .next t ∧ t.res.bit = some (!devices.isEmpty) := by
  refine ⟨_, exec_reset s, ?_⟩
  rw [State.present_res, resetSlot_level, h, answer_resetSlot_ideal]

/-- Settles O6: the one reset slot of `exec_reset_frame`, and on an ideal bus the level of `answer_resetSlot_ideal`. -/
theorem resetSamplesPresenceOnce : Obligations.ResetSamplesPresenceOnce :=
  ⟨by decide, exec_reset_frame, fun _ _ => exec_reset_ideal⟩

end Sys2Proof.Machine
end

section
/-! PROOFS. The bit and byte transceiver (R150 to R154): WRITE_BIT, READ_BIT, WRITE_BYTE and READ_BYTE, each with its
slots, its result and its frame. -/

namespace Sys2Proof.Machine

/-! ### What the four operations are -/

/-- WRITE_BIT is one write slot, and it presents no result (R150). -/
theorem exec_writeBit (b : Bool) (s : State) :
    exec (.writeBit b) s = .next ((s.withLine (s.line.writeSlot b)).present {}) := rfl

/-- READ_BIT is one read slot, and it presents the level sampled (R151). -/
theorem exec_readBit (s : State) :
    exec .readBit s = .next ((s.withLine s.line.readSlot.2).present { bit := some s.line.readSlot.1 }) := rfl

/-- WRITE_BYTE puts `ARG_BYTE` on the line, and it presents no result (R153). -/
theorem exec_writeByte (s : State) :
    exec .writeByte s = .next ((s.withLine (s.line.writeByte s.ops.byte)).present {}) := rfl

/-- READ_BYTE reads one byte off the line and presents it (R154). -/
theorem exec_readByte (s : State) :
    exec .readByte s = .next ((s.withLine s.line.readByte.2).present { byte := some s.line.readByte.1 }) := rfl

/-! ### WRITE_BIT and READ_BIT -/

/-- WRITE_BIT with its slot written out, 6/64 for a 1 and 60/10 for a 0, and nothing else changed (R150). -/
theorem exec_writeBit_frame (s : State) (b : Bool) :
    exec (.writeBit b) s = .next { s with
      line :=
        { lineDrive := false, crit := s.line.crit, bus := s.line.bus.written b
          hist := s.line.hist ++ if b then [.driveLow 6, .release 64] else [.driveLow 60, .release 10] }
      res := {}
      ready := none } := by
  rw [exec_writeBit, writeSlot_spec s.params]
  cases b
  case false => rfl
  case true => rfl

/-- The level of a read slot is the bus's answer to its one sample (R93, R151). -/
theorem readSlot_level (l : Line) :
    l.readSlot.1 = (l.bus.answer .readSlot (l.hist ++ [.critEnter, .driveLow 6, .release 9])).1 := by
  simp [Line.readSlot, Line.sample, Line.release, Line.driveLow, Line.critEnter, Config.tRdl, Config.tRds]

/-- READ_BIT with its slot written out: six events, the bus after its one answer, and nothing else changed (R151). -/
theorem exec_readBit_frame (s : State) :
    let a := s.line.bus.answer .readSlot (s.line.hist ++ [.critEnter, .driveLow 6, .release 9])
    exec .readBit s = .next { s with
      line :=
        { lineDrive := false, crit := false, bus := a.2
          hist := s.line.hist ++ [.critEnter, .driveLow 6, .release 9, .sample a.1, .critExit, .release 55] }
      res := { bit := some a.1 }
      ready := none } := by
  rw [exec_readBit, readSlot_spec s.params, readSlot_level]
  rfl

/-- Settles O7: the one write slot of `exec_writeBit_frame`. -/
theorem writeBitPutsOneWriteSlot : Obligations.WriteBitPutsOneWriteSlot :=
  ⟨by decide, by decide, exec_writeBit_frame⟩

/-- Settles O8: the one read slot of `exec_readBit_frame`. -/
theorem readBitPutsOneReadSlot : Obligations.ReadBitPutsOneReadSlot :=
  ⟨by decide, exec_readBit_frame⟩

/-! ### WRITE_BYTE -/

/-- Settles O9: the line after the eight slots is the one of `writeByte_spec`. -/
theorem writeByteSendsEightSlotsBitZeroFirst : Obligations.WriteByteSendsEightSlotsBitZeroFirst := by
  refine ⟨by decide, fun s => ?_⟩
  rw [exec_writeByte, writeByte_spec s.params]
  rfl

/-! ### READ_BYTE -/

/-- A byte read off the line: the read slots of its bits in order, the line idle after them (R152, R154). -/
theorem readByte_spec (p : Params) (l : Line) :
    l.readByte.2 =
      { lineDrive := false, crit := false, hist := l.hist ++ slotEvents p (readByteSlots l.readByte.1)
        bus := l.readByte.2.bus } := by
  rw [← (readByte_grows p l).hist]
  exact Line.eq_of_idle (readByte_idle l)

/-- The levels of a row of read slots on an oracle are its next answers in order (R74, R94). -/
theorem readBits_of_script {bits rest : List Bool} {choice : Nat} {past : List BusEvent} {l : Line}
    (h : l.bus = .oracle (bits ++ rest) choice past) : (l.readBits bits.length).1 = bits := by
  induction bits generalizing l with
  | nil => rfl
  | cons b bits ih =>
    have hlevel : l.readSlot.1 = b := by rw [readSlot_level, h]; rfl
    have hbus : l.readSlot.2.bus = .oracle (bits ++ rest) choice past := by rw [readSlot_spec default, h]; rfl
    exact congrArg₂ List.cons hlevel (ih hbus)

/-- Eight equal samples make the byte `0xFF` or `0x00` (R94, R154). -/
theorem byteOfBits_replicate (level : Bool) :
    byteOfBits (List.replicate 8 level) = if level then 0xFF else 0x00 := by
  cases level <;> decide

/-- The byte read where the next eight samples are equal (R154). -/
theorem readByte_of_constant {level : Bool} {script : List Bool} {choice : Nat} {past : List BusEvent} {l : Line}
    (h : l.bus = .oracle (List.replicate 8 level ++ script) choice past) :
    l.readByte.1 = if level then 0xFF else 0x00 := by
  have hbits : (l.readBits 8).1 = List.replicate 8 level := readBits_of_script h
  rw [Line.readByte, hbits, byteOfBits_replicate]

/-- READ_BYTE with its slots written out: the eight bits of the result in order, and nothing else changed (R154). -/
theorem exec_readByte_frame (s : State) :
    exec .readByte s = .next { s with
      line :=
        { lineDrive := false, crit := false, bus := s.line.readByte.2.bus
          hist := s.line.hist ++ slotEvents s.params (readByteSlots s.line.readByte.1) }
      res := { byte := some s.line.readByte.1 }
      ready := none } := by
  rw [exec_readByte, readByte_spec s.params]
  rfl

/-- Settles O10: the slots of `exec_readByte_frame`, and the two corner cases by `readByte_of_constant`. -/
theorem readByteAssemblesEightSamples : Obligations.ReadByteAssemblesEightSamples :=
  ⟨by decide, fun s => ⟨_, _, exec_readByte_frame s⟩,
    fun s _ _ _ _ h => ⟨_, exec_readByte s, congrArg some (readByte_of_constant h)⟩⟩

end Sys2Proof.Machine
end

section
/-! PROOFS. CRC8 (R170): the bit step as arithmetic, the register byte by byte, and what the instruction presents. -/

namespace Sys2Proof.Machine

/-- One bit step in numbers: the halved register, with `0x8C` added where the bit shifted out is not the data bit (R170). -/
theorem crcBit_toNat (c : Byte) (b : Bool) :
    (crcBit c b).toNat = if c.getLsbD 0 = b then c.toNat / 2 else (c.toNat / 2) ^^^ 0x8C := by
  have hhalf : (c >>> 1).toNat = c.toNat / 2 := by rw [BitVec.toNat_ushiftRight, Nat.shiftRight_one]
  by_cases h : c.getLsbD 0 = b
  · rw [crcBit, if_neg (by rw [h, Bool.xor_self]; decide), if_pos h, hhalf]
  · rw [crcBit, if_pos (by simpa using h), if_neg h, BitVec.toNat_xor, hhalf]
    rfl

/-- A byte more is one more byte fed into the register (R170). -/
theorem crc8_append_singleton (d : List Byte) (v : Byte) : crc8 (d ++ [v]) = crcByte (crc8 d) v :=
  List.foldl_concat ..

/-- With exactly the data it counts, CRC8 presents the register over all of it and changes nothing else (R170). -/
theorem exec_crc8_all {s : State} (h : s.ops.n = s.ops.data.length) :
    exec .crc8 s = .next { s with res := { byte := some (crc8 s.ops.data) }, ready := none } := by
  have hdata : dataBytes s.ops = s.ops.data := by rw [dataBytes, h, List.take_length]
  calc exec .crc8 s = execCrc8 s := rfl
    _ = .next (s.present (crcAnswer s.ops)) := execCrc8_ok h.le
    _ = .next (s.present { byte := some (crc8 s.ops.data) }) := by rw [crcAnswer, hdata]

/-- Settles O15: the answer of `exec_crc8_all`, the bytes in order by `crc8_append_singleton` with the bits of `byteBits`
fed bit 0 first, and the bit step by `crcBit_toNat`. -/
theorem crc8FollowsTheBitSerialRegister : Obligations.Crc8FollowsTheBitSerialRegister :=
  ⟨by decide, fun _ => exec_crc8_all, rfl, crc8_append_singleton, crcBit_toNat, by decide +kernel⟩

end Sys2Proof.Machine
end

section
/-! PROOFS. The sensor commands: SELECT_ALL (R214). -/

namespace Sys2Proof.Machine

/-- SELECT_ALL puts the byte `0xCC` on the line, and it presents no result (R214). -/
theorem exec_selectAll (s : State) :
    exec .selectAll s = .next ((s.withLine (s.line.writeByte 0xCC)).present {}) := rfl

/-- The bits of Skip-ROM, bit 0 first, are `0 0 1 1 0 0 1 1` (R153, R214). -/
theorem writtenByte_skipRom :
    writtenByte 0xCC =
      [.w false, .w false, .w true, .w true, .w false, .w false, .w true, .w true] := by decide

/-- Settles O27: the line after the byte is the one of `writeByte_spec`, its slots those of `writtenByte_skipRom`. -/
theorem selectAllSendsSkipRom : Obligations.SelectAllSendsSkipRom := by
  refine ⟨by decide, fun s => ?_⟩
  rw [exec_selectAll, writeByte_spec s.params, writtenByte_skipRom]
  rfl

end Sys2Proof.Machine
end

section
/-! PROOFS. The query GET_MIN over the valid records (R254, R255). -/

namespace Sys2Proof.Machine

/-- GET_MIN presents the least valid temperature and changes nothing else (R255). -/
theorem exec_getMin (s : State) :
    exec .getMin s = .next { s with res := { temp := some (minimumTemp s.params s.recs) }, ready := none } := rfl

/-- No temperature is valid iff no record is (R254). -/
theorem validTemps_eq_nil_iff (recs : List Record) : validTemps recs = [] ↔ ∀ r ∈ recs, r.valid = false := by
  simp [validTemps]

/-- Over an empty valid set the least temperature is the sentinel (R255). -/
theorem minimumTemp_of_none_valid (p : Params) {recs : List Record} (h : ∀ r ∈ recs, r.valid = false) :
    minimumTemp p recs = p.tempSentinel := by
  rw [minimumTemp, (validTemps_eq_nil_iff recs).2 h]

/-- Over a nonempty valid set the least temperature is a member of it, and no member is below it (R255). -/
theorem minimumTemp_least (p : Params) {recs : List Record} (h : ∃ r ∈ recs, r.valid = true) :
    minimumTemp p recs ∈ validTemps recs ∧ ∀ x ∈ validTemps recs, (minimumTemp p recs).toInt ≤ x.toInt := by
  rw [minimumTemp]
  cases hv : validTemps recs with
  | nil =>
    obtain ⟨r, hr, hvalid⟩ := h
    exact absurd hvalid (by simp [(validTemps_eq_nil_iff recs).1 hv r hr])
  | cons t rest => exact foldl_lesserTemp rest t

/-- Settles O44: `exec_getMin`, with `minimumTemp_of_none_valid` where no record is valid and `minimumTemp_least` where
one is, read back to the records by `mem_validTemps`. -/
theorem getMinPresentsTheLeastValid : Obligations.GetMinPresentsTheLeastValid := by
  refine ⟨by decide, fun s => ⟨_, exec_getMin s, minimumTemp_of_none_valid s.params, fun h => ?_⟩⟩
  obtain ⟨hmem, hle⟩ := minimumTemp_least s.params h
  exact ⟨(mem_validTemps _ _).1 hmem, fun r hr hvalid => hle _ ((mem_validTemps _ _).2 ⟨r, hr, hvalid, rfl⟩)⟩

end Sys2Proof.Machine
end

section
/-! PROOFS. The ticks of the polling scheduler: Convert (R245). -/

namespace Sys2Proof.Machine

/-- An effective ADVANCE in Convert starts the broadcast conversion, arms the countdown and goes to ConvertWait; it stores
the time and changes nothing else (R241, R245). -/
theorem exec_advance_convert {s : State} (hfsm : s.fsm = .convert)
    (htick : tickEffective s.params s.lastTime s.ops.time = true) :
    exec .advance s = .next { s with
      line := s.line.startConversion s.params none
      countdown := s.params.convertWaitTicks
      fsm := .convertWait
      lastTime := s.ops.time
      res := {}
      ready := none } :=
  calc exec .advance s = execAdvance s := rfl
    _ = .next ({ s with lastTime := s.ops.time }.present {}).tick := execAdvance_effective htick
    _ = .next ({ s with lastTime := s.ops.time }.present {}).convertTick := by rw [tick_convert (by simpa using hfsm)]

/-- Settles O38: the tick of `exec_advance_convert`, its line the one of `startConversion_spec` for the broadcast target. -/
theorem convertTickStartsABroadcastConversion : Obligations.ConvertTickStartsABroadcastConversion := by
  intro s hfsm htick a sent
  rw [exec_advance_convert hfsm htick, startConversion_spec]
  rfl

end Sys2Proof.Machine
end

section
/-! PROOFS. Words and steps (R114 to R117, R19): the round trip of the decoder, the reserved words, and which steps exist. -/

namespace Sys2Proof.Machine

/-! ### The decoder -/

/-- The decoder reads an instruction back from its one byte: the word is read on its own port (R115). -/
theorem decode_encode (i : Instr) (rest : List Byte) : decode (encode i ++ rest) = some (i, rest) := by
  simp only [encode, List.singleton_append, decode, portOf_encode, decodeAt_encode]

/-- Settles O2: `decode_encode`, and on its own port `decodeAt_encode`. -/
theorem decodeReadsBackEveryEncoding : Obligations.DecodeReadsBackEveryEncoding :=
  fun i rest => ⟨decode_encode i rest, decodeAt_encode i⟩

/-- Settles O1: the fifteen words, each evaluated. -/
theorem writtenOutWordsDecode : Obligations.WrittenOutWordsDecode := by
  unfold Obligations.WrittenOutWordsDecode
  decide

/-- The reserved operation words decode to nothing (R117 (a)). -/
theorem decodeOpw_reserved : ∀ w : Byte,
    (w.getLsbD 7 = true ∨ w.getLsbD 6 = true ∨ w.toNat % 32 = 0x0F ∨ 0x17 ≤ w.toNat % 32 ∨
      (w.getLsbD 5 = true ∧ w.toNat % 32 ∉ [0x01, 0x08, 0x09, 0x0C, 0x0E])) → decodeOpw w = none := by
  decide +kernel

/-! ### A call of the host -/

/-- With no search in flight, a word that decodes on its port is executed with its operands on the port (R115). -/
theorem step_call {s : State} {p : Port} {w : Byte} {ops : Operands} {cb : Option (List Call)} {rest : List HostInput}
    {i : Instr} (hf : s.inFlight = none) (hi : s.inputs = .call p w ops cb :: rest) (hd : decodeAt p w = some i) :
    step s = exec i { s with inputs := rest, ops := ops, argCb := cb } := by
  simp only [step, hf, hi, hd]

/-- With no search in flight, a word that does not decode on its port is refused (R117). -/
theorem step_call_reserved {s : State} {p : Port} {w : Byte} {ops : Operands} {cb : Option (List Call)}
    {rest : List HostInput} (hf : s.inFlight = none) (hi : s.inputs = .call p w ops cb :: rest)
    (hd : decodeAt p w = none) : step s = .refused .reservedEncoding := by
  simp only [step, hf, hi, hd]

/-- Settles O3: a reserved word decodes to nothing (`decodeOpw_reserved`), so its call is refused. -/
theorem reservedOperationWordsAreRefused : Obligations.ReservedOperationWordsAreRefused :=
  fun _ w _ _ _ hf hi hw => step_call_reserved hf hi (decodeOpw_reserved w hw)

/-- Settles O4: `step_call`. -/
theorem stepRunsTheDecodedInstruction : Obligations.StepRunsTheDecodedInstruction :=
  fun _ _ _ _ _ _ _ hf hi hd => step_call hf hi hd

/-! ### Which steps exist -/

theorem exec_discover_allowed {s : State} (h : s.fsm.allowsDiscover = true) (f : Bool) :
    exec (.discover f) s =
      .next (s.runSearch { capacity := s.params.nMax, alarmOnly := false, next := .discover f }) := if_pos h

theorem exec_discover_refused {s : State} (h : s.fsm.allowsDiscover = false) (f : Bool) :
    exec (.discover f) s = .refused .discoverMidCycle := if_neg (by simp [h])

/-- DISCOVER is allowed in Init and NoSensor, and in no other state (R260). -/
theorem allowsDiscover_iff (f : SchedulerState) : f.allowsDiscover = true ↔ f = .init ∨ f = .noSensor := by
  cases f <;> decide

/-- An instruction answers a next state exactly if its operands are there (R115) and, for DISCOVER, the scheduler allows
it (R260). -/
theorem exec_next_iff (i : Instr) (s : State) : (∃ t, exec i s = .next t) ↔
    operandsWf i s.ops = true ∧ ∀ f, i = .discover f → s.fsm.allowsDiscover = true := by
  cases i with
  | writeBytes | crc8 =>
    by_cases h : s.ops.n ≤ s.ops.data.length <;> simp [exec, execWriteBytes, execCrc8, h]
  | discover f =>
    cases h : s.fsm.allowsDiscover
    · simp [exec_discover_refused h]
    · simp [exec_discover_allowed h, operandsWf]
  | _ => exact ⟨fun _ => ⟨rfl, fun _ hd => by cases hd⟩, fun _ => ⟨_, rfl⟩⟩

/-- A step exists unless the block is asked for an operation that has none: the line has no part in it (R19, R115). -/
theorem step_next_iff (s : State) : (∃ t, step s = .next t) ↔
    s.inFlight ≠ none ∨ ∀ p w ops cb rest, s.inputs = .call p w ops cb :: rest →
      ∃ i, decodeAt p w = some i ∧ operandsWf i ops = true ∧
        ∀ f, i = .discover f → s.fsm.allowsDiscover = true := by
  rcases hf : s.inFlight with _ | f <;> rcases hi : s.inputs with _ | ⟨⟨p, w, ops, cb⟩ | b | _, rest⟩
  case none.cons.call =>
    cases hd : decodeAt p w with
    | none =>
      refine iff_of_false (by simp [step_call_reserved hf hi hd]) ?_
      rintro (h | h)
      · exact h rfl
      · obtain ⟨j, hj, -⟩ := h p w ops cb rest rfl
        simp [hd] at hj
    | some i =>
      rw [step_call hf hi hd, exec_next_iff]
      constructor
      · intro h
        refine .inr fun _ _ _ _ _ e => ?_
        cases e
        exact ⟨i, hd, h⟩
      · rintro (h | h)
        · exact absurd rfl h
        · obtain ⟨j, hj, hstep⟩ := h p w ops cb rest rfl
          cases hd.symm.trans hj
          exact hstep
  all_goals simp [step, hf, hi]

/-- Settles O57: by `step_next_iff` whether a step exists is said without the line. -/
theorem theBusNeverDecidesWhetherAStepExists : Obligations.TheBusNeverDecidesWhetherAStepExists := by
  intro s b
  rw [step_next_iff, step_next_iff]

/-- An instruction is refused only in a cycle, or for data shorter than its count (R115, R260). -/
theorem exec_refused {i : Instr} {s : State} {r : Refusal} (h : exec i s = .refused r) :
    (∃ f, i = .discover f) ∧ s.fsm.allowsDiscover = false ∧ r = .discoverMidCycle ∨
      (i = .writeBytes ∨ i = .crc8) ∧ s.ops.data.length < s.ops.n ∧ r = .dataShorterThanCount := by
  cases i with
  | discover f =>
    cases ha : s.fsm.allowsDiscover
    · rw [exec_discover_refused ha] at h
      cases h
      exact .inl ⟨⟨f, rfl⟩, rfl, rfl⟩
    · rw [exec_discover_allowed ha] at h
      cases h
  | writeBytes =>
    by_cases hn : s.ops.data.length < s.ops.n
    · have := (execWriteBytes_short hn).symm.trans h
      cases this
      exact .inr ⟨.inl rfl, hn, rfl⟩
    · cases (execWriteBytes_ok (Nat.le_of_not_lt hn)).symm.trans h
  | crc8 =>
    by_cases hn : s.ops.data.length < s.ops.n
    · have := (execCrc8_short hn).symm.trans h
      cases this
      exact .inr ⟨.inr rfl, hn, rfl⟩
    · cases (execCrc8_ok (Nat.le_of_not_lt hn)).symm.trans h
  | _ => cases h

/-- Outside Init and NoSensor DISCOVER is refused (R260). -/
theorem allowsDiscover_false_iff (f : SchedulerState) : f.allowsDiscover = false ↔ f ∉ [.init, .noSensor] := by
  cases f <;> decide

/-- Settles O56: the two refusals of `exec_refused`, each in every such state, and CRC8 over the data it counts. -/
theorem onlyTheNamedRefusals : Obligations.OnlyTheNamedRefusals := by
  refine ⟨fun i s r h => ?_, fun s f h => exec_discover_refused ((allowsDiscover_false_iff _).2 h) f,
    fun s h => ⟨execWriteBytes_short h, execCrc8_short h⟩, fun s h => execCrc8_ok h⟩
  simpa only [allowsDiscover_false_iff] using exec_refused h

/-- Settles O23: none of the four states of a cycle allows DISCOVER. -/
theorem discoverIsRefusedInACycle : Obligations.DiscoverIsRefusedInACycle := by
  intro s f h
  refine exec_discover_refused ?_ f
  revert h
  cases s.fsm <;> decide

end Sys2Proof.Machine
end

section
/-! PROOFS. What an instruction does, said once for all of them (`exec_effect`), with what a tick and a search can do; and
from it who writes what (R45), the whole slots (R68, R152) and the ready event (R252). -/

namespace Sys2Proof.Machine

/-! ### Ticks -/

/-- The state an effective ADVANCE ticks in: the time stored, nothing presented (R241). -/
def State.clocked (s : State) : State := { s with lastTime := s.ops.time }.present {}

theorem exec_advance_effective {s : State} (h : tickEffective s.params s.lastTime s.ops.time = true) :
    exec .advance s = .next s.clocked.tick := execAdvance_effective h

theorem exec_advance_early {s : State} (h : tickEffective s.params s.lastTime s.ops.time = false) :
    exec .advance s = .next (s.present {}) := execAdvance_early h

/-- The rows of the table of R243, with what each tick does (R244 to R250). -/
inductive Tick (s : State) : State → Prop where
  | search (hs : s.fsm = .init) : Tick s s.initTick
  | convert (hs : s.fsm = .convert) : Tick s s.convertTick
  | wait (hs : s.fsm = .convertWait ∨ s.fsm = .readWait) (hc : 1 < s.countdown.toNat) :
      Tick s { s with countdown := countDown s.countdown }
  | toRead (hs : s.fsm = .convertWait) (hc : s.countdown.toNat ≤ 1) :
      Tick s { s with countdown := 0, cursor := 0, fsm := .read }
  | readOne (hs : s.fsm = .read) (hc : s.cursor + 1 ≠ s.regCount) : Tick s s.readDevice
  | readLast (hs : s.fsm = .read) (hc : s.cursor + 1 = s.regCount) (hcb : s.cbSet = false) :
      Tick s s.readDevice.afterReady
  | fire (hs : s.fsm = .read) (hc : s.cursor + 1 = s.regCount) (hcb : s.cbSet = true) :
      Tick s s.readDevice.fireReady.afterReady
  | toConvert (hs : s.fsm = .readWait) (hc : s.countdown.toNat ≤ 1) :
      Tick s { s with countdown := 0, fsm := .convert }
  | rest (hs : s.fsm = .noSensor) : Tick s s

theorem countDown_of_le_one {c : Ticks} (h : c.toNat ≤ 1) : countDown c = 0 := (countDown_eq_zero c).2 h

theorem countDown_ne_zero {c : Ticks} (h : 1 < c.toNat) : ¬countDown c = 0 := by
  rw [countDown_eq_zero]
  omega

theorem convertWaitTick_wait {s : State} (h : 1 < s.countdown.toNat) :
    s.convertWaitTick = { s with countdown := countDown s.countdown } := if_neg (countDown_ne_zero h)

theorem convertWaitTick_leave {s : State} (h : s.countdown.toNat ≤ 1) :
    s.convertWaitTick = { s with countdown := 0, cursor := 0, fsm := .read } :=
  (if_pos (countDown_of_le_one h)).trans (by rw [countDown_of_le_one h])

theorem readWaitTick_wait {s : State} (h : 1 < s.countdown.toNat) :
    s.readWaitTick = { s with countdown := countDown s.countdown } := if_neg (countDown_ne_zero h)

theorem readWaitTick_leave {s : State} (h : s.countdown.toNat ≤ 1) :
    s.readWaitTick = { s with countdown := 0, fsm := .convert } :=
  (if_pos (countDown_of_le_one h)).trans (by rw [countDown_of_le_one h])

theorem readTick_before_last {s : State} (h : s.cursor + 1 ≠ s.regCount) : s.readTick = s.readDevice := if_neg h

theorem readTick_last {s : State} (h : s.cursor + 1 = s.regCount) :
    s.readTick = (if s.cbSet then s.readDevice.fireReady else s.readDevice).afterReady := if_pos h

/-- A tick is a row of the table. -/
theorem tick_row (s : State) : Tick s s.tick := by
  cases hs : s.fsm with
  | init => rw [tick_init hs]; exact .search hs
  | convert => rw [tick_convert hs]; exact .convert hs
  | convertWait =>
    rw [tick_convertWait hs]
    by_cases hc : s.countdown.toNat ≤ 1
    · rw [convertWaitTick_leave hc]; exact .toRead hs hc
    · rw [convertWaitTick_wait (Nat.lt_of_not_le hc)]; exact .wait (.inl hs) (Nat.lt_of_not_le hc)
  | readWait =>
    rw [tick_readWait hs]
    by_cases hc : s.countdown.toNat ≤ 1
    · rw [readWaitTick_leave hc]; exact .toConvert hs hc
    · rw [readWaitTick_wait (Nat.lt_of_not_le hc)]; exact .wait (.inr hs) (Nat.lt_of_not_le hc)
  | read =>
    rw [tick_read hs]
    by_cases hc : s.cursor + 1 = s.regCount
    · rw [readTick_last hc]
      cases hcb : s.cbSet
      · exact .readLast hs hc hcb
      · exact .fire hs hc hcb
    · rw [readTick_before_last hc]; exact .readOne hs hc
  | noSensor => rw [tick_noSensor hs]; exact .rest hs

/-! ### A search at the state -/

/-- What no search writes, and no ready event comes of it; only an Init tick's end writes the records and the scheduler's
state, and only a discovery the registry (R180, R210, R244). -/
structure SearchFrame (a : AfterSearch) (s t : State) : Prop where
  params : t.params = s.params
  inputs : t.inputs = s.inputs
  ops : t.ops = s.ops
  countdown : t.countdown = s.countdown
  cursor : t.cursor = s.cursor
  lastTime : t.lastTime = s.lastTime
  spBuf : t.spBuf = s.spBuf
  cbSet : t.cbSet = s.cbSet
  callback : t.callback = s.callback
  handed : t.handed = s.handed
  ready : t.ready = none
  records : a ≠ .initTick → t.recs = s.recs
  fsm : t.fsm = s.fsm ∨
    a = .initTick ∧ (t.fsm = .convert ∧ 0 < t.regCount ∨ t.fsm = .noSensor ∧ t.regCount = 0)
  registry : a = .report → t.reg = s.reg ∧ t.regCount = s.regCount

/-- The end of an Init tick goes to Convert if anything was found, else to NoSensor (R244). -/
theorem initReport_fsm (s : State) : s.initReport.fsm = .convert ∧ 0 < s.initReport.regCount ∨
    s.initReport.fsm = .noSensor ∧ s.initReport.regCount = 0 := by
  have e : s.initReport.fsm = if 0 < s.initReport.regCount then .convert else .noSensor := rfl
  rcases Nat.eq_zero_or_pos s.initReport.regCount with h | h
  · exact .inr ⟨by rw [e, if_neg (by omega)], h⟩
  · exact .inl ⟨by rw [e, if_pos h], h⟩

theorem continueSearch_frame (f : InFlight) (s : State) : SearchFrame f.next s (s.continueSearch f) := by
  rcases continueSearch_cases f s with ⟨-, e⟩ | ⟨-, e⟩ <;> rw [e]
  · cases f.next with
    | report =>
      exact ⟨rfl, rfl, rfl, rfl, rfl, rfl, rfl, rfl, rfl, rfl, rfl, fun _ => rfl, .inl rfl, fun _ => ⟨rfl, rfl⟩⟩
    | discover b =>
      exact ⟨rfl, rfl, rfl, rfl, rfl, rfl, rfl, rfl, rfl, rfl, rfl, fun _ => rfl, .inl rfl, fun h => by cases h⟩
    | initTick =>
      exact ⟨rfl, rfl, rfl, rfl, rfl, rfl, rfl, rfl, rfl, rfl, rfl, fun h => absurd rfl h,
        .inr ⟨rfl, initReport_fsm _⟩, fun h => by cases h⟩
  · exact ⟨rfl, rfl, rfl, rfl, rfl, rfl, rfl, rfl, rfl, rfl, rfl, fun _ => rfl, .inl rfl, fun _ => ⟨rfl, rfl⟩⟩

theorem runSearch_frame (f : InFlight) (s : State) : SearchFrame f.next s (s.runSearch f) := by
  -- the cleared registers are none of the elements the frame speaks of
  obtain ⟨h1, h2, h3, h4, h5, h6, h7, h8, h9, h10, h11, h12, h13, h14⟩ :=
    continueSearch_frame f { s with search := s.search.startSearch }
  exact ⟨h1, h2, h3, h4, h5, h6, h7, h8, h9, h10, h11, h12, h13, h14⟩

/-- What follows a search keeps the line its passes left. -/
theorem continueSearch_line (f : InFlight) (s : State) : (s.continueSearch f).line =
    (searchLoop Config.passBudget s.params f.capacity f.alarmOnly s.search s.line).2.2 := by
  rcases continueSearch_cases f s with ⟨-, e⟩ | ⟨-, e⟩ <;> rw [e]
  · exact (finishSearch_keeps f.next _).2.1
  · rfl

theorem runSearch_grows (f : InFlight) (s : State) : ∃ xs, s.line.Grows s.params (s.runSearch f).line xs := by
  rw [State.runSearch, continueSearch_line]
  exact searchLoop_grows ..

/-! ### What an instruction does -/

/-- The instructions that leave the line alone. -/
def lineless : List Instr := [.crc8, .getMin, .getMid, .getMax, .getAddresses, .setReadyCallback, .reinit]

/-- What an instruction does, by what it writes: the line alone, whole slots (with one wait for CONVERT_BLOCKING); nothing;
`SP_BUF`; the search registers and what follows a search; the scheduler; the callback slot (R45). -/
inductive Effect (s : State) : Instr → State → Prop where
  | slots {i : Instr} {l : Line} {xs : List Slot} {a : Answer} (hi : i ∉ lineless) (hb : ∀ b, i ≠ .convertBlocking b)
      (hl : s.line.Grows s.params l xs) : Effect s i ((s.withLine l).present a)
  | blocking {b : Bool} {l : Line} {xs : List Slot} (hl : s.line.Grows s.params l xs) :
      Effect s (.convertBlocking b) ((s.withLine (l.release s.params.tConvBlock)).present {})
  | query {i : Instr} {a : Answer} (hi : i ∈ [.crc8, .getMin, .getMid, .getMax, .getAddresses]) : Effect s i (s.present a)
  | readTemperature : Effect s .readTemperature (
      let r := s.line.readTemperature s.params s.ops.addr s.spBuf
      { s with spBuf := r.2.1, line := r.2.2 }.present { temp := some r.1 })
  | searchRom (b : Bool) :
      Effect s (.searchRom b) (s.runSearch { capacity := s.ops.n, alarmOnly := b, next := .report })
  | discover (b : Bool) (hs : s.fsm.allowsDiscover = true) : Effect s (.discover b)
      (s.runSearch { capacity := s.params.nMax, alarmOnly := false, next := .discover b })
  | early (ht : tickEffective s.params s.lastTime s.ops.time = false) : Effect s .advance (s.present {})
  | tick {t : State} (ht : tickEffective s.params s.lastTime s.ops.time = true) (hr : Tick s.clocked t) :
      Effect s .advance t
  | setReadyCallback : Effect s .setReadyCallback
      ({ s with cbSet := s.argCb.isSome, callback := s.argCb.getD [] }.present {})
  | reinit : Effect s .reinit ({ s with fsm := .init, countdown := 0, cursor := 0 }.present {})

theorem exec_effect {i : Instr} {s t : State} (h : exec i s = .next t) : Effect s i t := by
  have hn : ∃ t, exec i s = .next t := ⟨t, h⟩
  rw [exec_next_iff] at hn
  obtain ⟨hwf, hallowed⟩ := hn
  cases i with
  | reset => cases h; exact .slots (by decide) (by simp) (presence_grows _ _)
  | writeBit b => cases h; exact .slots (by cases b <;> decide) (by simp) (writeSlot_grows _ _ _)
  | readBit => cases h; exact .slots (by decide) (by simp) (readSlot_grows _ _)
  | readByte => cases h; exact .slots (by decide) (by simp) (readByte_grows _ _)
  | writeBytes =>
    cases (execWriteBytes_ok (by simpa using hwf)).symm.trans h
    exact .slots (by decide) (by simp) (writeBytes_grows _ _ _)
  | readBytes => cases h; exact .slots (by decide) (by simp) (readBytes_grows _ _ _)
  | selectAddressed => cases h; exact .slots (by decide) (by simp) (select_grows _ (some s.ops.addr) _)
  | startConversion b => cases h; exact .slots (by cases b <;> decide) (by simp) (startConversion_grows _ _ _)
  | convertBlocking b => cases h; exact .blocking (startConversion_grows _ _ _)
  | writeByte | selectAll | searchRomCmd | readRomCmd | matchRomCmd | skipRomCmd | alarmSearchCmd | convertTCmd
  | writeScratchpadCmd | readScratchpadCmd | copyScratchpadCmd | recallE2Cmd | readPowerSupplyCmd =>
    cases h; exact .slots (by decide) (by simp) (writeByte_grows _ _ _)
  | crc8 =>
    cases (execCrc8_ok (by simpa using hwf)).symm.trans h
    exact .query (by decide)
  | getMin | getMid | getMax | getAddresses => cases h; exact .query (by decide)
  | readTemperature => cases h; exact .readTemperature
  | searchRom b => cases h; exact .searchRom b
  | discover b =>
    have hs := hallowed b rfl
    cases (exec_discover_allowed hs b).symm.trans h
    exact .discover b hs
  | advance =>
    cases ht : tickEffective s.params s.lastTime s.ops.time
    · cases (exec_advance_early ht).symm.trans h
      exact .early ht
    · cases (exec_advance_effective ht).symm.trans h
      exact .tick ht (tick_row _)
  | setReadyCallback => cases h; exact .setReadyCallback
  | reinit => cases h; exact .reinit

/-! ### The ready event -/

/-- A ready event comes of one tick only, the last of a cycle with a callback registered (R252, R333). -/
theorem Tick.ready_some {s t : State} {e : ReadyEvent} (hr : Tick s t) (hs : s.ready = none) (he : t.ready = some e) :
    s.fsm = .read ∧ s.cbSet = true ∧ s.cursor + 1 = s.regCount ∧ t = s.readDevice.fireReady.afterReady ∧
      e.records = t.recs.take t.regCount ∧ e.count = t.regCount ∧ t.handed = some t.regCount := by
  cases hr with
  | search => cases (runSearch_frame _ s).ready.symm.trans he
  | fire hf hc hcb =>
    cases he
    exact ⟨hf, hcb, hc, rfl, rfl, rfl, rfl⟩
  | convert | wait | toRead | readOne | readLast | toConvert | rest => cases hs.symm.trans he

/-- Settles O53: of the effects only a tick presents a ready event, and of the ticks only that of `Tick.ready_some`. -/
theorem readyComesOnlyFromTheLastRead : Obligations.ReadyComesOnlyFromTheLastRead := by
  intro i s t e h he
  cases exec_effect h with
  | tick ht hr =>
    obtain ⟨hf, hcb, hc, rfl, hrec, hcount, hhand⟩ := hr.ready_some rfl he
    exact ⟨rfl, ht, hf, hcb, hc, rfl, hrec, hcount, hhand⟩
  | searchRom | discover => cases (runSearch_frame _ s).ready.symm.trans he
  | slots | blocking | query | readTemperature | early | setReadyCallback | reinit => cases he

/-! ### Who writes what -/

/-- What no tick writes (R45). -/
theorem Tick.keeps {s t : State} (h : Tick s t) : t.params = s.params ∧ t.inputs = s.inputs ∧ t.ops = s.ops ∧
    t.cbSet = s.cbSet ∧ t.callback = s.callback := by
  cases h with
  | search =>
    have f := runSearch_frame { capacity := s.params.nMax, alarmOnly := false, next := .initTick } s
    exact ⟨f.params, f.inputs, f.ops, f.cbSet, f.callback⟩
  | convert | wait | toRead | readOne | readLast | fire | toConvert | rest => exact ⟨rfl, rfl, rfl, rfl, rfl⟩

/-- The parameters, the host's inputs and the operands are written by nobody (R8, R115). -/
theorem Effect.port {s t : State} {i : Instr} (h : Effect s i t) :
    t.params = s.params ∧ t.inputs = s.inputs ∧ t.ops = s.ops := by
  cases h with
  | searchRom | discover =>
    exact ⟨(runSearch_frame _ s).params, (runSearch_frame _ s).inputs, (runSearch_frame _ s).ops⟩
  | tick _ hr =>
    obtain ⟨hp, hin, ho, -, -⟩ := hr.keeps
    exact ⟨hp, hin, ho⟩
  | slots | blocking | query | readTemperature | early | setReadyCallback | reinit => exact ⟨rfl, rfl, rfl⟩

/-- The records, the time and what was handed are ADVANCE's (R33, R41, R333). -/
theorem Effect.records {s t : State} {i : Instr} (h : Effect s i t) (hi : i ≠ .advance) :
    t.recs = s.recs ∧ t.lastTime = s.lastTime ∧ t.handed = s.handed := by
  cases h with
  | searchRom | discover =>
    exact ⟨(runSearch_frame _ s).records (by simp), (runSearch_frame _ s).lastTime, (runSearch_frame _ s).handed⟩
  | tick => exact absurd rfl hi
  | slots | blocking | query | readTemperature | early | setReadyCallback | reinit => exact ⟨rfl, rfl, rfl⟩

/-- The scheduler's elements are ADVANCE's and REINIT's (R38 to R40). -/
theorem Effect.scheduler {s t : State} {i : Instr} (h : Effect s i t) (hi : i ≠ .advance) (hr : i ≠ .reinit) :
    t.fsm = s.fsm ∧ t.countdown = s.countdown ∧ t.cursor = s.cursor := by
  cases h with
  | searchRom | discover =>
    exact ⟨(runSearch_frame _ s).fsm.resolve_right (by simp), (runSearch_frame _ s).countdown,
      (runSearch_frame _ s).cursor⟩
  | tick => exact absurd rfl hi
  | reinit => exact absurd rfl hr
  | slots | blocking | query | readTemperature | early | setReadyCallback => exact ⟨rfl, rfl, rfl⟩

/-- The registry is ADVANCE's and DISCOVER's (R30, R31). -/
theorem Effect.registry {s t : State} {i : Instr} (h : Effect s i t) (hi : i ≠ .advance) (hd : ∀ f, i ≠ .discover f) :
    t.reg = s.reg ∧ t.regCount = s.regCount := by
  cases h with
  | searchRom => exact (runSearch_frame _ s).registry rfl
  | discover f => exact absurd rfl (hd f)
  | tick => exact absurd rfl hi
  | slots | blocking | query | readTemperature | early | setReadyCallback | reinit => exact ⟨rfl, rfl⟩

/-- The search registers are ADVANCE's, DISCOVER's and SEARCH_ROM's (R23 to R28). -/
theorem Effect.search {s t : State} {i : Instr} (h : Effect s i t) (hi : i ≠ .advance) (hd : ∀ f, i ≠ .discover f)
    (hs : ∀ f, i ≠ .searchRom f) : t.search = s.search ∧ t.inFlight = s.inFlight := by
  cases h with
  | searchRom f => exact absurd rfl (hs f)
  | discover f => exact absurd rfl (hd f)
  | tick => exact absurd rfl hi
  | slots | blocking | query | readTemperature | early | setReadyCallback | reinit => exact ⟨rfl, rfl⟩

/-- `SP_BUF` is ADVANCE's and READ_TEMPERATURE's (R44). -/
theorem Effect.spBuf {s t : State} {i : Instr} (h : Effect s i t) (hi : i ≠ .advance) (hr : i ≠ .readTemperature) :
    t.spBuf = s.spBuf := by
  cases h with
  | searchRom | discover => exact (runSearch_frame _ s).spBuf
  | tick => exact absurd rfl hi
  | readTemperature => exact absurd rfl hr
  | slots | blocking | query | early | setReadyCallback | reinit => rfl

/-- The callback slot is SET_READY_CALLBACK's (R43). -/
theorem Effect.callback {s t : State} {i : Instr} (h : Effect s i t) (hi : i ≠ .setReadyCallback) :
    t.cbSet = s.cbSet ∧ t.callback = s.callback := by
  cases h with
  | searchRom | discover =>
    exact ⟨(runSearch_frame _ s).cbSet, (runSearch_frame _ s).callback⟩
  | tick _ hr =>
    obtain ⟨-, -, -, hcb, hcall⟩ := hr.keeps
    exact ⟨hcb, hcall⟩
  | setReadyCallback => exact absurd rfl hi
  | slots | blocking | query | readTemperature | early | reinit => exact ⟨rfl, rfl⟩

/-- The accessors, CRC8, SET_READY_CALLBACK and REINIT leave the line alone (R69). -/
theorem Effect.line_of_lineless {s t : State} {i : Instr} (h : Effect s i t) (hi : i ∈ lineless) : t.line = s.line := by
  cases h with
  | slots hn => exact absurd hi hn
  | query | early | setReadyCallback | reinit => rfl
  | blocking | readTemperature | searchRom | discover | tick => simp [lineless] at hi

/-- Settles O54: one lemma per owner. -/
theorem onlyTheOwnersWrite : Obligations.OnlyTheOwnersWrite := by
  intro i s t h
  have he := exec_effect h
  obtain ⟨hparams, hinputs, hops⟩ := he.port
  exact ⟨hparams, hinputs, hops, he.records, he.scheduler, he.registry, he.search, he.spBuf, he.callback,
    he.line_of_lineless⟩

/-! ### Whole slots -/

/-- A tick puts whole slots on the line (R68). -/
theorem Tick.grows {s t : State} (h : Tick s t) : ∃ xs, s.line.Grows s.params t.line xs := by
  cases h with
  | search => exact runSearch_grows _ s
  | convert => exact ⟨_, startConversion_grows _ _ _⟩
  | readOne | readLast | fire => exact readTemperature_grows _ _ _ _
  | wait | toRead | toConvert | rest => exact ⟨_, .refl _ _⟩

/-- Every instruction but CONVERT_BLOCKING puts whole slots on the line and no other event (R68, R152). -/
theorem Effect.grows {s t : State} {i : Instr} (h : Effect s i t) (hb : ∀ b, i ≠ .convertBlocking b) :
    ∃ xs, s.line.Grows s.params t.line xs := by
  cases h with
  | slots _ _ hl => exact ⟨_, hl⟩
  | blocking => exact absurd rfl (hb _)
  | readTemperature => exact readTemperature_grows _ _ _ _
  | searchRom | discover => exact runSearch_grows _ s
  | tick _ hr => exact hr.grows
  | query | early | setReadyCallback | reinit => exact ⟨_, .refl _ _⟩

/-- Settles O55: `Effect.grows`, and for CONVERT_BLOCKING the slots of START_CONVERSION and one release. -/
theorem theLineSeesOnlyWholeSlots : Obligations.TheLineSeesOnlyWholeSlots := by
  intro i s t h
  have he := exec_effect h
  by_cases hb : ∃ b, i = .convertBlocking b
  · rw [if_pos hb]
    obtain ⟨b, rfl⟩ := hb
    cases he with
    | slots _ hne => exact absurd rfl (hne b)
    | query hi => simp at hi
    | blocking hl =>
      exact ⟨⟨_, by rw [State.present_line, State.withLine_line, Line.release_hist, hl.hist]⟩,
        fun hidle => ⟨rfl, (hl.idle hidle).2⟩⟩
  · obtain ⟨xs, hxs⟩ := he.grows fun b e => hb ⟨b, e⟩
    rw [if_neg hb]
    exact ⟨⟨xs, by rw [hxs.hist, List.append_nil]⟩, hxs.idle⟩

end Sys2Proof.Machine
end

section
/-! PROOFS. The invariants of R48: they hold at reset and every step keeps them; and the transition table of R243. -/

namespace Sys2Proof.Machine

/-! ### Reset -/

/-- Settles O59: the ranges hold of the reset values, no record is valid, and Init is no state of the cycle. -/
theorem resetMeetsTheInvariant : Obligations.ResetMeetsTheInvariant := by
  intro p b
  refine ⟨⟨rfl, rfl⟩, ⟨Nat.le_refl 1, (by decide : 1 ≤ 64), Nat.zero_le _, Nat.zero_le _, rfl, nofun⟩,
    ⟨List.length_replicate, Nat.zero_le _, fun a ha => ?_, fun a ha => List.eq_of_mem_replicate ha⟩,
    ⟨List.length_replicate, fun r hr => ?_⟩,
    ⟨Nat.zero_le _, nofun, nofun, nofun⟩, List.length_replicate, trivial,
    nofun⟩
  · rw [show (State.resetWith p b).regCount = 0 from rfl, List.take_zero] at ha
    cases ha
  · rw [List.eq_of_mem_replicate hr]
    exact ⟨nofun, fun _ => rfl⟩

theorem resetEvent_inv (s : State) : s.resetEvent.Inv := resetMeetsTheInvariant _ _

/-! ### The line -/

/-- Another idle line leaves the invariants as they were. -/
theorem State.Inv.withLine {s : State} (h : s.Inv) {l : Line} (hl : l.idle) : (s.withLine l).Inv := ⟨hl, h.2⟩

theorem release_idle (t : Nat) {l : Line} (h : l.idle) : (l.release t).idle := ⟨rfl, h.2⟩

/-- The host's port has no part in the invariants. -/
theorem State.Inv.present {s : State} (h : s.Inv) (a : Answer) : (s.present a).Inv := h

theorem inFlightOk_of_none {s : State} (h : s.inFlight = none) : s.inFlightOk := by
  rw [State.inFlightOk, h]
  trivial

/-! ### Searches -/

/-- A discovery leaves a registry of checked addresses and zeros (R30, R31, R48, R210). -/
theorem replaceRegistry_registryOk (f : Bool) {s : State} (hq : s.search.inRange)
    (ho : s.search.out.length ≤ s.params.nMax) : (s.replaceRegistry f).registryOk := by
  obtain ⟨hlen, hcount, htake, hdrop⟩ := replaceRegistry_spec f s ho
  obtain ⟨-, -, -, -, -, hcrc⟩ := hq
  refine ⟨hlen, hcount, fun a ha => ?_, hdrop⟩
  rw [htake] at ha
  exact hcrc a ((retained_sublist _ _ _).subset ha)

/-- The fresh records of an Init tick: at the sentinel, active below the count (R244, R48). -/
theorem freshRecords_ok (p : Params) (n : Nat) : ∀ r ∈ freshRecords p n, r.ok p := by
  intro r hr
  obtain ⟨i, -, rfl⟩ := List.mem_map.1 hr
  exact ⟨nofun, fun _ => rfl⟩

theorem freshRecords_active (p : Params) (n : Nat) :
    (freshRecords p n).map (fun r => r.active) = (List.range p.nMax).map (fun i => decide (i < n)) := by
  rw [freshRecords, List.map_map]
  rfl

/-- The end of an Init tick meets what the scheduler's part asks (R244, R48). -/
theorem initReport_schedulerOk {s : State} (hc : s.cursor ≤ s.params.nMax) : s.initReport.schedulerOk := by
  rcases initReport_fsm s with ⟨hf, hn⟩ | ⟨hf, hn⟩
  · exact ⟨hc, fun _ => ⟨hn, freshRecords_active _ _⟩, (by rw [hf]; nofun), (by rw [hf]; nofun)⟩
  · refine ⟨hc, fun h => ?_, (by rw [hf]; nofun), fun _ r hr => ?_⟩
    · rw [State.inCycle, hf] at h
      cases h
    · have hr' : r ∈ freshRecords s.params s.initReport.regCount := hr
      rw [hn] at hr'
      obtain ⟨i, -, rfl⟩ := List.mem_map.1 hr'
      exact decide_eq_false (Nat.not_lt_zero i)

/-- A search with its capacity respected, run on or run to its end, keeps the invariants (R48, R195). -/
theorem continueSearch_inv {f : InFlight} {s : State} (h : State.Inv { s with inFlight := some f }) :
    (s.continueSearch f).Inv := by
  obtain ⟨hline, hq, hreg, hrec, hsched, hsp, ⟨hout, hnext⟩, hhand⟩ := h
  obtain ⟨kq, kout, xs, kl⟩ := searchLoop_keeps s.params f.capacity f.alarmOnly Config.passBudget s.search s.line hq hout
  have kline := kl.idle hline
  rcases continueSearch_cases f s with ⟨-, e⟩ | ⟨-, e⟩ <;> rw [e]
  · obtain ⟨cap, al, next⟩ := f
    cases next with
    | report => exact ⟨kline, kq, hreg, hrec, hsched, hsp, trivial, hhand⟩
    | discover b =>
      -- DISCOVER runs outside a cycle, so the new count is nobody's bound
      obtain ⟨hcap, hallow⟩ := hnext
      obtain ⟨hcur, -, hread, hno⟩ := hsched
      refine ⟨kline, kq, replaceRegistry_registryOk b kq (hcap ▸ kout), hrec,
        ⟨hcur, fun hc => ?_, fun hf => ?_, hno⟩,
        hsp, trivial, hhand⟩
      · cases hallow.symm.trans hc
      · have hf' : s.fsm = .read := hf
        rw [hf'] at hallow
        cases hallow
    | initTick =>
      obtain ⟨hcap, -⟩ := hnext
      obtain ⟨hcur, -⟩ := hsched
      exact ⟨kline, kq, replaceRegistry_registryOk true kq (hcap ▸ kout),
        ⟨by simp [State.finishSearch, State.initReport, freshRecords], freshRecords_ok _ _⟩,
        initReport_schedulerOk hcur, hsp, trivial, hhand⟩
  · exact ⟨kline, kq, hreg, hrec, hsched, hsp, ⟨kout, hnext⟩, hhand⟩

/-- A search that starts keeps the invariants, if what follows it is in order. -/
theorem runSearch_inv {f : InFlight} {s : State} (h : s.Inv)
    (hf : State.inFlightOk { s with search := s.search.startSearch, inFlight := some f }) : (s.runSearch f).Inv := by
  obtain ⟨hline, hq, hreg, hrec, hsched, hsp, -, hhand⟩ := h
  exact continueSearch_inv (s := { s with search := s.search.startSearch })
    ⟨hline, Search.startSearch_inRange hq, hreg, hrec, hsched, hsp, hf, hhand⟩

/-! ### Ticks -/

/-- A record just read is valid exactly if its temperature is not the sentinel (R35, R247). -/
theorem Record.update_ok (p : Params) (t : Temp) {r : Record} (h : r.active = true) : (r.update p t).ok p := by
  exact ⟨fun hv => ⟨h, by simpa [Record.update, readValid] using hv⟩,
    fun hv => by simpa [Record.update, readValid] using hv⟩

/-- With the cursor below the count, the record at the cursor is active (R34, R48). -/
theorem active_of_lt {p : Params} {recs : List Record} {n k : Nat} {r : Record}
    (h : recs.map (fun r => r.active) = (List.range p.nMax).map (fun i => decide (i < n))) (hk : k < n)
    (hr : recs[k]? = some r) : r.active = true := by
  have e : (recs.map (fun r => r.active))[k]? = some r.active := by rw [List.getElem?_map, hr]; rfl
  rw [h, List.getElem?_map] at e
  obtain ⟨i, hi, he⟩ := Option.map_eq_some_iff.1 e
  obtain ⟨hlt, rfl⟩ := List.getElem?_eq_some_iff.1 hi
  simpa [hk] using he.symm

/-- Reading a device changes no activity bit (R34, R247). -/
theorem map_active_modify (p : Params) (t : Temp) (recs : List Record) (k : Nat) :
    (recs.modify k (Record.update p t)).map (fun r => r.active) = recs.map (fun r => r.active) := by
  refine List.ext_getElem? fun i => ?_
  simp only [List.getElem?_map, List.getElem?_modify]
  cases recs[i]? with
  | none => rfl
  | some r => by_cases hik : k = i <;> simp [hik, Record.update]

/-- The record set after the read of the device at a cursor below the count (R48, R247). -/
theorem readDevice_recordsOk {s : State} (h : s.recordsOk) (hk : s.cursor < s.regCount)
    (ha : s.recs.map (fun r => r.active) = (List.range s.params.nMax).map (fun i => decide (i < s.regCount))) :
    s.readDevice.recordsOk := by
  obtain ⟨hlen, hok⟩ := h
  refine ⟨by simpa [State.readDevice] using hlen, fun r hr => ?_⟩
  obtain ⟨i, hi⟩ := List.mem_iff_getElem?.1 hr
  rw [show s.readDevice.recs = s.recs.modify s.cursor (Record.update s.params _) from rfl, List.getElem?_modify] at hi
  obtain ⟨r', hr', rfl⟩ := Option.map_eq_some_iff.1 hi
  by_cases hik : s.cursor = i
  · subst hik
    rw [if_pos rfl]
    exact Record.update_ok _ _ (active_of_lt ha hk hr')
  · rw [if_neg hik]
    exact hok r' (List.mem_of_getElem? hr')

/-- The parts of the invariants the read of one device keeps, whatever comes of the cursor (R247, R48). -/
theorem readDevice_keeps {s : State} (h : s.Inv) (hs : s.fsm = .read) :
    s.readDevice.line.idle ∧ s.readDevice.recordsOk ∧ s.readDevice.spBuf.length = 9 ∧ 1 ≤ s.regCount ∧
      s.readDevice.recs.map (fun r => r.active) = (List.range s.params.nMax).map (fun i => decide (i < s.regCount)) ∧
      s.cursor < s.regCount ∧ s.regCount ≤ s.params.nMax := by
  obtain ⟨hline, -, ⟨-, hcount, -⟩, hrec, ⟨-, hcyc, hread, -⟩, hsp, -, -⟩ := h
  obtain ⟨hpos, hact⟩ := hcyc (by rw [State.inCycle, hs]; rfl)
  obtain ⟨xs, hg⟩ := readTemperature_grows s.params (s.reg.getD s.cursor 0) s.spBuf s.line
  exact ⟨hg.idle hline, readDevice_recordsOk hrec (hread hs) hact, readTemperature_spBuf _ _ _ _ hsp, hpos,
    (map_active_modify _ _ _ _).trans hact, hread hs, hcount⟩

/-- Every tick keeps the invariants; none begins with a search in flight (R48, R243). -/
theorem Tick.inv {s t : State} (hr : Tick s t) (h : s.Inv) (hf : s.inFlight = none) : t.Inv := by
  have hinv := h
  obtain ⟨hline, hq, hreg, hrec, ⟨hcur, hcyc, hread, hno⟩, hsp, hfl, hhand⟩ := h
  cases hr with
  | search hs => exact runSearch_inv hinv ⟨Nat.zero_le _, rfl, hs⟩
  | convert hs =>
    have hcyc' := hcyc (by rw [State.inCycle, hs]; rfl)
    exact ⟨(startConversion_grows s.params none s.line).idle hline, hq, hreg, hrec,
      ⟨hcur, fun _ => hcyc', nofun, nofun⟩, hsp, inFlightOk_of_none hf, hhand⟩
  | wait => exact hinv
  | toRead hs =>
    have hcyc' := hcyc (by rw [State.inCycle, hs]; rfl)
    exact ⟨hline, hq, hreg, hrec, ⟨Nat.zero_le _, fun _ => hcyc', fun _ => hcyc'.1, nofun⟩, hsp,
      inFlightOk_of_none hf, hhand⟩
  | readOne hs hc =>
    obtain ⟨kline, krec, ksp, hpos, kact, hlt, hcount⟩ := readDevice_keeps hinv hs
    have hlt' : s.cursor + 1 < s.regCount := by omega
    exact ⟨kline, hq, hreg, krec, ⟨hlt'.le.trans hcount, fun _ => ⟨hpos, kact⟩, fun _ => hlt',
      fun h => nomatch hs.symm.trans h⟩, ksp, inFlightOk_of_none hf, hhand⟩
  | readLast hs hc =>
    obtain ⟨kline, krec, ksp, hpos, kact, hlt, hcount⟩ := readDevice_keeps hinv hs
    exact ⟨kline, hq, hreg, krec, ⟨hc.le.trans hcount, fun _ => ⟨hpos, kact⟩, nofun, nofun⟩, ksp,
      inFlightOk_of_none hf, hhand⟩
  | fire hs hc =>
    obtain ⟨kline, krec, ksp, hpos, kact, hlt, hcount⟩ := readDevice_keeps hinv hs
    exact ⟨kline, hq, hreg, krec, ⟨hc.le.trans hcount, fun _ => ⟨hpos, kact⟩, nofun, nofun⟩, ksp,
      inFlightOk_of_none hf, fun n hn => Option.some.inj hn ▸ hcount⟩
  | toConvert hs =>
    have hcyc' := hcyc (by rw [State.inCycle, hs]; rfl)
    exact ⟨hline, hq, hreg, hrec, ⟨hcur, fun _ => hcyc', nofun, nofun⟩, hsp,
      inFlightOk_of_none hf, hhand⟩
  | rest => exact hinv

/-! ### Instructions and steps -/

/-- Every instruction keeps the invariants; none begins with a search in flight (R48). -/
theorem Effect.inv {s t : State} {i : Instr} (he : Effect s i t) (h : s.Inv) (hf : s.inFlight = none) : t.Inv := by
  obtain ⟨hline, hq, hreg, hrec, ⟨hcur, -, -, -⟩, hsp, hfl, hhand⟩ := id h
  cases he with
  | slots _ _ hl => exact (h.withLine (hl.idle hline)).present _
  | blocking hl => exact (h.withLine (release_idle _ (hl.idle hline))).present _
  | query | early | setReadyCallback => exact h
  | readTemperature =>
    obtain ⟨xs, hg⟩ := readTemperature_grows s.params s.ops.addr s.spBuf s.line
    obtain ⟨-, -, -, -, hsched, -, -, -⟩ := h
    exact ⟨hg.idle hline, hq, hreg, hrec, hsched, readTemperature_spBuf _ _ _ _ hsp, hfl, hhand⟩
  | searchRom => exact runSearch_inv h ⟨Nat.zero_le _, trivial⟩
  | discover _ hs => exact runSearch_inv h ⟨Nat.zero_le _, rfl, hs⟩
  | tick _ hr => exact hr.inv (s := s.clocked) h hf
  | reinit =>
    exact ⟨hline, hq, hreg, hrec, ⟨Nat.zero_le _, nofun, nofun, nofun⟩, hsp,
      inFlightOk_of_none hf, hhand⟩

/-- Settles O60: a case for each of the five forms of a step; a call by `Effect.inv`, a search in flight by
`continueSearch_inv`. -/
theorem everyStepKeepsTheInvariant : Obligations.EveryStepKeepsTheInvariant := by
  intro s t h hstep
  rcases step_next_cases hstep with ⟨rest, -, rfl⟩ | ⟨f, hf, -, rfl⟩ | ⟨-, -, rfl⟩ | ⟨b, rest, -, -, rfl⟩ |
    ⟨p, w, ops, cb, rest, i, hf, -, -, he⟩
  · exact resetEvent_inv _
  · exact continueSearch_inv (by rwa [← hf])
  · exact h
  · exact State.Inv.withLine (s := { s with inputs := rest }) h h.1
  · exact (exec_effect he).inv (s := { s with inputs := rest, ops := ops, argCb := cb }) h hf

/-! ### The transition table -/

/-- No command byte is an instruction of the operation port. -/
theorem encodePort_of_lineCommand {w : Byte} {i : Instr} (h : decodeLineCommand w = some i) :
    encodePort i = .lineCommand := by
  unfold decodeLineCommand at h
  split at h <;> cases h <;> rfl

/-- An instruction of the operation port is called there. -/
theorem decodeOpw_of_decodeAt {p : Port} {w : Byte} {i : Instr} (h : decodeAt p w = some i)
    (hi : encodePort i = .operation) : p = .operation ∧ decodeOpw w = some i := by
  cases p with
  | operation => exact ⟨rfl, h⟩
  | lineCommand => cases hi.symm.trans (encodePort_of_lineCommand h)

/-- A tick that changes the state is a row of the table of R243, with what the row says of the countdown, the cursor and
the count. -/
theorem Tick.moves {s t : State} (h : Tick s t) (hne : t.fsm ≠ s.fsm) :
    s.fsm = .init ∧ t.fsm = .convert ∧ 0 < t.regCount ∨
      s.fsm = .init ∧ t.fsm = .noSensor ∧ t.regCount = 0 ∨
      s.fsm = .convert ∧ t.fsm = .convertWait ∧ t.countdown = s.params.convertWaitTicks ∨
      s.fsm = .convertWait ∧ t.fsm = .read ∧ t.countdown = 0 ∧ t.cursor = 0 ∨
      s.fsm = .read ∧ t.fsm = .readWait ∧ t.cursor = t.regCount ∧ t.countdown = s.params.cycleDelayTicks ∨
      s.fsm = .readWait ∧ t.fsm = .convert ∧ t.countdown = 0 := by
  cases h with
  | search hs =>
    rcases ((runSearch_frame _ s).fsm.resolve_left hne).2 with hm | hm
    · exact .inl ⟨hs, hm⟩
    · exact .inr (.inl ⟨hs, hm⟩)
  | convert hs => exact .inr (.inr (.inl ⟨hs, rfl, rfl⟩))
  | toRead hs => exact .inr (.inr (.inr (.inl ⟨hs, rfl, rfl, rfl⟩)))
  | readLast hs hc | fire hs hc => exact .inr (.inr (.inr (.inr (.inl ⟨hs, rfl, hc, rfl⟩))))
  | toConvert hs => exact .inr (.inr (.inr (.inr (.inr ⟨hs, rfl, rfl⟩))))
  | wait | readOne | rest => exact absurd rfl hne

/-- An ADVANCE that changes the state is an effective one (R241). -/
theorem Effect.tick_of_moves {s t : State} (h : Effect s .advance t) (hne : t.fsm ≠ s.fsm) :
    tickEffective s.params s.lastTime s.ops.time = true ∧ Tick s.clocked t := by
  cases h with
  | tick ht hr => exact ⟨ht, hr⟩
  | slots | query | early => exact absurd rfl hne

/-- Settles O52: the scheduler's state changes in a tick, a row of `Tick`; at the end of an Init tick's search in flight;
and by REINIT and the reset event. -/
theorem schedulerMovesOnlyAlongTheTable : Obligations.SchedulerMovesOnlyAlongTheTable := by
  intro s t h hstep hne
  rcases step_next_cases hstep with ⟨rest, hi, rfl⟩ | ⟨f, hf, -, rfl⟩ | ⟨-, -, rfl⟩ | ⟨b, rest, -, -, rfl⟩ |
    ⟨p, w, ops, cb, rest, i, hf, hi, hd, he⟩
  · exact .inr ⟨rfl, .inl ⟨rest, hi⟩⟩
  · obtain ⟨hnext, hmoves⟩ := (continueSearch_frame f s).fsm.resolve_left hne
    obtain ⟨-, -, -, -, -, -, hfl, -⟩ := h
    have hinit : s.fsm = .init := by
      rw [State.inFlightOk, hf] at hfl
      obtain ⟨-, hfl⟩ := hfl
      rw [hnext] at hfl
      exact hfl.2
    refine .inl ⟨.inl ⟨by simp [hf], hinit⟩, ?_⟩
    rcases hmoves with hm | hm
    · exact .inl ⟨hinit, hm⟩
    · exact .inr (.inl ⟨hinit, hm⟩)
  · exact absurd rfl hne
  · exact absurd rfl hne
  · have heff := exec_effect he
    by_cases hadv : i = .advance
    · subst hadv
      obtain ⟨rfl, hw⟩ := decodeOpw_of_decodeAt hd rfl
      obtain ⟨ht, hr⟩ := heff.tick_of_moves hne
      exact .inl ⟨.inr ⟨w, ops, cb, rest, hi, hw, ht⟩, hr.moves hne⟩
    · by_cases hre : i = .reinit
      · subst hre
        obtain ⟨rfl, hw⟩ := decodeOpw_of_decodeAt hd rfl
        cases he
        exact .inr ⟨rfl, .inr ⟨w, ops, cb, rest, hi, hw⟩⟩
      · exact absurd (heff.scheduler hadv hre).1 hne

end Sys2Proof.Machine
end

section
/-! PROOFS. WRITE_BYTES and READ_BYTES (R155, R156), the stream law (R157) and the command bytes (R100 to R111). -/

namespace Sys2Proof.Machine

/-! ### WRITE_BYTES and READ_BYTES -/

/-- With enough data WRITE_BYTES sends the bytes it counts, and an idle host line stays as it was for none (R155, D35). -/
theorem exec_writeBytes_frame {s : State} (h : s.ops.n ≤ s.ops.data.length) :
    exec .writeBytes s = .next { s with
      line :=
        { lineDrive := if s.ops.n = 0 then s.line.lineDrive else false
          crit := s.line.crit
          bus := ((dataBytes s.ops).flatMap byteBits).foldl (fun b x => b.written x) s.line.bus
          hist := s.line.hist ++ slotEvents s.params (writtenBytes (dataBytes s.ops)) }
      res := {}
      ready := none } := by
  have hnil : dataBytes s.ops = [] ↔ s.ops.n = 0 := by
    rw [← List.length_eq_zero_iff, dataBytes, List.length_take, Nat.min_eq_left h]
  have hspec := writeBytes_spec s.params (dataBytes s.ops) s.line
  simp only [hnil] at hspec
  rw [show exec .writeBytes s = execWriteBytes s from rfl, execWriteBytes_ok h, hspec]
  rfl

/-- Settles O11: `exec_writeBytes_frame`, and the refusal of `execWriteBytes_short`. -/
theorem writeBytesSendsInIndexOrder : Obligations.WriteBytesSendsInIndexOrder :=
  fun _ => ⟨exec_writeBytes_frame, execWriteBytes_short⟩

/-- Bytes read off the line: their read slots in order, the line idle after the first (R152, R156). -/
theorem readBytes_spec (p : Params) (n : Nat) (l : Line) :
    (l.readBytes n).2 =
      { lineDrive := if n = 0 then l.lineDrive else false
        crit := if n = 0 then l.crit else false
        hist := l.hist ++ slotEvents p (readBytesSlots (l.readBytes n).1)
        bus := (l.readBytes n).2.bus } := by
  rw [← (readBytes_grows p n l).hist]
  cases n with
  | zero => rfl
  | succ k => exact Line.eq_of_idle (readBytes_idle k l)

/-- READ_BYTES reads `ARG_N` bytes off the line and presents them (R156). -/
theorem exec_readBytes (s : State) : exec .readBytes s =
    .next ((s.withLine (s.line.readBytes s.ops.n).2).present { data := some (s.line.readBytes s.ops.n).1 }) := rfl

/-- Settles O12: the bytes and the line of `readBytes_spec`. -/
theorem readBytesStoresInIndexOrder : Obligations.ReadBytesStoresInIndexOrder := by
  refine fun s => ⟨(s.line.readBytes s.ops.n).1, (s.line.readBytes s.ops.n).2.bus, readBytes_length _ _, ?_⟩
  rw [exec_readBytes, readBytes_spec s.params]
  rfl

/-! ### The stream law -/

theorem bytesOneByOne_eq (n : Nat) (s : State) : bytesOneByOne n s = s.line.readBytes n := by
  induction n generalizing s with
  | zero => rfl
  | succ k ih =>
    simp only [bytesOneByOne, exec_readByte, ih]
    rfl

theorem bitsOneByOne_eq (n : Nat) (s : State) : bitsOneByOne n s = s.line.readBits n := by
  induction n generalizing s with
  | zero => rfl
  | succ k ih =>
    simp only [bitsOneByOne, exec_readBit, ih]
    rfl

theorem writtenOneByOne_eq (bits : List Bool) (s : State) : writtenOneByOne bits s = s.line.writeBits bits := by
  induction bits generalizing s with
  | nil => rfl
  | cons b rest ih =>
    simp only [writtenOneByOne, exec_writeBit, ih]
    rfl

theorem writeBits_append (xs ys : List Bool) (l : Line) : l.writeBits (xs ++ ys) = (l.writeBits xs).writeBits ys := by
  induction xs generalizing l with
  | nil => rfl
  | cons b rest ih => exact ih _

/-- Bytes written are their bits written, in order (R153, R155). -/
theorem writeBytes_eq_writeBits (data : List Byte) (l : Line) :
    l.writeBytes data = l.writeBits (data.flatMap byteBits) := by
  induction data generalizing l with
  | nil => rfl
  | cons v rest ih => rw [List.flatMap_cons, writeBits_append, Line.writeBytes, ih, Line.writeByte]

/-- Settles O13: one by one, the operations do to the line what the operation on the whole does. -/
theorem streamLaw : Obligations.StreamLaw := by
  refine ⟨fun s => ⟨_, exec_readBytes s, ?_, ?_⟩, fun s => ⟨_, _, exec_readByte s, rfl, ?_, ?_⟩,
    fun s h => ⟨_, execWriteBytes_ok h, ?_⟩⟩
  · rw [bytesOneByOne_eq]; rfl
  · rw [bytesOneByOne_eq]; rfl
  · rw [bitsOneByOne_eq]
    exact byteBits_byteOfBits (readBits_length 8 _)
  · rw [bitsOneByOne_eq]; rfl
  · rw [writtenOneByOne_eq, ← writeBytes_eq_writeBits]
    rfl

/-! ### The command bytes -/

/-- A command byte with its eight slots written out, and nothing else changed (R94, R111). -/
theorem putCommand_frame (c : Byte) (s : State) : s.putCommand c = { s with
    line :=
      { lineDrive := false, crit := s.line.crit, bus := (byteBits c).foldl (fun b y => b.written y) s.line.bus
        hist := s.line.hist ++ slotEvents s.params (writtenByte c) }
    res := {}
    ready := none } := by
  rw [State.putCommand_eq, writeByte_spec s.params]
  rfl

/-- Settles O14: each of the eleven arms is `putCommand` of its byte, with the slots of `putCommand_frame`. -/
theorem lineCommandsSendTheirByte : Obligations.LineCommandsSendTheirByte := by
  intro s
  have h : ∀ c : Byte, Host.Outcome.next (φ := Fault) (ρ := Refusal) (s.putCommand c) = .next _ :=
    fun c => congrArg _ (putCommand_frame c s)
  simp only [List.forall_mem_cons]
  exact ⟨h 0xF0, h 0x33, h 0x55, h 0xCC, h 0xEC, h 0x44, h 0x4E, h 0xBE, h 0x48, h 0xB8, h 0xB4, nofun⟩

end Sys2Proof.Machine
end

section
/-! PROOFS. CRC-8: the residue law (R172) and the corner cases (R173). -/

namespace Sys2Proof.Machine

/-- The register cancels against the byte that equals it (R172). -/
theorem crcByte_self : ∀ v : Byte, crcByte v v = 0 := by decide +kernel

/-- Eight bit steps with data 0 lose nothing: only the zero register comes to zero (R170). -/
theorem crcByte_zero_right : ∀ c : Byte, crcByte c 0 = 0 → c = 0 := by decide +kernel

/-- The register comes to zero after a byte exactly if it equalled the byte: by linearity the step depends on the
difference of the two alone (R172). -/
theorem crcByte_eq_zero_iff (c v : Byte) : crcByte c v = 0 ↔ c = v := by
  have hsplit : crcByte c v = crcByte (c ^^^ v) 0 := by
    simpa [BitVec.xor_assoc, crcByte_self] using crcByte_xor (c ^^^ v) v 0 v
  rw [hsplit]
  constructor
  · intro h
    exact BitVec.xor_eq_zero_iff.1 (crcByte_zero_right _ h)
  · rintro rfl
    rw [BitVec.xor_self]
    exact crcByte_self 0

/-- Settles O16: the two forms of the check agree by `crcByte_eq_zero_iff`; the residue is the case of the CRC itself. -/
theorem crcResidueLaw : Obligations.CrcResidueLaw := by
  have h : ∀ (d : List Byte) (v : Byte), crc8 d = v ↔ crc8 (d ++ [v]) = 0 := fun d v => by
    rw [crc8_append_singleton, crcByte_eq_zero_iff]
  exact ⟨fun d => (h d _).1 rfl, h⟩

/-- Zero bytes leave the zero register zero (R173). -/
theorem crc8_replicate_zero (n : Nat) : crc8 (List.replicate n 0x00) = 0x00 := by
  induction n with
  | zero => rfl
  | succ k ih =>
    rw [List.replicate_succ', crc8_append_singleton, ih]
    exact crcByte_self 0

/-- Settles O17: `crc8_replicate_zero`, and the seven fixed lists evaluated. -/
theorem crcCornerCases : Obligations.CrcCornerCases :=
  ⟨rfl, crc8_replicate_zero, by decide +kernel, by decide +kernel, by decide +kernel, by decide +kernel,
    by decide +kernel, by decide +kernel⟩

end Sys2Proof.Machine
end

section
/-! PROOFS. Addresses (R63, R98), selection, conversion and reading (R213 to R226). -/

namespace Sys2Proof.Machine

/-! ### Addresses -/

theorem addrByte_toNat (a : Addr) (k : Nat) : (addrByte a k).toNat = a.toNat / 2 ^ (8 * k) % 256 := by
  rw [addrByte, BitVec.extractLsb'_toNat, Nat.shiftRight_eq_div_pow]

/-- The eight bytes of an address put together are the address (R98). -/
theorem addrOfBytes_addrBytes (a : Addr) : addrOfBytes (addrBytes a) = a := by
  apply BitVec.eq_of_toNat_eq
  have := a.isLt
  simp only [addrOfBytes, addrBytes, bytesValue, addrByte_toNat, BitVec.toNat_ofNat]
  omega

/-- Eight bytes put together come apart into the same bytes (R98). -/
theorem addrBytes_addrOfBytes (b0 b1 b2 b3 b4 b5 b6 b7 : Byte) :
    addrBytes (addrOfBytes [b0, b1, b2, b3, b4, b5, b6, b7]) = [b0, b1, b2, b3, b4, b5, b6, b7] := by
  have := b0.isLt
  have := b1.isLt
  have := b2.isLt
  have := b3.isLt
  have := b4.isLt
  have := b5.isLt
  have := b6.isLt
  have := b7.isLt
  simp only [addrBytes, List.cons.injEq, ← BitVec.toNat_inj, addrByte_toNat, addrOfBytes, bytesValue,
    BitVec.toNat_ofNat]
  refine ⟨?_, ?_, ?_, ?_, ?_, ?_, ?_, ?_, trivial⟩ <;> omega

/-- Settles O35: the two round trips, and the bits in order by `positionBit_eq` and `addrBits_eq`. -/
theorem addressLayout : Obligations.AddressLayout := by
  refine ⟨addrOfBytes_addrBytes, addrBytes_addrOfBytes, fun a p h1 h2 => ⟨positionBit_eq a p, ?_⟩⟩
  rw [addrBits_eq, List.getElem?_map, List.getElem?_range (by omega), Option.map_some, Nat.sub_add_cancel h1]

/-! ### Selection and conversion -/

/-- Settles O26: Match-ROM and the address are one row of bytes, sent as `writeBytes_spec` says. -/
theorem selectAddressedSendsMatchRomAndTheAddress : Obligations.SelectAddressedSendsMatchRomAndTheAddress := by
  intro s a sent
  have h : s.line.selectAddressed a = s.line.writeBytes sent := rfl
  calc exec .selectAddressed s = .next ((s.withLine (s.line.selectAddressed a)).present {}) := rfl
    _ = _ := by rw [h, writeBytes_spec s.params]; rfl

/-- START_CONVERSION with its frame written out (R216). -/
theorem exec_startConversion (b : Bool) (s : State) : exec (.startConversion b) s =
    .next ((s.withLine (s.line.startConversion s.params (conversionTarget b s.ops))).present {}) := rfl

/-- The bytes of the selection of a two-way target (R216, D36). -/
theorem selectionBytes_conversionTarget (b : Bool) (o : Operands) :
    selectionBytes (conversionTarget b o) = if b then [0xCC] else 0x55 :: addrBytes o.addr := by
  cases b <;> rfl

/-- Settles O28: the line of `startConversion_spec`, for the target of the operand. -/
theorem startConversionSendsItsFrame : Obligations.StartConversionSendsItsFrame := by
  intro s b
  rw [exec_startConversion, startConversion_spec, selectionBytes_conversionTarget]
  rfl

/-- Settles O29: the wait is one release on a line that START_CONVERSION has left released. -/
theorem convertBlockingAddsTheWait : Obligations.ConvertBlockingAddsTheWait := by
  refine fun s b => ⟨_, exec_startConversion b s, ?_⟩
  have hdrive : (s.line.startConversion s.params (conversionTarget b s.ops)).lineDrive = false := by
    rw [startConversion_spec]
  calc exec (.convertBlocking b) s = .next ((s.withLine
        ((s.line.startConversion s.params (conversionTarget b s.ops)).release s.params.tConvBlock)).present {}) := rfl
    _ = _ := by rw [Line.release, ← hdrive]; rfl

/-! ### READ_TEMPERATURE -/

/-- READ_TEMPERATURE writes `SP_BUF` and the line, and presents its result (R218). -/
theorem exec_readTemperature (s : State) : exec .readTemperature s = .next { s with
    spBuf := (s.line.readTemperature s.params s.ops.addr s.spBuf).2.1
    line := (s.line.readTemperature s.params s.ops.addr s.spBuf).2.2
    res := { temp := some (s.line.readTemperature s.params s.ops.addr s.spBuf).1 }
    ready := none } := rfl

/-- The line when an addressed read has sent its frame after a reset slot with presence (R97, R218). -/
theorem addressedFrame_spec {p : Params} {l : Line} (h : (l.resetSlot p).1 = false) (a : Addr) :
    let sent : List Byte := 0x55 :: addrBytes a ++ [0xBE]
    ((l.resetSlot p).2.selectAddressed a).writeByte 0xBE =
      { lineDrive := false, crit := l.crit
        bus := (sent.flatMap byteBits).foldl (fun b x => b.written x)
          (l.bus.answer .resetSlot (l.hist ++ [.driveLow p.tRstl, .release 70])).2
        hist := l.hist ++ slotEvents p (.rst false :: sent.flatMap writtenByte) } := by
  intro sent
  rw [show ((l.resetSlot p).2.selectAddressed a).writeByte 0xBE = (l.resetSlot p).2.writeBytes sent from
    select_command (some a) 0xBE _, writeBytes_spec p, resetSlot_spec, h]
  simp [writtenBytes, sent]

theorem scratchpadCrcOk_iff (sp : List Byte) : scratchpadCrcOk sp = true ↔ crc8 (sp.take 8) = sp.getD 8 0 := by
  rw [scratchpadCrcOk, beq_iff_eq]

/-- Settles O30: `readTemperature_absent` without presence; with it `readTemperature_present`, its frame by
`addressedFrame_spec` and its nine bytes by `readBytes_spec`. -/
theorem readTemperatureReadsChecksDecodes : Obligations.ReadTemperatureReadsChecksDecodes := by
  intro s a sent m sp
  have hlevel := resetSlot_level s.params s.line
  refine ⟨fun ha => ?_, fun ha => ⟨readBytes_length 9 m, ?_⟩⟩
  · rw [exec_readTemperature, readTemperature_absent (hlevel.trans ha), resetSlot_spec, hlevel.trans ha]
  · have hframe : ((s.line.resetSlot s.params).2.selectAddressed s.ops.addr).writeByte 0xBE = m :=
      addressedFrame_spec (hlevel.trans ha) s.ops.addr
    have hline : (m.readBytes 9).2 =
        { lineDrive := false, crit := false, bus := (m.readBytes 9).2.bus
          hist := m.hist ++ slotEvents s.params (sp.flatMap readByteSlots) } := readBytes_spec s.params 9 m
    rw [exec_readTemperature, readTemperature_present (hlevel.trans ha), hframe, hline]
    simp only [scratchpadCrcOk_iff]
    rfl

/-! ### The decode -/

/-- Settles O31: `tdiv` by 2 is exact and by 16 drops the fraction toward zero; both fit 32 signed bits by
`rawTemperature_range`. -/
theorem decodedTemperatureIsExactAndInRange : Obligations.DecodedTemperatureIsExactAndInRange := by
  intro p a sp code raw t
  obtain ⟨hlo, hhi⟩ : -32768 ≤ raw ∧ raw ≤ 32767 := rawTemperature_range sp
  refine ⟨fun hA => ?_, fun hA hB => ?_, fun hA hB => decodeTemperature_unknown hA hB sp⟩
  · have hdiv : tdiv (raw * 100) 2 = raw * 50 := by
      rw [tdiv, show raw * 100 = raw * 50 * 2 by ring, Int.mul_tdiv_cancel _ (by decide)]
    have ht : t.toInt = raw * 50 := by
      rw [show t = tempOfInt (tdiv (raw * 100) 2) from decodeTemperature_familyA hA sp, hdiv,
        tempOfInt_toInt (by omega) (by omega)]
    omega
  · have habs : (tdiv (raw * 100) 16).natAbs = (raw * 100).natAbs / 16 := Int.natAbs_tdiv _ _
    have hpos : 0 ≤ raw → 0 ≤ tdiv (raw * 100) 16 := fun h => Int.tdiv_nonneg (by omega) (by decide)
    have hneg : raw ≤ 0 → tdiv (raw * 100) 16 ≤ 0 := fun h => by
      have := Int.tdiv_nonneg (a := -(raw * 100)) (b := 16) (by omega) (by decide)
      rw [Int.neg_tdiv] at this
      exact Int.neg_nonneg.1 this
    have ht : t.toInt = tdiv (raw * 100) 16 := by
      rw [show t = tempOfInt (tdiv (raw * 100) 16) from decodeTemperature_familyB hA hB sp,
        tempOfInt_toInt (by omega) (by omega)]
    rw [ht]
    refine ⟨habs, hpos, hneg, ?_, ?_⟩ <;> omega

/-- Settles O32: bytes 91 01, the low one first, are 401, and 40100 / 16 truncates to 2506. -/
theorem decodeOfTheSourceExample : Obligations.DecodeOfTheSourceExample := by
  intro p a rest hA hB
  have hraw : rawTemperature (0x91 :: 0x01 :: rest) = 401 := by
    change (0x01 ++ 0x91 : BitVec 16).toInt = 401
    decide
  refine ⟨hraw, by decide, ?_⟩
  rw [decodeTemperature_familyB hA hB, hraw]
  decide

end Sys2Proof.Machine
end

section
/-! PROOFS. The accessors (R254 to R259), the callback (R251, R253) and REINIT (R258). -/

namespace Sys2Proof.Machine

/-! ### GET_MAX -/

/-- GET_MAX presents the greatest valid temperature and changes nothing else (R257). -/
theorem exec_getMax (s : State) :
    exec .getMax s = .next { s with res := { temp := some (maximumTemp s.params s.recs) }, ready := none } := rfl

/-- Over an empty valid set the greatest temperature is the sentinel (R257). -/
theorem maximumTemp_of_none_valid (p : Params) {recs : List Record} (h : ∀ r ∈ recs, r.valid = false) :
    maximumTemp p recs = p.tempSentinel := by
  rw [maximumTemp, (validTemps_eq_nil_iff recs).2 h]

/-- Over a nonempty valid set the greatest temperature is a member of it, and no member is above it (R257). -/
theorem maximumTemp_greatest (p : Params) {recs : List Record} (h : ∃ r ∈ recs, r.valid = true) :
    maximumTemp p recs ∈ validTemps recs ∧ ∀ x ∈ validTemps recs, x.toInt ≤ (maximumTemp p recs).toInt := by
  rw [maximumTemp]
  cases hv : validTemps recs with
  | nil =>
    obtain ⟨r, hr, hvalid⟩ := h
    exact absurd hvalid (by simp [(validTemps_eq_nil_iff recs).1 hv r hr])
  | cons t rest => exact foldl_greaterTemp rest t

/-- Settles O45: as `getMinPresentsTheLeastValid`, with the greatest member for the least. -/
theorem getMaxPresentsTheGreatestValid : Obligations.GetMaxPresentsTheGreatestValid := by
  refine ⟨by decide, fun s => ⟨_, exec_getMax s, maximumTemp_of_none_valid s.params, fun h => ?_⟩⟩
  obtain ⟨hmem, hle⟩ := maximumTemp_greatest s.params h
  exact ⟨(mem_validTemps _ _).1 hmem, fun r hr hvalid => hle _ ((mem_validTemps _ _).2 ⟨r, hr, hvalid, rfl⟩)⟩

/-! ### GET_MID -/

/-- GET_MID presents the mean of the valid temperatures and changes nothing else (R256). -/
theorem exec_getMid (s : State) :
    exec .getMid s = .next { s with res := { temp := some (meanTemp s.params s.recs) }, ready := none } := rfl

/-- A quotient truncated toward zero stays within a range that holds its multiple (D23). -/
theorem tdiv_range {a n : Int} (hn : 0 < n) (hlo : -2147483648 * n ≤ a) (hhi : a ≤ 2147483647 * n) :
    -2147483648 ≤ Int.tdiv a n ∧ Int.tdiv a n ≤ 2147483647 := by
  rcases Int.le_total 0 a with h | h
  · rw [Int.tdiv_eq_ediv_of_nonneg h]
    have h0 := Int.ediv_nonneg h hn.le
    exact ⟨by omega, Int.ediv_le_of_le_mul hn hhi⟩
  · have e : Int.tdiv a n = -(-a / n) := by
      rw [← Int.tdiv_eq_ediv_of_nonneg (Int.neg_nonneg.2 h), Int.neg_tdiv, Int.neg_neg]
    have h0 := Int.ediv_nonneg (Int.neg_nonneg.2 h) hn.le
    have h1 : -a / n ≤ 2147483648 := Int.ediv_le_of_le_mul hn (by omega)
    rw [e]
    exact ⟨by omega, by omega⟩

/-- Over a nonempty valid set the mean is the exact sum divided by the number, truncated toward zero, and 32 signed bits
hold it (R256, D23). -/
theorem meanTemp_toInt (p : Params) {recs : List Record} (h : validTemps recs ≠ []) :
    (meanTemp p recs).toInt = Int.tdiv (tempSum (validTemps recs)) (validTemps recs).length := by
  rw [meanTemp]
  cases hv : validTemps recs with
  | nil => exact absurd hv h
  | cons t rest =>
    obtain ⟨hlo, hhi⟩ := tempSum_range (t :: rest)
    obtain ⟨klo, khi⟩ := tdiv_range (n := ((t :: rest).length : Int)) (by simp) hlo hhi
    exact tempOfInt_toInt klo (by rw [tdiv]; omega)

/-- Settles O46: `exec_getMid`, with `meanTemp_toInt` over the valid temperatures as integers. -/
theorem getMidPresentsTheTruncatedMean : Obligations.GetMidPresentsTheTruncatedMean := by
  intro s v
  have hv : v = (validTemps s.recs).map (fun t => t.toInt) := by simp [v, validTemps, Function.comp_def]
  refine ⟨_, exec_getMid s, fun h => ?_, fun h => ?_⟩
  · rw [meanTemp, List.map_eq_nil_iff.1 (hv.symm.trans h)]
  · have hne : validTemps s.recs ≠ [] := fun e => h (by rw [hv, e]; rfl)
    rw [meanTemp_toInt s.params hne, hv, tempSum, List.sum_eq_foldl, List.length_map]

/-! ### GET_ADDRESSES and REINIT -/

/-- Settles O47: the first `REG_COUNT` places of the registry. -/
theorem getAddressesPresentsTheRegistry : Obligations.GetAddressesPresentsTheRegistry := by
  intro s h
  refine ⟨s.reg.take s.regCount, rfl, ?_, fun i hi => List.getElem?_take_of_lt hi⟩
  rw [List.length_take, Nat.min_eq_left h]

/-- Settles O48: the whole-state equation of REINIT is its meaning. -/
theorem reinitRestartsTheScheduler : Obligations.ReinitRestartsTheScheduler := fun _ => rfl

/-! ### The callback -/

/-- SET_READY_CALLBACK writes the slot and the calls (R251). -/
theorem exec_setReadyCallback (s : State) : exec .setReadyCallback s =
    .next { s with cbSet := s.argCb.isSome, callback := s.argCb.getD [], res := {}, ready := none } := rfl

/-- Settles O43: the two forms of the operand. -/
theorem setReadyCallbackReplacesTheSlot : Obligations.SetReadyCallbackReplacesTheSlot := by
  refine fun s => ⟨fun calls h => ?_, fun h => ?_⟩ <;> rw [exec_setReadyCallback, h] <;> rfl

/-- Settles O42: the five words that answer are answered as to the host, and `answerCall` has no other. -/
theorem callbackMayOnlyRead : Obligations.CallbackMayOnlyRead := by
  refine fun s c => ⟨?_, fun hd hn => ⟨_, execCrc8_ok (s := { s with ops := c.ops }) hn, ?_⟩, fun h => ?_⟩
  · simp only [List.forall_mem_cons]
    refine ⟨fun hd => ⟨_, exec_getMin _, ?_⟩, fun hd => ⟨_, exec_getMid _, ?_⟩,
      fun hd => ⟨_, exec_getMax _, ?_⟩,
      fun hd => ⟨_, rfl, ?_⟩, nofun⟩ <;> simp only [State.answerCall, hd] <;> rfl
  · simp only [State.answerCall, hd, operandsWf_crc8, hn, decide_true, if_true]
    rfl
  · simp only [List.forall_mem_cons] at h
    obtain ⟨hmin, hmid, hmax, haddr, hcrc, -⟩ := h
    cases hd : decodeOpw c.word with
    | none => simp only [State.answerCall, hd]
    | some i =>
      cases i with
      | getMin => exact absurd hd hmin
      | getMid => exact absurd hd hmid
      | getMax => exact absurd hd hmax
      | getAddresses => exact absurd hd haddr
      | crc8 => exact absurd hd hcrc
      | _ => simp only [State.answerCall, hd]

end Sys2Proof.Machine
end

section
/-! PROOFS. The ticks that run no search: early calls (R241), the waiting states and NoSensor (R246, R248, R250), and the
reading of the devices (R247, R252). -/

namespace Sys2Proof.Machine

/-! ### Early calls and waiting -/

/-- Settles O36: the time passed, modulo 2^32, is the difference the rate gate looks at. -/
theorem advanceBeforeTheIntervalIsANoOp : Obligations.AdvanceBeforeTheIntervalIsANoOp := by
  intro s h
  refine exec_advance_early (decide_eq_false ?_)
  rw [BitVec.toNat_sub]
  have := s.lastTime.isLt
  omega

/-- A countdown above zero counts down by one (R246, R248). -/
theorem countDown_eq_ofNat {c : Ticks} : countDown c = BitVec.ofNat 16 (c.toNat - 1) := by
  apply BitVec.eq_of_toNat_eq
  rw [countDown_toNat, BitVec.toNat_ofNat, Nat.mod_eq_of_lt (by omega)]

/-- Settles O39: the rows of the two waiting states and of NoSensor. -/
theorem waitingTicksCountDown : Obligations.WaitingTicksCountDown := by
  intro s ht c u
  have hc : c = countDown s.countdown := countDown_eq_ofNat.symm
  rw [exec_advance_effective ht]
  refine ⟨fun hs hn => ?_, fun hs hn => ?_, fun hs hn => ?_, fun hs hn => ?_, fun hs => ?_⟩
  · rw [tick_convertWait (s := s.clocked) hs, convertWaitTick_wait (s := s.clocked) hn, hc]
    rfl
  · rw [tick_convertWait (s := s.clocked) hs, convertWaitTick_leave (s := s.clocked) hn]
    rfl
  · rw [tick_readWait (s := s.clocked) hs, readWaitTick_wait (s := s.clocked) hn, hc]
    rfl
  · rw [tick_readWait (s := s.clocked) hs, readWaitTick_leave (s := s.clocked) hn]
    rfl
  · rw [tick_noSensor (s := s.clocked) hs]
    rfl

/-! ### Reading the devices -/

/-- A record just read, written out (R247). -/
theorem Record.update_eq (p : Params) (t : Temp) (r : Record) :
    r.update p t = { active := r.active, valid := decide (t ≠ p.tempSentinel), temp := t } := by
  rw [Record.update, readValid]
  by_cases h : t = p.tempSentinel <;> simp [h]

/-- Settles O40: the tick is `readDevice` alone, which is READ_TEMPERATURE of the registered address. -/
theorem readTickReadsOneDevice : Obligations.ReadTickReadsOneDevice := by
  intro s a r hs ht ha hr hc
  refine ⟨_, _, exec_readTemperature _, rfl, ?_, fun n hn => by simp only [State.handedRecords, hn]; rfl⟩
  rw [exec_advance_effective ht, tick_read (s := s.clocked) hs, readTick_before_last (s := s.clocked) hc,
    readDevice_eq (s := s.clocked) ha hr, Record.update_eq]
  rfl

/-- Settles O41: the same read, then `fireReady` if a callback is registered, then `afterReady`. -/
theorem lastReadTickFiresTheReadyEvent : Obligations.LastReadTickFiresTheReadyEvent := by
  intro s a r hs ht ha hr hc
  refine ⟨_, _, exec_readTemperature _, rfl, ?_⟩
  rw [exec_advance_effective ht, tick_read (s := s.clocked) hs, readTick_last (s := s.clocked) hc,
    readDevice_eq (s := s.clocked) ha hr, Record.update_eq, show s.clocked.cursor + 1 = s.regCount from hc]
  cases hcb : s.cbSet
  · rw [show s.clocked.cbSet = false from hcb]
    rfl
  · rw [show s.clocked.cbSet = true from hcb]
    rfl

end Sys2Proof.Machine
end

section
/-! PROOFS. The steps that run no new operation (R12, R195, R329) and the reset event (R310, R312). -/

namespace Sys2Proof.Machine

/-- Settles O5: an idle step, a rewired line, and a search in flight by the two cases of `continueSearch_cases`. -/
theorem stepWithoutANewOperation : Obligations.StepWithoutANewOperation := by
  refine ⟨fun s hf hi => by simp only [step, hf, hi], fun s b rest hf hi => by simp only [step, hf, hi]; rfl, ?_⟩
  intro s f hf hr r u found known
  have hstep : step s = .next (s.continueSearch f) := step_inFlight hf hr
  have hended : r.1 = true → s.continueSearch f = State.finishSearch f.next
      { s with search := r.2.1, line := r.2.2, inFlight := none } := fun h => if_pos h
  have hgoes : r.1 = false → s.continueSearch f = State.present {}
      { s with search := r.2.1, line := r.2.2, inFlight := some f } := fun h => if_neg (by simpa using h)
  refine ⟨fun h => ?_, fun h hn => ?_, fun h filter hn => ?_, fun h hn => ?_⟩
  · rw [hstep, hgoes h]; rfl
  · rw [hstep, hended h, hn]; rfl
  · rw [hstep, hended h, hn]; rfl
  · rw [hstep, hended h, hn]; rfl

/-- The reset event comes whatever the block is doing (R310). -/
theorem step_reset {s : State} {rest : List HostInput} (hi : s.inputs = .reset :: rest) :
    step s = .next { s with inputs := rest }.resetEvent := by
  simp only [step, hi]

/-- Reset leaves every element at its value, whatever the parameters and the bus (R20, R310). -/
theorem resetWith_atReset (p : Params) (b : Bus) : (State.resetWith p b).atReset :=
  ⟨rfl, rfl, rfl, rfl, rfl, rfl, rfl, rfl, rfl, rfl, rfl, rfl, rfl, rfl, rfl, rfl, rfl, rfl, rfl⟩

/-- Settles O58: the values by `resetWith_atReset`, and that the devices carry on by `carryOn_answer`. -/
theorem resetPutsEveryElementToItsValue : Obligations.ResetPutsEveryElementToItsValue := by
  refine ⟨resetWith_atReset _ _, fun s rest hi => ⟨_, step_reset hi, resetWith_atReset _ _, rfl, rfl, rfl,
    fun devices hb => ?_, fun script choice past hb => ?_, fun k h => carryOn_answer s.line.bus k s.line.hist h⟩⟩
  · rw [State.resetEvent_line, hb]; rfl
  · rw [State.resetEvent_line, hb]; rfl

end Sys2Proof.Machine
end

section
/-! PROOFS. One position and one pass of a search on an arbitrary line (R95, R182 to R192). -/

namespace Sys2Proof.Machine

/-! ### Slots played on the line -/

theorem playSlots_append (p : Params) (xs ys : List Slot) (l : Line) :
    l.playSlots p (xs ++ ys) = (l.playSlots p xs).playSlots p ys := List.foldl_append

@[simp] theorem playSlots_cons (p : Params) (x : Slot) (xs : List Slot) (l : Line) :
    l.playSlots p (x :: xs) = (l.playSlot p x).playSlots p xs := rfl

/-- Bits written are their write slots played (R94). -/
theorem playSlots_writeBits (p : Params) (bits : List Bool) (l : Line) :
    l.playSlots p (bits.map Slot.w) = l.writeBits bits := by
  induction bits generalizing l with
  | nil => rfl
  | cons b rest ih => exact ih _

theorem playSlots_writtenByte (p : Params) (v : Byte) (l : Line) : l.playSlots p (writtenByte v) = l.writeByte v :=
  playSlots_writeBits p _ l

/-! ### One position -/

/-- A read slot on an oracle takes the next answer of the script (R74, R93). -/
theorem readSlot_script (c : Params) {l : Line} {x : Bool} {script : List Bool} {choice : Nat} {past : List BusEvent}
    (h : l.bus = .oracle (x :: script) choice past) :
    l.readSlot = (x, { lineDrive := false, crit := false, hist := l.hist ++ slotEvents c [.rd x]
                       bus := .oracle script choice past }) := by
  have hlevel : l.readSlot.1 = x := by rw [readSlot_level, h]; rfl
  refine Prod.ext hlevel ?_
  rw [readSlot_spec c, hlevel, h]
  rfl

/-- The direction at a position, written out (R184, R186). -/
theorem direction_eq (p : Nat) (q : Search) (x y : Bool) :
    (if x != y then x else q.direction p) =
      if x = y then (if p < q.lastDisc then positionBit q.romBuf p else decide (p = q.lastDisc)) else x := by
  rw [Search.direction, show (p == q.lastDisc) = decide (p = q.lastDisc) from rfl]
  cases x <;> cases y <;> rfl

/-- Both lines high on an oracle: the two read slots and no more (R185). -/
theorem searchPosition_script_fault (c : Params) (p : Nat) (q : Search) {l : Line} {script : List Bool} {choice : Nat}
    {past : List BusEvent} (h : l.bus = .oracle (true :: true :: script) choice past) :
    searchPosition p q l = (true, { q with pos := p, fault := true },
      { lineDrive := false, crit := false, hist := l.hist ++ slotEvents c [.rd true, .rd true]
        bus := .oracle script choice past }) := by
  have h1 := readSlot_script c h
  have h2 := readSlot_script c (congrArg (fun r => r.2.bus) h1)
  rw [searchPosition_fault (by rw [h1]) (by rw [h2]), h2, h1]
  simp

/-- Any other pair of samples on an oracle: the direction of R186, committed and written (R184 to R188). -/
theorem searchPosition_script_go (c : Params) (p : Nat) (q : Search) {l : Line} {x y : Bool} {script : List Bool}
    {choice : Nat} {past : List BusEvent} (h : l.bus = .oracle (x :: y :: script) choice past)
    (hxy : ¬(x = true ∧ y = true)) :
    let d := if x = y then (if p < q.lastDisc then positionBit q.romBuf p else decide (p = q.lastDisc)) else x
    searchPosition p q l = (false, { q.commit p (x == y) d with pos := p },
      { lineDrive := false, crit := false, hist := l.hist ++ slotEvents c [.rd x, .rd y, .w d]
        bus := .oracle script choice past }) := by
  intro d
  have h1 := readSlot_script c h
  have h2 := readSlot_script c (congrArg (fun r => r.2.bus) h1)
  rw [searchPosition_go (by rw [h2, h1]; exact hxy), h2, h1]
  simp only [direction_eq, writeSlot_spec c]
  refine congrArg _ (congrArg _ ?_)
  simp [Bus.written, d]

/-- A 0 is recorded exactly where both samples were 0 (R187). -/
theorem recorded_iff {x y d : Bool} (h : ¬(x = true ∧ y = true)) :
    ((x == y) && !d) = true ↔ x = false ∧ y = false ∧ d = false := by
  revert h
  cases x <;> cases y <;> cases d <;> decide

/-! ### One pass -/

/-- One pass of a search: the reset slot, and with presence the byte and the walk; it ends the search at marker zero or
without presence (R182, R183, R189). -/
theorem searchLoop_one_present {c : Params} {l : Line} (h : (l.resetSlot c).1 = false) (n : Nat) (f : Bool) (q : Search) :
    searchLoop 1 c n f q l =
      let w := searchPass n f q (l.resetSlot c).2
      (decide (w.1.lastDisc = 0), w.1, w.2) := by
  have hp : (l.presence c).1 = true := by rw [presence_eq, h]; rfl
  rw [searchLoop, if_pos hp]
  by_cases hz : (searchPass n f q (l.resetSlot c).2).1.lastDisc = 0
  · simp [presence_eq, hz]
  · simp [presence_eq, hz, searchLoop]

/-- The slots of a pass with presence: the reset slot, the byte, the positions walked, and both lines high where the walk
was cut short (R95, R182, R185). -/
def passSlots (alarmOnly : Bool) (steps : List (Bool × Bool × Bool)) : List Slot :=
  .rst false :: writtenByte (searchCommand alarmOnly) ++ steps.flatMap positionSlots ++
    if steps.length < 64 then [.rd true, .rd true] else []

/-- Everything the walk of a pass can do, and the line of the whole pass (R182 to R188). -/
theorem searchPass_trace {c : Params} {l : Line} (h : (l.resetSlot c).1 = false) (n : Nat) (f : Bool) (q : Search) :
    ∃ (steps : List (Bool × Bool × Bool)) (w : Search × Line),
      WalkTrace c 64 1 q.startPass ((l.resetSlot c).2.writeByte (searchCommand f)) steps w ∧ w.1.out = q.out ∧
        searchPass n f q (l.resetSlot c).2 = (w.1.endPass n, w.2) ∧ w.2 = l.playSlots c (passSlots f steps) ∧
        w.2.hist = l.hist ++ slotEvents c (passSlots f steps) := by
  obtain ⟨steps, t⟩ := searchWalk_trace c (n := 64) (p := 1) (by omega) (by omega) q.startPass
    ((l.resetSlot c).2.writeByte (searchCommand f))
  obtain ⟨-, -, hout, -, -⟩ := searchWalk_keeps c 64 1 (by omega) (by omega) q.startPass
    ((l.resetSlot c).2.writeByte (searchCommand f)) (by simp)
  refine ⟨steps, _, t, hout, rfl, ?_, ?_⟩
  · rw [t.line, passSlots, ← playSlots_writtenByte c]
    simp only [List.cons_append, playSlots_cons, playSlots_append]
    rfl
  · have hg := ((resetSlot_grows c l).trans (writeByte_grows c (searchCommand f) _)).hist
    rw [h] at hg
    rw [t.hist, hg, passSlots]
    simp only [List.cons_append, List.nil_append, slotEvents_cons, slotEvents_append, List.append_assoc]

/-- The end of a pass that was walked (R27, R189 to R191). -/
theorem endPass_out_eq (n : Nat) (q : Search) : (q.endPass n).out =
    if q.fault = false ∧ addrCrcOk q.romBuf = true ∧ q.out.length < n then q.out ++ [q.romBuf] else q.out := by
  have e : (q.endPass n).out = if !q.fault && addrCrcOk q.romBuf && decide (q.out.length < n) then q.out ++ [q.romBuf]
      else q.out := rfl
  rw [e]
  simp only [Bool.and_eq_true, Bool.not_eq_true', decide_eq_true_eq, and_assoc]

/-- Settles O18: the position by `searchPosition_fault` and `searchPosition_go`; the pass by `searchPass_trace`, which has
what the samples were, with the end of the pass. -/
theorem searchPositionFollowsTheBitPair : Obligations.SearchPositionFollowsTheBitPair := by
  refine ⟨?_, fun c n f q l => ?_⟩
  · intro p q c drive crit h x y script choice past hp hp' r d
    split
    case isTrue hxy =>
      obtain ⟨rfl, rfl⟩ := hxy
      exact searchPosition_script_fault c p q rfl
    case isFalse hxy =>
      rw [show r = _ from searchPosition_script_go c p q rfl hxy]
      refine ⟨rfl, rfl, rfl, rfl, rfl, ?_, (positionBit_setPosition _ _ ⟨hp, hp'⟩ ⟨hp, hp'⟩).trans (if_pos rfl),
        fun k h1 h2 hk => (positionBit_setPosition _ _ ⟨hp, hp'⟩ ⟨h1, h2⟩).trans (if_neg hk), rfl⟩
      rw [Search.commit_candDisc]
      simp only [recorded_iff hxy]
      rfl
  · intro r absent
    have hlevel : (l.resetSlot c).1 = absent := resetSlot_level c l
    refine ⟨fun ha => ?_, fun ha => ?_⟩
    · have hr : r = (true, q, (l.resetSlot c).2) := searchLoop_absent (hlevel.trans ha) 0 n f q
      refine ⟨hr, ?_⟩
      have hg := (resetSlot_grows c l).hist
      rw [hlevel.trans ha] at hg
      rw [hr, hg]
    · obtain ⟨steps, w, t, hout, hpass, hline, hhist⟩ := searchPass_trace (hlevel.trans ha) n f q
      have hr : r = (decide (w.1.candDisc = 0), w.1.endPass n, w.2) := by
        rw [show r = _ from searchLoop_one_present (hlevel.trans ha) n f q, hpass]
        rfl
      have hlen := t.length
      rw [hr]
      refine ⟨steps, hlen, t.notBoth, hline, hhist, fun i x hx => ?_,
        fun k h1 h2 => t.elsewhere k ?_ h2 (.inr ?_), ?_, rfl, rfl, ?_, ?_, rfl⟩
      · have := t.direction i x hx
        rw [Nat.add_comm 1 i] at this
        exact this
      · omega
      · omega
      · rw [Search.endPass_pos, t.pos, if_neg (show ¬64 = 0 by decide)]
        split <;> omega
      · rcases t.candDisc with h | ⟨i, hi, h⟩
        · exact .inl h
        · exact .inr ⟨i, hi.trans (Nat.add_comm 1 i), h⟩
      · rw [endPass_out_eq, hout, t.fault]
        have e : (q.startPass.fault || decide (steps.length < 64)) = false ↔ steps.length = 64 := by
          simp
          omega
        simp only [e]
        rfl

end Sys2Proof.Machine
end

section
/-! PROOFS. SEARCH_ROM, DISCOVER and the Init tick as whole-state equations (R180, R210, R244), their faults (R280 to R284),
and the search on a line stuck low (R195, R327). -/

namespace Sys2Proof.Machine

/-! ### The passes a search runs in its own step -/

/-- The first passes of a search: whether it has ended, its registers and the line (R180, R189). -/
def State.firstPasses (s : State) (n : Nat) (alarmOnly : Bool) : Bool × Search × Line :=
  searchLoop Config.passBudget s.params n alarmOnly s.search.startSearch s.line

/-- A search that ends in its own step goes on to what follows it (R180). -/
theorem runSearch_ended {n : Nat} {b : Bool} {s : State} {q : Search} {l : Line} (h : s.firstPasses n b = (true, q, l))
    (a : AfterSearch) : s.runSearch { capacity := n, alarmOnly := b, next := a } =
      State.finishSearch a { s with search := q, line := l, inFlight := none } := by
  unfold State.firstPasses at h
  simp only [State.runSearch, State.continueSearch, h, if_true]

/-- Any other search stays in flight and presents nothing (R195). -/
theorem runSearch_goes_on {n : Nat} {b : Bool} {s : State} {q : Search} {l : Line} (h : s.firstPasses n b = (false, q, l))
    (a : AfterSearch) : s.runSearch { capacity := n, alarmOnly := b, next := a } =
      State.present {} { s with
        search := q, line := l, inFlight := some { capacity := n, alarmOnly := b, next := a } } := by
  unfold State.firstPasses at h
  simp only [State.runSearch, State.continueSearch, h, Bool.false_eq_true, if_false]

/-- What a search emits in its own step: checked addresses, at most its capacity (R190, R191). -/
theorem firstPasses_out (s : State) (n : Nat) (alarmOnly : Bool) :
    (s.firstPasses n alarmOnly).2.1.out.length ≤ n ∧
      ∀ a ∈ (s.firstPasses n alarmOnly).2.1.out, addrCrcOk a = true :=
  searchLoop_out _ _ _ _ _ _ (Nat.zero_le _) nofun

/-- Without presence a search ends at its first reset slot, with nothing emitted (R146, R183). -/
theorem firstPasses_absent {s : State} (h : (s.line.resetSlot s.params).1 = true) (n : Nat) (alarmOnly : Bool) :
    s.firstPasses n alarmOnly = (true, s.search.startSearch, (s.line.resetSlot s.params).2) :=
  searchLoop_absent h 65535 _ _ _

/-! ### SEARCH_ROM -/

theorem exec_searchRom (alarmOnly : Bool) (s : State) : exec (.searchRom alarmOnly) s =
    .next (s.runSearch { capacity := s.ops.n, alarmOnly := alarmOnly, next := .report }) := rfl

/-- SEARCH_ROM as one equation, ended or not (R180, R195). -/
theorem exec_searchRom_eq {alarmOnly : Bool} {s : State} {r : Bool × Search × Line}
    (h : s.firstPasses s.ops.n alarmOnly = r) : exec (.searchRom alarmOnly) s = .next { s with
      search := r.2.1
      line := r.2.2
      inFlight := if r.1 then none else some { capacity := s.ops.n, alarmOnly := alarmOnly, next := .report }
      res := if r.1 then { addrs := some r.2.1.out, count := some r.2.1.out.length } else {}
      ready := none } := by
  rw [exec_searchRom]
  rcases r with ⟨_ | _, q, l⟩
  · rw [runSearch_goes_on h]; rfl
  · rw [runSearch_ended h]; rfl

/-- Settles O19: `firstPasses_absent` in the equation of SEARCH_ROM. -/
theorem searchWithoutPresenceIsEmpty : Obligations.SearchWithoutPresenceIsEmpty := by
  intro s alarmOnly a ha
  have hlevel : (s.line.resetSlot s.params).1 = true := (resetSlot_level _ _).trans ha
  rw [exec_searchRom_eq (firstPasses_absent hlevel _ _), resetSlot_spec, hlevel]
  rfl

/-! ### DISCOVER and the Init tick -/

/-- SEARCH_ROM with the registry's capacity, the search both discoveries are (R210, R244). -/
theorem exec_searchRom_nMax {s : State} {ended : Bool} {q : Search} {l : Line}
    (h : s.firstPasses s.params.nMax false = (ended, q, l)) :
    ∃ t, exec (.searchRom false) { s with ops := { s.ops with n := s.params.nMax } } = .next t ∧
      t.search = q ∧ t.line = l ∧
      t.inFlight = if ended then none else some { capacity := s.params.nMax, alarmOnly := false, next := .report } := by
  have h' : State.firstPasses { s with ops := { s.ops with n := s.params.nMax } } s.params.nMax false = (ended, q, l) := h
  exact ⟨_, exec_searchRom_eq h', rfl, rfl, rfl⟩

/-- The registry after a discovery that has ended (R30, R210): the retained addresses, checked, then zeros. -/
theorem discovered_registry {s : State} {ended : Bool} {q : Search} {l : Line}
    (h : s.firstPasses s.params.nMax false = (ended, q, l)) (f : Bool) :
    let kept := retained s.params f q.out
    let reg := kept ++ List.replicate (s.params.nMax - kept.length) 0
    kept.length ≤ s.params.nMax ∧ reg.length = s.params.nMax ∧ reg.take kept.length = kept ∧
      (∀ x ∈ reg.drop kept.length, x = 0) ∧ ∀ x ∈ reg.take kept.length, addrCrcOk x = true := by
  intro kept reg
  have hout := firstPasses_out s s.params.nMax false
  rw [h] at hout
  obtain ⟨hlen, hcrc⟩ := hout
  obtain ⟨h1, h2, h3, h4⟩ := replaceRegistry_spec f { s with search := q } hlen
  have htake : reg.take kept.length = kept := h3
  refine ⟨h2, h1, htake, h4, fun x hx => ?_⟩
  rw [htake] at hx
  exact hcrc x ((retained_sublist _ _ _).subset hx)

/-- Settles O22: `runSearch_goes_on` and `runSearch_ended`, the registry of the second by `discovered_registry`. -/
theorem discoverReplacesTheRegistry : Obligations.DiscoverReplacesTheRegistry := by
  intro s f hs
  rw [exec_discover_allowed ((allowsDiscover_iff _).2 hs)]
  rcases hr : s.firstPasses s.params.nMax false with ⟨_ | _, q, l⟩
  · obtain ⟨t, ht, rfl, rfl, hfl⟩ := exec_searchRom_nMax hr
    refine ⟨t, s.reg, s.regCount, {}, ht, ?_, fun _ => ⟨rfl, rfl, rfl⟩, fun h => by cases hfl.symm.trans h⟩
    rw [runSearch_goes_on hr, hfl]
    rfl
  · obtain ⟨t, ht, rfl, rfl, hfl⟩ := exec_searchRom_nMax hr
    obtain ⟨h1, h2, h3, h4, h5⟩ := discovered_registry hr f
    refine ⟨t, _, _, _, ht, ?_, fun h => absurd hfl h, fun _ => ⟨rfl, h1, h2, h3, h4, h5⟩⟩
    rw [runSearch_ended hr, hfl]
    rfl

/-- Settles O24: with nothing emitted nothing is retained, and the registry is all zeros. -/
theorem discoverWithoutPresenceEmptiesTheRegistry : Obligations.DiscoverWithoutPresenceEmptiesTheRegistry := by
  intro s f hs ha
  have hlevel : (s.line.resetSlot s.params).1 = true := (resetSlot_level _ _).trans ha
  have hnone : retained s.params f [] = [] := by cases f <;> rfl
  refine ⟨_, exec_discover_allowed ((allowsDiscover_iff _).2 hs) f, ?_⟩
  rw [runSearch_ended (firstPasses_absent hlevel _ _)]
  simp only [State.finishSearch, State.discoverReport, State.present_reg, State.present_regCount, State.present_res,
    State.present_line, State.replaceRegistry_reg, State.replaceRegistry_regCount, State.replaceRegistry_line,
    Search.startSearch_out, hnone, List.nil_append, List.length_nil, Nat.sub_zero, true_and]
  rw [(resetSlot_grows s.params s.line).hist, hlevel]

/-- The Init tick is a search with the registry's capacity (R244). -/
theorem clocked_initTick (s : State) : s.clocked.initTick =
    s.clocked.runSearch { capacity := s.params.nMax, alarmOnly := false, next := .initTick } := rfl

/-- Settles O37: as O22, in the state of an effective tick, with the records and the state of `State.initReport`. -/
theorem initTickDiscoversAndReplacesTheRecords : Obligations.InitTickDiscoversAndReplacesTheRecords := by
  intro s hs ht
  rw [exec_advance_effective ht, tick_init (s := s.clocked) hs, clocked_initTick]
  rcases hr : s.firstPasses s.params.nMax false with ⟨_ | _, q, l⟩
  all_goals have hclock : s.clocked.firstPasses s.params.nMax false = _ := hr
  · obtain ⟨t, htn, rfl, rfl, hfl⟩ := exec_searchRom_nMax hr
    refine ⟨t, s.reg, s.regCount, s.recs, s.fsm, htn, ?_, fun _ => ⟨rfl, rfl, rfl, hs⟩,
      fun h => by cases hfl.symm.trans h⟩
    rw [runSearch_goes_on hclock, hfl]
    rfl
  · obtain ⟨t, htn, rfl, rfl, hfl⟩ := exec_searchRom_nMax hr
    obtain ⟨h1, h2, h3, h4, -⟩ := discovered_registry hr true
    refine ⟨t, _, (retained s.params true t.search.out).length, _,
      if 0 < (retained s.params true t.search.out).length then .convert else .noSensor, htn, ?_, fun h => absurd hfl h,
      fun _ => ⟨h1, h2, h3, h4, rfl, fun h => if_pos h, fun h => if_neg (by rw [h]; decide)⟩⟩
    rw [runSearch_ended hclock, hfl]
    rfl

/-! ### Faults -/

/-- No fault class applies to a pass exactly if it may emit its address (R280 to R283). -/
theorem passFault_eq_none_iff (n : Nat) (q : Search) :
    passFault n q = none ↔ q.fault = false ∧ addrCrcOk q.romBuf = true ∧ q.out.length < n := by
  unfold passFault
  cases q.fault <;> cases addrCrcOk q.romBuf <;> simp

/-- No fault class applies to a read exactly if there was presence and the CRC is good (R280 to R283). -/
theorem readFault_eq_none_iff (presence : Bool) (sp : List Byte) :
    readFault presence sp = none ↔ presence = true ∧ scratchpadCrcOk sp = true := by
  unfold readFault
  cases presence <;> cases scratchpadCrcOk sp <;> simp

/-- A read answers the decode where no fault class applies, else the sentinel (R219 to R221, R284). -/
theorem readTemperature_result (p : Params) (a : Addr) (spBuf : List Byte) (l : Line) :
    (l.readTemperature p a spBuf).1 =
      if readFault (!(l.resetSlot p).1) (l.readTemperature p a spBuf).2.1 = none then
        decodeTemperature p a (l.readTemperature p a spBuf).2.1
      else p.tempSentinel := by
  simp only [readFault_eq_none_iff]
  cases h : (l.resetSlot p).1
  · simp only [readTemperature_present h, Bool.not_false, true_and]
  · simp only [readTemperature_absent h, Bool.not_true, Bool.false_eq_true, false_and, if_false]

/-- Settles O34: the end of a pass by `endPass_out_eq`, SEARCH_ROM by its equation, the read by `readTemperature_result`. -/
theorem faultsShowOnlyInResults : Obligations.FaultsShowOnlyInResults := by
  refine ⟨fun n q => ?_, fun s t alarmOnly h hf => ?_, fun s =>
    ⟨(s.line.readTemperature s.params s.ops.addr s.spBuf).2.2, (s.line.readTemperature s.params s.ops.addr s.spBuf).2.1,
      ?_⟩⟩
  · have h := endPass_out_eq n q
    simp only [← passFault_eq_none_iff] at h
    rw [← h]
    rfl
  · rcases hr : s.firstPasses s.ops.n alarmOnly with ⟨_ | _, q, l⟩
    · cases (exec_searchRom_eq hr).symm.trans h
      cases hf
    · cases (exec_searchRom_eq hr).symm.trans h
      rfl
  · rw [exec_readTemperature, readTemperature_result, resetSlot_level]

/-! ### The end of a search, and the line stuck low -/

/-- A search ends with marker zero, or with a reset slot without presence (R183, R189). -/
theorem searchLoop_ends (budget : Nat) (p : Params) (n : Nat) (f : Bool) (q : Search) (l : Line)
    (h : (searchLoop budget p n f q l).1 = true) : (searchLoop budget p n f q l).2.1.lastDisc = 0 ∨
      ∃ hist, (searchLoop budget p n f q l).2.2.hist = hist ++ slotEvents p [.rst true] := by
  induction budget generalizing q l with
  | zero => cases h
  | succ k ih =>
    cases hl : (l.resetSlot p).1
    · have e : searchLoop (k + 1) p n f q l =
          let w := searchPass n f q (l.resetSlot p).2
          if w.1.lastDisc = 0 then (true, w.1, w.2) else searchLoop k p n f w.1 w.2 :=
        if_pos (by rw [presence_eq, hl]; rfl)
      rw [e] at h ⊢
      by_cases hz : (searchPass n f q (l.resetSlot p).2).1.lastDisc = 0
      · simp [hz]
      · simp only [hz, if_false] at h ⊢
        exact ih _ _ h
    · rw [searchLoop_absent hl]
      refine .inr ⟨l.hist, ?_⟩
      rw [(resetSlot_grows p l).hist, hl]

/-- The passes of `k + 1` steps, and the samples they take, are those of one step and of `k` more. -/
theorem passes_succ (k b v : Nat) : v + (k + 1) * b = v + b + k * b := by ring

theorem samples_succ (k b m : Nat) : 129 * ((k + 1) * b) + m = 129 * b + (129 * (k * b) + m) := by ring

/-- A search in flight on a line stuck low is in flight, with nothing presented, after `k` further steps (R195, R327). -/
theorem run_low (k : Nat) {s : State} {f : InFlight} {m v : Nat} (hf : s.inFlight = some f) (hres : s.res = {})
    (hr : ∀ rest, s.inputs ≠ .reset :: rest) (hl : s.line.low (129 * (k * Config.passBudget) + m))
    (hq : s.search.NextLeaf v) (hv : v + k * Config.passBudget < 2 ^ 64) :
    ∃ u, Sys2Proof.core.run k s = .next u ∧ u.inFlight ≠ none ∧ u.res = {} ∧ u.inputs = s.inputs := by
  induction k generalizing s v with
  | zero => exact ⟨s, rfl, by simp [hf], hres, rfl⟩
  | succ k ih =>
    rw [samples_succ] at hl
    rw [passes_succ] at hv
    obtain ⟨h1, h2, h3, h4, h5⟩ := continueSearch_low f hl hq (Nat.lt_of_le_of_lt (Nat.le_add_right _ _) hv)
    obtain ⟨u, hu, hfl, hures, hui⟩ := ih h1 h2 (by rwa [h3]) h4 h5 hv
    exact ⟨u, by rw [run_of_next (step_inFlight hf hr), hu], hfl, hures, hui.trans h3⟩

/-- A search that starts on a line stuck low stays in flight through its own step and `k` further ones (R195, R327). -/
theorem runSearch_low (k : Nat) {s : State} {f : InFlight} {m : Nat} (hr : ∀ rest, s.inputs ≠ .reset :: rest)
    (hl : s.line.low (129 * ((k + 1) * Config.passBudget) + m)) (hk : (k + 1) * Config.passBudget < 2 ^ 64) :
    ∃ u, Sys2Proof.core.run k (s.runSearch f) = .next u ∧ u.inFlight ≠ none ∧ u.res = {} ∧
      u.inputs = s.inputs := by
  rw [samples_succ] at hl
  rw [← Nat.zero_add ((k + 1) * Config.passBudget), passes_succ] at hk
  obtain ⟨h1, h2, h3, h4, h5⟩ := continueSearch_low f (s := { s with search := s.search.startSearch }) hl
    (.inl ⟨rfl, rfl⟩) (Nat.lt_of_le_of_lt (Nat.le_add_right _ _) hk)
  obtain ⟨u, hu, hfl, hures, hui⟩ := run_low k h1 h2 (by rwa [h3]) h4 h5 hk
  exact ⟨u, hu, hfl, hures, hui.trans h3⟩

/-- Settles O20: the equation of SEARCH_ROM with `firstPasses_out` and `searchLoop_ends`; the passes one by one by
`searchLoop_add`; the line stuck low by `runSearch_low`, for the three operations that search. -/
theorem searchEmitsCheckedAddressesWithinCapacity : Obligations.SearchEmitsCheckedAddressesWithinCapacity := by
  refine ⟨fun s alarmOnly => ?_, fun c n k alarmOnly q l => ⟨rfl, ?_⟩, ?_⟩
  · obtain ⟨hlen, hcrc⟩ := firstPasses_out s s.ops.n alarmOnly
    exact ⟨exec_searchRom_eq rfl, hlen, hcrc, searchLoop_ends _ _ _ _ _ _⟩
  · rw [Nat.add_comm]
    exact searchLoop_add 1 k c n alarmOnly q l
  · intro s t i k rest choice past h hi hb hk hr
    have hl : s.line.low (129 * ((k + 1) * Config.passBudget) + 0) := by
      rw [Nat.add_zero]
      exact ⟨rest, choice, past, hb⟩
    rcases hi with ⟨alarmOnly, rfl⟩ | ⟨f, rfl⟩ | ⟨rfl, hs, ht⟩
    · cases h
      exact runSearch_low k hr hl hk
    · have hs := ((exec_next_iff _ _).1 ⟨t, h⟩).2 f rfl
      rw [exec_discover_allowed hs] at h
      cases h
      exact runSearch_low k hr hl hk
    · rw [exec_advance_effective ht, tick_init (s := s.clocked) hs] at h
      cases h
      exact runSearch_low (s := s.clocked) k hr hl hk

end Sys2Proof.Machine
end

section
/-! PROOFS. Runs of ADVANCE calls: NoSensor (R250), ConvertWait (R246), and one whole cycle (R249, R252, R261). -/

namespace Sys2Proof.Machine

/-! ### Runs -/

/-- A run goes on by one step from where it stands. -/
theorem run_succ {k : Nat} {s u v : State} (h : Sys2Proof.core.run k s = .next u) (hstep : step u = .next v) :
    Sys2Proof.core.run (k + 1) s = .next v := by
  induction k generalizing s with
  | zero =>
    cases h
    exact run_of_next hstep 0
  | succ k ih =>
    cases hs : step s with
    | next t =>
      rw [run_of_next hs] at h ⊢
      exact ih h
    | fault r => exact nomatch r
    | refused r =>
      have hs' : Sys2Proof.core.step s = .refused r := hs
      simp only [Host.Core.run, hs'] at h
      cases h

/-- What holds at the start of a run and passes on from step to step holds all along it. -/
theorem run_induct {P : Nat → State → Prop} {n : Nat} {s : State} (h0 : P 0 s)
    (hs : ∀ k u, k < n → P k u → ∃ v, step u = .next v ∧ P (k + 1) v) :
    ∀ k ≤ n, ∃ u, Sys2Proof.core.run k s = .next u ∧ P k u := by
  intro k
  induction k with
  | zero => exact fun _ => ⟨s, rfl, h0⟩
  | succ k ih =>
    intro hk
    obtain ⟨u, hu, hP⟩ := ih (by omega)
    obtain ⟨v, hv, hP'⟩ := hs k u hk hP
    exact ⟨v, run_succ hu hv, hP'⟩

/-! ### Calls of ADVANCE -/

theorem advance_effective {s : State} (h : tickEffective s.params s.lastTime s.ops.time = true) :
    s.advance = s.clocked.tick := if_pos h

theorem advance_early {s : State} (h : tickEffective s.params s.lastTime s.ops.time = false) :
    s.advance = s.present {} := if_neg (by simp [h])

/-- The block after `k` of a row of calls: no search in flight, the other calls still to come. -/
structure Called (times : List Time) (rest : List HostInput) (k : Nat) (u : State) : Prop where
  inFlight : u.inFlight = none
  inputs : u.inputs = advanceCalls (times.drop k) ++ rest

/-- The state in which the next call of a row is executed, its operands on the port (R115). -/
def State.taking (times : List Time) (rest : List HostInput) (now : Time) (u : State) : State :=
  { u with inputs := advanceCalls times ++ rest, ops := { time := now }, argCb := none }

/-- The next call of a row is an ADVANCE (R240). -/
theorem Called.step {times : List Time} {rest : List HostInput} {k : Nat} {u : State} (h : Called times rest k u)
    (hk : k < times.length) : step u = .next (u.taking (times.drop (k + 1)) rest times[k]).advance :=
  step_advanceCalls h.inFlight (by rw [h.inputs, List.drop_eq_getElem_cons hk])

/-- Settles O51: an early call presents nothing, and an effective one stores the time alone. -/
theorem noSensorIsTerminal : Obligations.NoSensorIsTerminal := by
  intro s times rest hs hf hi
  have hrun := run_induct (P := fun k u => Called times rest k u ∧ u.fsm = .noSensor ∧ u.line = s.line ∧
    u.reg = s.reg ∧ u.recs = s.recs ∧ (1 ≤ k → u.ready = none)) (n := times.length)
    ⟨⟨hf, hi⟩, hs, rfl, rfl, rfl, nofun⟩ ?_
  · intro k hk
    obtain ⟨u, hu, -, h⟩ := hrun k hk
    exact ⟨u, hu, h⟩
  · rintro k u hk ⟨hc, hfsm, hline, hreg, hrecs, -⟩
    refine ⟨_, hc.step hk, ?_⟩
    generalize hw : u.taking (times.drop (k + 1)) rest times[k] = w
    have hfw : w.clocked.fsm = .noSensor := by rw [← hw]; exact hfsm
    cases ht : tickEffective w.params w.lastTime w.ops.time
    · rw [advance_early ht, ← hw]
      exact ⟨⟨hc.inFlight, rfl⟩, hfsm, hline, hreg, hrecs, fun _ => rfl⟩
    · rw [advance_effective ht, tick_noSensor hfw, ← hw]
      exact ⟨⟨hc.inFlight, rfl⟩, hfsm, hline, hreg, hrecs, fun _ => rfl⟩

/-! ### Effective calls -/

/-- The block after `k` of a row of effective calls (R241). -/
structure Ticked (times : List Time) (rest : List HostInput) (k : Nat) (u : State) : Prop extends
    Called times rest k u where
  effective : allEffective u.params u.lastTime (times.drop k) = true

/-- The state the next call of a row of effective ones ticks in. -/
def State.ticking (times : List Time) (rest : List HostInput) (now : Time) (u : State) : State :=
  (u.taking times rest now).clocked

/-- The next call of a row of effective ones is a tick (R240, R241). -/
theorem Ticked.step {times : List Time} {rest : List HostInput} {k : Nat} {u : State} (h : Ticked times rest k u)
    (hk : k < times.length) : step u = .next (u.ticking (times.drop (k + 1)) rest times[k]).tick := by
  have he := h.effective
  rw [List.drop_eq_getElem_cons hk, allEffective, Bool.and_eq_true] at he
  rw [h.toCalled.step hk, advance_effective he.1]
  rfl

/-- After it the calls that follow are effective still, if it has kept the parameters, the time and the queue. -/
theorem Ticked.next {times : List Time} {rest : List HostInput} {k : Nat} {u v : State} (h : Ticked times rest k u)
    (hk : k < times.length) (hf : v.inFlight = none) (hi : v.inputs = advanceCalls (times.drop (k + 1)) ++ rest)
    (hp : v.params = u.params) (ht : v.lastTime = times[k]) : Ticked times rest (k + 1) v := by
  have he := h.effective
  rw [List.drop_eq_getElem_cons hk, allEffective, Bool.and_eq_true] at he
  exact ⟨⟨hf, hi⟩, by rw [hp, ht]; exact he.2⟩

/-- Settles O49: the countdown is `c - k` after `k` ticks, and on the tick that begins at 1 the state is left for Read. -/
theorem convertWaitLastsItsCountdown : Obligations.ConvertWaitLastsItsCountdown := by
  intro s times rest hs hf hlen hpos hi he
  have hrun := run_induct (P := fun k u => Ticked times rest k u ∧ u.line = s.line ∧
      (k < times.length → u.fsm = .convertWait ∧ u.countdown.toNat = s.countdown.toNat - k) ∧
      (k = times.length → u.fsm = .read ∧ u.cursor = 0)) (n := times.length)
    ⟨⟨⟨hf, hi⟩, he⟩, rfl, fun _ => ⟨hs, rfl⟩, fun h => by omega⟩ ?_
  · refine ⟨fun k hk => ?_, ?_⟩
    · obtain ⟨u, hu, -, hline, hwait, -⟩ := hrun k hk.le
      exact ⟨u, hu, (hwait hk).1, hline, (hwait hk).2⟩
    · obtain ⟨u, hu, ht, hline, -, hread⟩ := hrun times.length (Nat.le_refl _)
      exact ⟨u, hu, (hread rfl).1, (hread rfl).2, hline, by simpa [advanceCalls] using ht.inputs⟩
  · rintro k u hk ⟨ht, hline, hwait, -⟩
    obtain ⟨hfsm, hcount⟩ := hwait hk
    refine ⟨_, ht.step hk, ?_⟩
    generalize hw : u.ticking (times.drop (k + 1)) rest times[k] = w
    rw [tick_convertWait (by rw [← hw]; exact hfsm)]
    have hcw : w.countdown.toNat = s.countdown.toNat - k := by rw [← hw]; exact hcount
    by_cases h1 : w.countdown.toNat ≤ 1
    · rw [convertWaitTick_leave h1, ← hw]
      exact ⟨ht.next hk ht.inFlight rfl rfl rfl, hline, fun h => by omega, fun _ => ⟨rfl, rfl⟩⟩
    · rw [convertWaitTick_wait (Nat.lt_of_not_le h1)]
      have hcd : (countDown w.countdown).toNat = s.countdown.toNat - (k + 1) := by rw [countDown_toNat]; omega
      rw [← hw] at hcd ⊢
      exact ⟨ht.next hk ht.inFlight rfl rfl rfl, hline, fun _ => ⟨hfsm, hcd⟩, fun h => by omega⟩

/-! ### One cycle -/

/-- Where the block is after `k` ticks of a cycle of `1 + c + n + d`: one of Convert, `c` of ConvertWait, `n` of Read, `d` of
ReadWait (R249). -/
inductive CyclePlace (c n d k : Nat) (fsm : SchedulerState) (countdown : Ticks) (cursor : Nat) : Prop where
  | start (hk : k = 0) (hs : fsm = .convert)
  | convertWait (hk : 1 ≤ k) (hc : k ≤ c) (hs : fsm = .convertWait) (hcd : countdown.toNat = 1 + c - k)
  | read (hk : 1 + c ≤ k) (hn : k < 1 + c + n) (hs : fsm = .read) (hcur : cursor = k - (1 + c))
  | readWait (hk : 1 + c + n ≤ k) (hd : k < 1 + c + n + d) (hs : fsm = .readWait)
      (hcd : countdown.toNat = 1 + c + n + d - k)
  | finish (hk : k = 1 + c + n + d) (hs : fsm = .convert)

/-- One tick goes to the next place of the cycle, and the ready event is fired on leaving Read (R249, R252). -/
theorem CyclePlace.tick {c n d k : Nat} {u : State} (h : CyclePlace c n d k u.fsm u.countdown u.cursor)
    (hk : k < 1 + c + n + d) (hc : c = u.params.convertWaitTicks.toNat) (hd : d = u.params.cycleDelayTicks.toNat)
    (hn : n = u.regCount) (hc1 : 1 ≤ c) (hn1 : 1 ≤ n) (hd1 : 1 ≤ d) (hcb : u.cbSet = true) (hr : u.ready = none) :
    CyclePlace c n d (k + 1) u.tick.fsm u.tick.countdown u.tick.cursor ∧
      (u.tick.ready ≠ none ↔ k + 1 = 1 + c + n) := by
  cases h with
  | start hk0 hs =>
    rw [tick_convert hs]
    exact ⟨.convertWait (by omega) (by omega) rfl (show u.params.convertWaitTicks.toNat = _ by omega),
      iff_of_false (fun h => h hr) (by omega)⟩
  | convertWait hk1 hkc hs hcd =>
    rw [tick_convertWait hs]
    by_cases h1 : u.countdown.toNat ≤ 1
    · rw [convertWaitTick_leave h1]
      exact ⟨.read (by omega) (by omega) rfl (show 0 = k + 1 - (1 + c) by omega),
        iff_of_false (fun h => h hr) (by omega)⟩
    · rw [convertWaitTick_wait (Nat.lt_of_not_le h1)]
      exact ⟨.convertWait (by omega) (by omega) hs ((countDown_toNat _).trans (by omega)),
        iff_of_false (fun h => h hr) (by omega)⟩
  | read hkc hkn hs hcur =>
    rw [tick_read hs]
    by_cases hl : u.cursor + 1 = u.regCount
    · rw [readTick_last hl, hcb]
      exact ⟨.readWait (by omega) (by omega) rfl (show u.params.cycleDelayTicks.toNat = _ by omega),
        iff_of_true nofun (by omega)⟩
    · rw [readTick_before_last hl]
      exact ⟨.read (by omega) (by omega) hs (show u.cursor + 1 = _ by omega), iff_of_false (fun h => h hr) (by omega)⟩
  | readWait hkn hkd hs hcd =>
    rw [tick_readWait hs]
    by_cases h1 : u.countdown.toNat ≤ 1
    · rw [readWaitTick_leave h1]
      exact ⟨.finish (by omega) rfl, iff_of_false (fun h => h hr) (by omega)⟩
    · rw [readWaitTick_wait (Nat.lt_of_not_le h1)]
      exact ⟨.readWait (by omega) (by omega) hs ((countDown_toNat _).trans (by omega)),
        iff_of_false (fun h => h hr) (by omega)⟩
  | finish hkd => omega

/-- A ready event that is presented hands over exactly the active records (R252, R333). -/
theorem ready_event {s t : State} (hr : Tick s t) (hs : s.ready = none) (hinv : t.Inv) {e : ReadyEvent}
    (he : t.ready = some e) : e.count = t.regCount ∧ e.records.length = t.regCount ∧
      t.handedRecords = some e.records ∧ ∀ r ∈ e.records, r.active = true := by
  obtain ⟨-, -, -, ht, hrec, hcount, hhand⟩ := hr.ready_some hs he
  obtain ⟨-, -, ⟨-, hle, -⟩, ⟨hlen, -⟩, ⟨-, hcyc, -, -⟩, -, -, -⟩ := hinv
  obtain ⟨-, hact⟩ := hcyc (by rw [ht]; rfl)
  refine ⟨hcount, by rw [hrec, List.length_take, hlen, Nat.min_eq_left hle], ?_, fun r hmem => ?_⟩
  · rw [State.handedRecords, hhand, hrec]
    rfl
  · rw [hrec] at hmem
    obtain ⟨i, hi⟩ := List.mem_iff_getElem?.1 hmem
    have hlt : i < t.regCount := by
      obtain ⟨hi', -⟩ := List.getElem?_eq_some_iff.1 hi
      rw [List.length_take] at hi'
      omega
    rw [List.getElem?_take_of_lt hlt] at hi
    exact active_of_lt hact hlt hi

/-- The block after `k` ticks of the cycle that starts at `s`. -/
structure CycleAt (s : State) (times : List Time) (rest : List HostInput) (k : Nat) (u : State) : Prop extends
    Ticked times rest k u where
  inv : u.Inv
  params : u.params = s.params
  regCount : u.regCount = s.regCount
  cbSet : u.cbSet = true
  place : CyclePlace s.params.convertWaitTicks.toNat s.regCount s.params.cycleDelayTicks.toNat k u.fsm
    u.countdown u.cursor
  ready : 1 ≤ k → (u.ready ≠ none ↔ k = 1 + s.params.convertWaitTicks.toNat + s.regCount)
  event : 1 ≤ k → ∀ e, u.ready = some e → e.count = s.regCount ∧ e.records.length = s.regCount ∧
    u.handedRecords = some e.records ∧ ∀ r ∈ e.records, r.active = true

/-- The ticks of a cycle keep the registry, the time stored and no search in flight. -/
theorem Tick.cycle_keeps {s t : State} (h : Tick s t) (hs : s.fsm ≠ .init) :
    t.regCount = s.regCount ∧ t.lastTime = s.lastTime ∧ t.inFlight = s.inFlight := by
  cases h with
  | search hi => exact absurd hi hs
  | convert | wait | toRead | readOne | readLast | fire | toConvert | rest => exact ⟨rfl, rfl, rfl⟩

theorem CyclePlace.fsm_ne_init {c n d k : Nat} {fsm : SchedulerState} {cd : Ticks} {cur : Nat}
    (h : CyclePlace c n d k fsm cd cur) : fsm ≠ .init := by
  cases h with
  | start _ hs | convertWait _ _ hs | read _ _ hs | readWait _ _ hs | finish _ hs => rw [hs]; decide

/-- Settles O50: the places of the cycle tick by tick, by `CyclePlace.tick`; the event by `ready_event`. -/
theorem cycleFiresReadyExactlyOnce : Obligations.CycleFiresReadyExactlyOnce := by
  intro s times rest hinv hwf hs hf hcb hi he hlen
  simp only [Params.wf, Bool.and_eq_true, decide_eq_true_eq] at hwf
  obtain ⟨⟨⟨⟨-, hc1⟩, hd1⟩, -⟩, -⟩ := hwf
  have hn1 : 1 ≤ s.regCount := by
    obtain ⟨-, -, -, -, ⟨-, hcyc, -, -⟩, -, -, -⟩ := hinv
    exact (hcyc (by rw [State.inCycle, hs]; rfl)).1
  have hrun := run_induct (P := CycleAt s times rest) (n := times.length)
    ⟨⟨⟨hf, hi⟩, he⟩, hinv, rfl, rfl, hcb, .start rfl hs, nofun, nofun⟩ ?_
  · refine ⟨fun k hk1 hk => ?_, ?_⟩
    · obtain ⟨u, hu, h⟩ := hrun k hk
      exact ⟨u, hu, h.ready hk1, h.event hk1⟩
    · obtain ⟨u, hu, h⟩ := hrun times.length (Nat.le_refl _)
      refine ⟨u, hu, ?_, by simpa [advanceCalls] using h.inputs⟩
      cases h.place with
      | finish _ hs => exact hs
      | start | convertWait | read | readWait => omega
  · intro k u hk h
    have hstep := h.toTicked.step hk
    have hrow : Tick (u.ticking (times.drop (k + 1)) rest times[k]) _ := tick_row _
    obtain ⟨kp, kin, -, kcb, -⟩ := hrow.keeps
    obtain ⟨kn, kt, kf⟩ := hrow.cycle_keeps h.place.fsm_ne_init
    have kinv := hrow.inv h.inv h.inFlight
    obtain ⟨kplace, kready⟩ := CyclePlace.tick (u := u.ticking (times.drop (k + 1)) rest times[k]) h.place
      (hlen ▸ hk) (by rw [← h.params]; rfl) (by rw [← h.params]; rfl) (by rw [← h.regCount]; rfl)
      hc1 hn1 hd1 h.cbSet rfl
    have kn' := kn.trans h.regCount
    refine ⟨_, hstep, h.toTicked.next hk (kf.trans h.inFlight) kin kp kt, kinv, kp.trans h.params, kn',
      kcb.trans h.cbSet, kplace, fun _ => kready, fun _ e hev => ?_⟩
    rw [← kn']
    exact ready_event hrow rfl kinv hev

end Sys2Proof.Machine
end

section
/-! PROOFS. READ_TEMPERATURE on the ideal bus (R75, R218): the addressed frame selects one device, and nine bytes are read
off its scratchpad. -/

namespace Sys2Proof.Machine

/-! ### The frame -/

/-- A device about to send bit `k` of its scratchpad if it has the address, and out of the frame otherwise (R75). -/
def Device.sendingIf (a : Addr) (k : Nat) (d : Device) : Device :=
  { d with phase := if d.addr = a then .sending k else .idle }

/-- The frame of an addressed read leaves a device sending if it has the address, and out of the frame otherwise. -/
theorem hear_addressedFrame (a : Addr) (d : Device) :
    ((0x55 :: addrBytes a ++ [0xBE]).flatMap byteBits).foldl (fun d x => Device.hearBit x d) d.restart =
      d.sendingIf a 0 := by
  have hmatch := hear_romCommand 0x55 d.restart rfl
  have hselect := hear_matching a (d.restart.romCommand 0x55) rfl
  rw [List.cons_append, List.flatMap_cons, List.flatMap_append, List.flatMap_singleton, List.foldl_append,
    List.foldl_append, hmatch, hselect]
  by_cases h : d.addr = a
  · have hsel : (d.restart.romCommand 0x55).addr = a := h
    rw [if_pos hsel, hear_functionCommand 0xBE _ rfl, Device.sendingIf, if_pos h]
    rfl
  · have hsel : ¬(d.restart.romCommand 0x55).addr = a := h
    rw [if_neg hsel, hear_idle _ _ rfl, Device.sendingIf, if_neg h]
    rfl

/-! ### Reading a scratchpad off the bus -/

/-- What the devices with the address send: a scratchpad, or nothing where no device has it (R75). -/
structure Sends (devices : List Device) (a : Addr) (sp : List Byte) : Prop where
  scratchpad : ∀ d ∈ devices, d.addr = a → d.scratchpad = sp
  silent : (∀ d ∈ devices, d.addr ≠ a) → sp = []

/-- Bit `k` of a scratchpad on the line; past its end the line is high (R75). -/
def sentBit (sp : List Byte) (k : Nat) : Bool := (sp.getD (k / 8) 0xFF).getLsbD (k % 8)

theorem sentBit_nil (k : Nat) : sentBit [] k = true := by
  have h : k % 8 < 8 := Nat.mod_lt _ (by decide)
  rw [sentBit, List.getD_nil]
  interval_cases k % 8 <;> rfl

theorem level_sendingIf (a : Addr) (k : Nat) (d : Device) : (d.sendingIf a k).level =
    if d.addr = a then sentBit d.scratchpad k else true := by
  by_cases h : d.addr = a <;> simp only [Device.sendingIf, h, if_true, if_false] <;> rfl

theorem afterRead_sendingIf (a : Addr) (k : Nat) (d : Device) : (d.sendingIf a k).afterRead = d.sendingIf a (k + 1) := by
  by_cases h : d.addr = a <;> simp only [Device.sendingIf, h, if_true, if_false] <;> rfl

/-- The wired AND of the devices is the bit sent: the other devices leave the line alone (R60, R75). -/
theorem wiredAnd_sendingIf {devices : List Device} {a : Addr} {sp : List Byte} (h : Sends devices a sp) (k : Nat) :
    wiredAnd (devices.map (Device.sendingIf a k)) = sentBit sp k := by
  have hall : wiredAnd (devices.map (Device.sendingIf a k)) = true ↔
      ∀ d ∈ devices, d.addr = a → sentBit sp k = true := by
    simp only [wiredAnd, List.all_eq_true, List.forall_mem_map, level_sendingIf]
    refine forall_congr' fun d => forall_congr' fun hd => ?_
    by_cases hda : d.addr = a
    · simp [hda, h.scratchpad d hd hda]
    · simp [hda]
  by_cases hex : ∃ d ∈ devices, d.addr = a
  · obtain ⟨d, hd, hda⟩ := hex
    rw [Bool.eq_iff_iff, hall]
    exact ⟨fun hk => hk d hd hda, fun hk _ _ _ => hk⟩
  · have hnone : ∀ d ∈ devices, d.addr ≠ a := fun d hd hda => hex ⟨d, hd, hda⟩
    rw [h.silent hnone, sentBit_nil, hall]
    exact fun d hd hda => absurd hda (hnone d hd)

/-- A read slot on an ideal bus: the wired AND, and every device on to its next bit (R75). -/
theorem readSlot_ideal {l : Line} {devices : List Device} (h : l.bus = .ideal devices) :
    l.readSlot.1 = wiredAnd devices ∧ l.readSlot.2.bus = .ideal (devices.map Device.afterRead) := by
  rw [readSlot_level, readSlot_spec default, h]
  exact ⟨rfl, rfl⟩

/-- Read slots take the bits in order. -/
theorem readBits_sends {devices : List Device} {a : Addr} {sp : List Byte} (h : Sends devices a sp) (n k : Nat) {l : Line}
    (hl : l.bus = .ideal (devices.map (Device.sendingIf a k))) :
    (l.readBits n).1 = (List.range n).map (fun i => sentBit sp (k + i)) ∧
      (l.readBits n).2.bus = .ideal (devices.map (Device.sendingIf a (k + n))) := by
  induction n generalizing k l with
  | zero => exact ⟨rfl, hl⟩
  | succ n ih =>
    obtain ⟨hlevel, hbus⟩ := readSlot_ideal hl
    rw [wiredAnd_sendingIf h] at hlevel
    have hnext : l.readSlot.2.bus = .ideal (devices.map (Device.sendingIf a (k + 1))) := by
      rw [hbus, List.map_map]
      exact congrArg _ (List.map_congr_left fun d _ => afterRead_sendingIf a k d)
    obtain ⟨hbits, hbus'⟩ := ih (k + 1) hnext
    refine ⟨?_, by rw [Line.readBits, hbus', Nat.add_right_comm, Nat.add_assoc]⟩
    rw [Line.readBits, hlevel, hbits, List.range_succ_eq_map, List.map_cons, List.map_map]
    refine congrArg _ (List.map_congr_left fun i _ => ?_)
    rw [Function.comp_apply, Nat.succ_eq_add_one, Nat.add_assoc, Nat.add_comm 1 i]

theorem byteOfBits_byteBits : ∀ v : Byte, byteOfBits (byteBits v) = v := by decide +kernel

/-- Eight of them make up a byte of the scratchpad. -/
theorem byte_of_sentBits (sp : List Byte) (j : Nat) :
    byteOfBits ((List.range 8).map (fun i => sentBit sp (8 * j + i))) = sp.getD j 0xFF := by
  have h : (List.range 8).map (fun i => sentBit sp (8 * j + i)) = byteBits (sp.getD j 0xFF) := by
    rw [byteBits]
    simp only [sentBit, List.range, List.range.loop, List.map_cons, List.map_nil, Nat.mul_add_mod,
      Nat.mul_add_div (show 8 > 0 by decide)]
    rfl
  rw [h, byteOfBits_byteBits]

/-- Bytes are read in index order. -/
theorem readBytes_sends {devices : List Device} {a : Addr} {sp : List Byte} (h : Sends devices a sp) (n j : Nat) {l : Line}
    (hl : l.bus = .ideal (devices.map (Device.sendingIf a (8 * j)))) :
    (l.readBytes n).1 = (List.range n).map (fun i => sp.getD (j + i) 0xFF) := by
  induction n generalizing j l with
  | zero => rfl
  | succ n ih =>
    obtain ⟨hbits, hbus⟩ := readBits_sends h 8 (8 * j) hl
    have hbyte : l.readByte.1 = sp.getD j 0xFF := by rw [Line.readByte, hbits, byte_of_sentBits]
    have hnext : l.readByte.2.bus = .ideal (devices.map (Device.sendingIf a (8 * (j + 1)))) := hbus
    rw [Line.readBytes, hbyte, ih (j + 1) hnext, List.range_succ_eq_map, List.map_cons, List.map_map]
    refine congrArg _ (List.map_congr_left fun i _ => ?_)
    rw [Function.comp_apply, Nat.succ_eq_add_one, Nat.add_assoc, Nat.add_comm 1 i]

/-! ### READ_TEMPERATURE -/

/-- READ_TEMPERATURE on an ideal bus that is not empty reads the nine bytes sent (R218). -/
theorem exec_readTemperature_ideal {s : State} {devices : List Device} {sp : List Byte} (hb : s.line.bus = .ideal devices)
    (hne : devices ≠ []) (h : Sends devices s.ops.addr sp) :
    let read := (List.range 9).map (fun i => sp.getD i 0xFF)
    ∃ t, exec .readTemperature s = .next t ∧ t.spBuf = read ∧ t.res.temp = some (
      if scratchpadCrcOk read then decodeTemperature s.params s.ops.addr read else s.params.tempSentinel) := by
  intro read
  have hanswer : s.line.bus.answer .resetSlot (s.line.hist ++ [.driveLow s.params.tRstl, .release 70]) =
      (false, .ideal (devices.map Device.restart)) := by
    rw [hb]
    exact Prod.ext (List.isEmpty_eq_false_iff.2 hne) rfl
  have hlevel : (s.line.resetSlot s.params).1 = false := by rw [resetSlot_level, hanswer]
  have hframe := addressedFrame_spec hlevel s.ops.addr
  have hbus : (((s.line.resetSlot s.params).2.selectAddressed s.ops.addr).writeByte 0xBE).bus =
      .ideal (devices.map (Device.sendingIf s.ops.addr (8 * 0))) := by
    rw [hframe, hanswer, written_ideal, List.map_map]
    exact congrArg _ (List.map_congr_left fun d _ => hear_addressedFrame s.ops.addr d)
  have hread := readBytes_sends h 9 0 hbus
  simp only [Nat.zero_add] at hread
  refine ⟨_, exec_readTemperature s, ?_⟩
  rw [readTemperature_present hlevel]
  exact ⟨hread, by rw [hread]⟩

/-- Nine bytes of a scratchpad of nine are the scratchpad. -/
theorem read_scratchpad {sp : List Byte} (h : sp.length = 9) : (List.range 9).map (fun i => sp.getD i 0xFF) = sp := by
  refine List.ext_getElem (by simp [h]) fun i h1 h2 => ?_
  simp [List.getD_eq_getElem?_getD, h2]

/-- Settles O33: with distinct addresses one device sends its scratchpad; where none has the address the nine bytes are 0xFF,
whose CRC is bad. -/
theorem readTemperatureOnTheIdealBus : Obligations.ReadTemperatureOnTheIdealBus := by
  refine fun s devices hb hne hnodup => ⟨fun d hd hda hlen => ?_, fun hnone => ?_⟩
  · have hsends : Sends devices s.ops.addr d.scratchpad := by
      refine ⟨fun e he hea => ?_, fun h => absurd hda (h d hd)⟩
      rw [List.inj_on_of_nodup_map hnodup he hd (hea.trans hda.symm)]
    obtain ⟨t, ht, hsp, htemp⟩ := exec_readTemperature_ideal hb hne hsends
    rw [read_scratchpad hlen] at hsp htemp
    exact ⟨t, ht, hsp, htemp⟩
  · obtain ⟨t, ht, hsp, htemp⟩ := exec_readTemperature_ideal (sp := []) hb hne
      ⟨fun d hd hda => absurd hda (hnone d hd), fun _ => rfl⟩
    have hff : (List.range 9).map (fun i => ([] : List Byte).getD i 0xFF) = List.replicate 9 0xFF := rfl
    have hbad : scratchpadCrcOk (List.replicate 9 0xFF) = false := by decide +kernel
    rw [hff] at hsp htemp
    rw [hbad] at htemp
    exact ⟨t, ht, hsp, htemp⟩

end Sys2Proof.Machine
end

section
/-! PROOFS. The leaves of the search tree in order (R194): the place of an address, and the successor of a leaf among a
set of addresses, as the marker finds it (R186, R189). -/

namespace Sys2Proof.Machine

/-! ### The place of an address -/

theorem leafFrom_lt (a : Addr) (n p : Nat) : leafFrom a n p < 2 ^ n := by
  induction n generalizing p with
  | zero => exact Nat.one_pos
  | succ k ih =>
    have h := ih (p + 1)
    rw [leafFrom, Nat.pow_succ]
    cases positionBit a p
    · simp only [Bool.toNat_false, Nat.zero_mul]
      omega
    · simp only [Bool.toNat_true, Nat.one_mul]
      omega

/-- `leafOrder` is the number of the 64 positions, position 1 first. -/
theorem leafOrder_eq (a : Addr) : leafOrder a = leafFrom a 64 1 := by
  have h : ∀ n i acc, (List.range' i n).foldl (fun m j => 2 * m + (positionBit a (j + 1)).toNat) acc =
      acc * 2 ^ n + leafFrom a n (i + 1) := by
    intro n
    induction n with
    | zero => intro i acc; simp [leafFrom]
    | succ k ih =>
      intro i acc
      rw [List.range'_succ, List.foldl_cons, ih, leafFrom, Nat.pow_succ]
      ring
  rw [leafOrder, List.range_eq_range', h 64 0 0, Nat.zero_mul, Nat.zero_add]

/-- Two addresses agree on their first `n` search positions. -/
abbrev Agree (n : Nat) (a b : Addr) : Prop := ∀ j < n, positionBit a (j + 1) = positionBit b (j + 1)

theorem Agree.symm {n : Nat} {a b : Addr} (h : Agree n a b) : Agree n b a := fun j hj => (h j hj).symm

theorem Agree.trans {n : Nat} {a b c : Addr} (h : Agree n a b) (k : Agree n b c) : Agree n a c :=
  fun j hj => (h j hj).trans (k j hj)

theorem Agree.mono {m n : Nat} {a b : Addr} (h : Agree n a b) (hm : m ≤ n) : Agree m a b :=
  fun j hj => h j (Nat.lt_of_lt_of_le hj hm)

theorem agree_succ {n : Nat} {a b : Addr} :
    Agree (n + 1) a b ↔ Agree n a b ∧ positionBit a (n + 1) = positionBit b (n + 1) := Nat.forall_lt_succ_right

/-- Addresses that agree on all 64 positions are equal. -/
theorem eq_of_agree {a b : Addr} (h : Agree 64 a b) : a = b := by
  apply BitVec.eq_of_getLsbD_eq
  intro i hi
  simpa [positionBit_eq] using h i hi

/-- Different addresses have a first position at which they differ. -/
theorem exists_first_difference {a b : Addr} (h : a ≠ b) :
    ∃ j < 64, Agree j a b ∧ positionBit a (j + 1) ≠ positionBit b (j + 1) := by
  have hex : ∃ j, j < 64 ∧ positionBit a (j + 1) ≠ positionBit b (j + 1) := by
    by_contra hno
    push Not at hno
    exact h (eq_of_agree hno)
  obtain ⟨hlt, hne⟩ := Nat.find_spec hex
  refine ⟨Nat.find hex, hlt, fun j hj => ?_, hne⟩
  by_contra hjne
  exact Nat.find_min hex hj ⟨by omega, hjne⟩

/-- The address with the 0 at the first difference comes first (R194). -/
theorem leafOrder_lt {j : Nat} {a b : Addr} (hj : j < 64) (h : Agree j a b) (ha : positionBit a (j + 1) = false)
    (hb : positionBit b (j + 1) = true) : leafOrder a < leafOrder b := by
  have key : ∀ n p, p ≤ j → p + n = 64 → leafFrom a n (p + 1) < leafFrom b n (p + 1) := by
    intro n
    induction n with
    | zero => intro p hp hn; omega
    | succ k ih =>
      intro p hp hn
      rw [leafFrom, leafFrom]
      rcases Nat.lt_or_eq_of_le hp with hlt | rfl
      · rw [h p hlt]
        exact Nat.add_lt_add_left (ih (p + 1) hlt (by omega)) _
      · have := leafFrom_lt a k (p + 1 + 1)
        rw [ha, hb]
        simp only [Bool.toNat_false, Bool.toNat_true]
        omega
  rw [leafOrder_eq, leafOrder_eq]
  exact key 64 0 (Nat.zero_le _) rfl

theorem leafOrder_injective {a b : Addr} (h : leafOrder a = leafOrder b) : a = b := by
  by_contra hne
  obtain ⟨j, hj, hag, hbit⟩ := exists_first_difference hne
  cases ha : positionBit a (j + 1) <;> cases hb : positionBit b (j + 1)
  · exact hbit (ha.trans hb.symm)
  · exact absurd (leafOrder_lt hj hag ha hb) (by omega)
  · exact absurd (leafOrder_lt hj hag.symm hb ha) (by omega)
  · exact hbit (ha.trans hb.symm)

/-! ### A set of addresses in leaf order -/

/-- The addresses of a list, each once, in leaf order. -/
structure LeafSorted (addrs xs : List Addr) : Prop where
  mem : ∀ a, a ∈ xs ↔ a ∈ addrs
  sorted : xs.Pairwise (fun a b => leafOrder a < leafOrder b)

theorem exists_leafSorted (addrs : List Addr) : ∃ xs, LeafSorted addrs xs ∧ xs.length = addrs.dedup.length := by
  refine ⟨addrs.dedup.mergeSort (fun a b => decide (leafOrder a ≤ leafOrder b)), ⟨fun a => ?_, ?_⟩, ?_⟩
  · rw [List.mem_mergeSort, List.mem_dedup]
  · have hle := List.pairwise_mergeSort (le := fun a b => decide (leafOrder a ≤ leafOrder b))
      (fun a b c hab hbc => by simp only [decide_eq_true_eq] at *; omega)
      (fun a b => by simp only [Bool.or_eq_true, decide_eq_true_eq]; omega) addrs.dedup
    have hnd : (addrs.dedup.mergeSort (fun a b => decide (leafOrder a ≤ leafOrder b))).Nodup :=
      (List.mergeSort_perm _ _).nodup_iff.2 (List.nodup_dedup _)
    refine (hle.and hnd).imp fun {a b} h => ?_
    have h1 : leafOrder a ≤ leafOrder b := by simpa using h.1
    exact Nat.lt_of_le_of_ne h1 fun he => h.2 (leafOrder_injective he)
  · rw [List.length_mergeSort]

/-- Position `j + 1` is a discrepancy on the way to `x`: an address that agrees so far has the other bit there (R186). -/
abbrev Splits (addrs : List Addr) (x : Addr) (j : Nat) : Prop :=
  ∃ y ∈ addrs, Agree j y x ∧ positionBit y (j + 1) ≠ positionBit x (j + 1)

/-- A discrepancy at which the way to `x` takes the 0: the next leaf branches off at the last of them (R187). -/
abbrev ZeroTaken (addrs : List Addr) (x : Addr) (j : Nat) : Prop :=
  Splits addrs x j ∧ positionBit x (j + 1) = false

/-- The registers lead to `x`: at every discrepancy on the way the direction taken is the bit of `x` (R186). -/
def Search.Leads (q : Search) (addrs : List Addr) (x : Addr) : Prop :=
  ∀ j < 64, Splits addrs x j → positionBit x (j + 1) = q.direction (j + 1)

/-- The candidate after positions were walked on the way to `x` (R187). -/
def lastZeroTaken (addrs : List Addr) (x : Addr) (positions : List Nat) (c : Nat) : Nat :=
  positions.foldl (fun c j => if ZeroTaken addrs x j then j + 1 else c) c

theorem lastZeroTaken_none {addrs : List Addr} {x : Addr} {n : Nat} (h : ∀ j < n, ¬ZeroTaken addrs x j) :
    lastZeroTaken addrs x (List.range n) 0 = 0 := by
  induction n with
  | zero => rfl
  | succ k ih =>
    rw [lastZeroTaken, List.range_succ, List.foldl_append, List.foldl_cons, List.foldl_nil, if_neg (h k (by omega))]
    exact ih fun j hj => h j (by omega)

theorem lastZeroTaken_last {addrs : List Addr} {x : Addr} {n i : Nat} (hi : i < n) (hz : ZeroTaken addrs x i)
    (h : ∀ j < n, i < j → ¬ZeroTaken addrs x j) : lastZeroTaken addrs x (List.range n) 0 = i + 1 := by
  induction n with
  | zero => omega
  | succ k ih =>
    rw [lastZeroTaken, List.range_succ, List.foldl_append, List.foldl_cons, List.foldl_nil]
    by_cases hik : i = k
    · subst hik
      exact if_pos hz
    · rw [if_neg (h k (by omega) (by omega))]
      exact ih (by omega) fun j hj => h j (by omega)

/-! ### The first leaf, the next leaf, the last leaf -/

section
variable {addrs xs : List Addr} (hxs : LeafSorted addrs xs)
include hxs

/-- At marker zero the registers lead to the first leaf: every discrepancy takes the 0. -/
theorem LeafSorted.leads_first {x : Addr} {ys : List Addr} (hx : xs = x :: ys) {q : Search} (hq : q.lastDisc = 0) :
    q.Leads addrs x := by
  rintro j hj ⟨y, hy, hag, hne⟩
  have hdir : q.direction (j + 1) = false := by
    rw [Search.direction, if_neg (by omega), hq]
    rfl
  rw [hdir]
  by_contra hbit
  rw [Bool.not_eq_false] at hbit
  have hlt : leafOrder y < leafOrder x := leafOrder_lt hj hag (by rwa [hbit, ← Bool.eq_false_iff] at hne) hbit
  have hmem := (hxs.mem y).2 hy
  have hsort := hxs.sorted
  rw [hx] at hmem hsort
  rcases List.mem_cons.1 hmem with rfl | hmem
  · omega
  · have := List.rel_of_pairwise_cons hsort hmem
    omega

/-- On the way to the last leaf no discrepancy takes the 0, so the marker becomes zero. -/
theorem LeafSorted.last_marker {x : Addr} {pre : List Addr} (hx : xs = pre ++ [x]) :
    lastZeroTaken addrs x (List.range 64) 0 = 0 := by
  refine lastZeroTaken_none ?_
  rintro j hj ⟨⟨y, hy, hag, hne⟩, hbit⟩
  have hlt : leafOrder x < leafOrder y := leafOrder_lt hj hag.symm hbit (by rwa [hbit, Bool.ne_false_iff] at hne)
  have hmem := (hxs.mem y).2 hy
  have hsort := hxs.sorted
  rw [hx] at hmem hsort
  rcases List.mem_append.1 hmem with hmem | hmem
  · have := (List.pairwise_append.1 hsort).2.2 y hmem x (List.mem_singleton.2 rfl)
    omega
  · rw [List.mem_singleton.1 hmem] at hlt
    omega

/-- Between a leaf and the next there is none. -/
theorem LeafSorted.no_leaf_between {x x' : Addr} {pre ys : List Addr} (hx : xs = pre ++ x :: x' :: ys) {y : Addr}
    (hy : y ∈ addrs) : ¬(leafOrder x < leafOrder y ∧ leafOrder y < leafOrder x') := by
  have hmem := (hxs.mem y).2 hy
  have hsort := hxs.sorted
  rw [hx] at hmem hsort
  obtain ⟨-, htail, hpre⟩ := List.pairwise_append.1 hsort
  rintro ⟨h1, h2⟩
  rcases List.mem_append.1 hmem with hmem | hmem
  · have := hpre y hmem x List.mem_cons_self
    omega
  · rcases List.mem_cons.1 hmem with rfl | hmem
    · omega
    · rcases List.mem_cons.1 hmem with rfl | hmem
      · omega
      · have := List.rel_of_pairwise_cons (List.pairwise_cons.1 htail).2 hmem
        omega

/-- The marker left on the way to a leaf is the position at which the next leaf branches off, and it leads there. -/
theorem LeafSorted.next_leaf {x x' : Addr} {pre ys : List Addr} (hx : xs = pre ++ x :: x' :: ys) {q : Search}
    (hrom : q.romBuf = x) (hq : q.lastDisc = lastZeroTaken addrs x (List.range 64) 0) :
    q.lastDisc ≠ 0 ∧ q.Leads addrs x' := by
  have hx' : x' ∈ addrs := (hxs.mem x').1 (by rw [hx]; simp)
  have hlt : leafOrder x < leafOrder x' := by
    have hsort := hxs.sorted
    rw [hx] at hsort
    exact List.rel_of_pairwise_cons (List.pairwise_append.1 hsort).2.1 List.mem_cons_self
  obtain ⟨i, hi, hag, hne⟩ := exists_first_difference (a := x) (b := x') (by rintro rfl; omega)
  obtain ⟨hb, hb'⟩ : positionBit x (i + 1) = false ∧ positionBit x' (i + 1) = true := by
    cases hb : positionBit x (i + 1) <;> cases hb' : positionBit x' (i + 1)
    · exact absurd (hb.trans hb'.symm) hne
    · exact ⟨rfl, rfl⟩
    · have := leafOrder_lt hi hag.symm hb' hb
      omega
    · exact absurd (hb.trans hb'.symm) hne
  have hmarker : q.lastDisc = i + 1 := by
    refine hq.trans (lastZeroTaken_last hi ⟨⟨x', hx', hag.symm, by rw [hb, hb']; decide⟩, hb⟩ ?_)
    rintro j hj hij ⟨⟨y, hy, hyag, hyne⟩, hbit⟩
    refine hxs.no_leaf_between hx hy ⟨?_, ?_⟩
    · exact leafOrder_lt hj hyag.symm hbit (by rwa [hbit, Bool.ne_false_iff] at hyne)
    · exact leafOrder_lt hi ((hyag.mono hij.le).trans hag) ((hyag i hij).trans hb) hb'
  refine ⟨by omega, ?_⟩
  rintro j hj ⟨y, hy, hyag, hyne⟩
  rcases Nat.lt_trichotomy j i with hji | rfl | hij
  · rw [Search.direction, if_pos (by omega), hrom, hag j hji]
  · rw [Search.direction, if_neg (by omega), hmarker, hb', beq_self_eq_true]
  · have hdir : q.direction (j + 1) = false := by
      rw [Search.direction, if_neg (by omega), hmarker]
      exact beq_eq_false_iff_ne.2 (by omega)
    rw [hdir]
    by_contra hbit
    rw [Bool.not_eq_false] at hbit
    refine hxs.no_leaf_between hx hy ⟨?_, ?_⟩
    · exact leafOrder_lt hi (hag.trans (hyag.mono hij.le).symm) hb ((hyag i hij).trans hb')
    · exact leafOrder_lt hj hyag (by rwa [hbit, ← Bool.eq_false_iff] at hyne) hbit

end

end Sys2Proof.Machine
end

section
/-! PROOFS. A search on the ideal bus (R75, R194): each pass walks to one leaf, and the passes take the leaves in order. -/

namespace Sys2Proof.Machine

/-! ### Slots played, with the levels sampled -/

/-- `m` is the line after the slots `xs` from `l`, the levels being those sampled. -/
structure Line.Plays (p : Params) (l m : Line) (xs : List Slot) : Prop where
  line : m = l.playSlots p xs
  hist : m.hist = l.hist ++ slotEvents p xs

theorem Line.Plays.refl (p : Params) (l : Line) : l.Plays p l [] := ⟨rfl, by simp⟩

theorem Line.Plays.trans {p : Params} {l m n : Line} {xs ys : List Slot} (h : l.Plays p m xs) (k : m.Plays p n ys) :
    l.Plays p n (xs ++ ys) :=
  ⟨by rw [k.line, h.line, playSlots_append], by rw [k.hist, h.hist, slotEvents_append, List.append_assoc]⟩

theorem resetSlot_plays (p : Params) (l : Line) : l.Plays p (l.resetSlot p).2 [.rst (l.resetSlot p).1] :=
  ⟨rfl, (resetSlot_grows p l).hist⟩

theorem readSlot_plays (p : Params) (l : Line) : l.Plays p l.readSlot.2 [.rd l.readSlot.1] :=
  ⟨rfl, (readSlot_grows p l).hist⟩

theorem writeSlot_plays (p : Params) (b : Bool) (l : Line) : l.Plays p (l.writeSlot b) [.w b] :=
  ⟨rfl, (writeSlot_grows p b l).hist⟩

theorem writeByte_plays (p : Params) (v : Byte) (l : Line) : l.Plays p (l.writeByte v) (writtenByte v) :=
  ⟨(playSlots_writtenByte p v l).symm, (writeByte_grows p v l).hist⟩

/-! ### The devices on a pass -/

/-- Whether a device takes part in a search (R75, R194). -/
def Device.takesPart (alarmOnly : Bool) (d : Device) : Bool := !alarmOnly || d.alarm

/-- The addresses of the devices that take part in a search. -/
def participants (alarmOnly : Bool) (devices : List Device) : List Addr :=
  (takingPart alarmOnly devices).map (fun d => d.addr)

theorem mem_participants {f : Bool} {devices : List Device} {a : Addr} :
    a ∈ participants f devices ↔ ∃ d ∈ devices, d.takesPart f = true ∧ d.addr = a := by
  cases f <;> simp [participants, takingPart, Device.takesPart, and_assoc]

/-- What a pass does to a device is only where it stands in the frame: a reset slot undoes it (R75). -/
theorem participants_of_restart {f : Bool} {ds ds' : List Device}
    (h : ds'.map Device.restart = ds.map Device.restart) : participants f ds' = participants f ds := by
  have hrestart : ∀ es : List Device, participants f es = participants f (es.map Device.restart) := by
    intro es
    cases f
    · simp only [participants, takingPart, Bool.false_eq_true, if_false, List.map_map]
      rfl
    · simp only [participants, takingPart, if_true, List.filter_map, List.map_map]
      rfl
  rw [hrestart ds', hrestart ds, h]

/-- A device is on the way to `x` after `i` positions: it takes part, and agrees with `x` so far (R75). -/
abbrev Device.OnWay (f : Bool) (x : Addr) (i : Nat) (d : Device) : Prop := d.takesPart f = true ∧ Agree i d.addr x

/-- A device on a pass that walks to `x`: in the phase given while it is on the way, out of the frame otherwise (R75). -/
def Device.onPath (f : Bool) (x : Addr) (i : Nat) (phase : DevPhase) (d : Device) : Device :=
  { d with phase := if d.OnWay f x i then phase else .idle }

theorem onPath_of_onWay {f : Bool} {x : Addr} {i : Nat} {d : Device} (h : d.OnWay f x i) (phase : DevPhase) :
    d.onPath f x i phase = { d with phase := phase } := by
  rw [Device.onPath, if_pos h]

theorem onPath_of_not_onWay {f : Bool} {x : Addr} {i : Nat} {d : Device} (h : ¬d.OnWay f x i) (phase : DevPhase) :
    d.onPath f x i phase = { d with phase := .idle } := by
  rw [Device.onPath, if_neg h]

theorem onPath_restart (f : Bool) (x : Addr) (i : Nat) (phase : DevPhase) (ds : List Device) :
    (ds.map (Device.onPath f x i phase)).map Device.restart = ds.map Device.restart := by
  rw [List.map_map]
  rfl

/-- The phase of a device between two positions: about to send the bit of the next one, and out after the last. -/
def betweenPositions (i : Nat) : DevPhase := if i < 64 then .searchBit (i + 1) else .idle

theorem agree_zero (a b : Addr) : Agree 0 a b := fun _ hj => absurd hj (Nat.not_lt_zero _)

/-- The command byte of a pass puts the devices that take part at position 1 (R75, R182). -/
theorem hear_searchCommand (f : Bool) (x : Addr) (d : Device) :
    (byteBits (searchCommand f)).foldl (fun d b => Device.hearBit b d) d.restart =
      d.onPath f x 0 (betweenPositions 0) := by
  rw [hear_romCommand _ _ rfl]
  by_cases h : d.takesPart f = true
  · rw [onPath_of_onWay ⟨h, agree_zero _ _⟩]
    cases f
    · rfl
    · have ha : d.alarm = true := h
      simp only [searchCommand, Device.romCommand, Device.restart, ha]
      rfl
  · rw [onPath_of_not_onWay fun k => h k.1]
    cases f
    · exact absurd rfl h
    · have ha : d.alarm = false := Bool.eq_false_iff.2 h
      simp only [searchCommand, Device.romCommand, Device.restart, ha]
      rfl

theorem afterRead_bit (f : Bool) (x : Addr) (i p : Nat) :
    Device.afterRead ∘ Device.onPath f x i (.searchBit p) = Device.onPath f x i (.searchComplement p) := by
  funext d
  rw [Function.comp_apply]
  by_cases h : d.OnWay f x i
  · rw [onPath_of_onWay h, onPath_of_onWay h]; rfl
  · rw [onPath_of_not_onWay h, onPath_of_not_onWay h]; rfl

theorem afterRead_complement (f : Bool) (x : Addr) (i p : Nat) :
    Device.afterRead ∘ Device.onPath f x i (.searchComplement p) = Device.onPath f x i (.searchDirection p) := by
  funext d
  rw [Function.comp_apply]
  by_cases h : d.OnWay f x i
  · rw [onPath_of_onWay h, onPath_of_onWay h]; rfl
  · rw [onPath_of_not_onWay h, onPath_of_not_onWay h]; rfl

/-- The direction written keeps the devices whose bit it is (R75, R188). -/
theorem hearBit_direction (f : Bool) (x : Addr) (i : Nat) :
    Device.hearBit (positionBit x (i + 1)) ∘ Device.onPath f x i (.searchDirection (i + 1)) =
      Device.onPath f x (i + 1) (betweenPositions (i + 1)) := by
  funext d
  rw [Function.comp_apply]
  by_cases h : d.OnWay f x i
  · rw [onPath_of_onWay h]
    by_cases hb : positionBit d.addr (i + 1) = positionBit x (i + 1)
    · rw [onPath_of_onWay ⟨h.1, agree_succ.2 ⟨h.2, hb⟩⟩]
      by_cases hl : i + 1 < 64 <;> simp [Device.hearBit, betweenPositions, hb, hl]
    · rw [onPath_of_not_onWay fun k => hb (agree_succ.1 k.2).2]
      simp [Device.hearBit, hb]
  · rw [onPath_of_not_onWay h, onPath_of_not_onWay fun k => h ⟨k.1, (agree_succ.1 k.2).1⟩]
    rfl

/-- The wired AND of the devices on the way, each letting the line have its own bit or each its complement: what `x` would
let it have, or 0 at a discrepancy (R60, R184). -/
theorem wiredAnd_onPath {f : Bool} {ds : List Device} {x : Addr} (hx : x ∈ participants f ds) (i : Nat) (phase : DevPhase)
    (g : Bool → Bool) (hg : ∀ a b, a ≠ b → g a = !g b)
    (hlevel : ∀ d : Device, Device.level { d with phase := phase } = g (positionBit d.addr (i + 1))) :
    wiredAnd (ds.map (Device.onPath f x i phase)) =
      (g (positionBit x (i + 1)) && !decide (Splits (participants f ds) x i)) := by
  have hall : wiredAnd (ds.map (Device.onPath f x i phase)) = true ↔
      ∀ d ∈ ds, d.OnWay f x i → g (positionBit d.addr (i + 1)) = true := by
    simp only [wiredAnd, List.all_eq_true, List.forall_mem_map]
    refine forall_congr' fun d => forall_congr' fun _ => ?_
    by_cases h : d.OnWay f x i
    · rw [onPath_of_onWay h, hlevel]
      exact ⟨fun k _ => k, fun k => k h⟩
    · rw [onPath_of_not_onWay h]
      exact iff_of_true rfl fun k => absurd k h
  rw [Bool.eq_iff_iff, hall, Bool.and_eq_true, Bool.not_eq_true', decide_eq_false_iff_not]
  obtain ⟨e, he, htake, rfl⟩ := mem_participants.1 hx
  refine ⟨fun h => ⟨h e he ⟨htake, fun _ _ => rfl⟩, ?_⟩, fun ⟨hgx, hns⟩ d hd hw => ?_⟩
  · rintro ⟨y, hy, hag, hne⟩
    obtain ⟨d, hd, hdtake, rfl⟩ := mem_participants.1 hy
    have h1 := h d hd ⟨hdtake, hag⟩
    rw [hg _ _ hne, h e he ⟨htake, fun _ _ => rfl⟩] at h1
    cases h1
  · by_contra hne
    refine hns ⟨d.addr, mem_participants.2 ⟨d, hd, hw.1, rfl⟩, hw.2, fun hb => hne ?_⟩
    rw [hb, hgx]

/-! ### One position on the way -/

/-- What a position on the way to `x` puts on the line: the bit and its complement, both 0 at a discrepancy, and the bit of
`x` as the direction (R95, R184). -/
def pathStep (addrs : List Addr) (x : Addr) (i : Nat) : Bool × Bool × Bool :=
  (positionBit x (i + 1) && !decide (Splits addrs x i), !positionBit x (i + 1) && !decide (Splits addrs x i),
    positionBit x (i + 1))

/-- The registers after a position on the way to `x` (R186 to R188). -/
def Search.stepTo (q : Search) (addrs : List Addr) (x : Addr) (i : Nat) : Search :=
  { q.commit (i + 1) (decide (Splits addrs x i)) (positionBit x (i + 1)) with pos := i + 1 }

/-- The candidate moves at a discrepancy that takes the 0 (R187). -/
theorem Search.stepTo_candDisc (q : Search) (addrs : List Addr) (x : Addr) (i : Nat) :
    (q.stepTo addrs x i).candDisc = if ZeroTaken addrs x i then i + 1 else q.candDisc := by
  simp only [Search.stepTo, Search.commit_candDisc, ZeroTaken, Bool.and_eq_true, decide_eq_true_eq, Bool.not_eq_true']

/-- The bit of `x` is stored at the position and at no other (R188). -/
theorem Search.stepTo_bit (q : Search) (addrs : List Addr) (x : Addr) {i j : Nat} (hi : i < 64) (hj : j < 64) :
    positionBit (q.stepTo addrs x i).romBuf (j + 1) =
      if j = i then positionBit x (i + 1) else positionBit q.romBuf (j + 1) := by
  have h := positionBit_setPosition q.romBuf (p := i + 1) (k := j + 1) (positionBit x (i + 1)) ⟨by omega, by omega⟩
    ⟨by omega, by omega⟩
  simp only [Nat.add_right_cancel_iff] at h
  exact h

/-- One position of a pass, where the registers lead to `x` (R184 to R188). -/
theorem searchPosition_onPath (c : Params) {f : Bool} {ds : List Device} {x : Addr} (hx : x ∈ participants f ds) {i : Nat}
    (hi : i < 64) {q : Search} (hq : Splits (participants f ds) x i → positionBit x (i + 1) = q.direction (i + 1))
    {l : Line} (hl : l.bus = .ideal (ds.map (Device.onPath f x i (betweenPositions i)))) :
    ∃ m, searchPosition (i + 1) q l = (false, q.stepTo (participants f ds) x i, m) ∧
      m.bus = .ideal (ds.map (Device.onPath f x (i + 1) (betweenPositions (i + 1)))) ∧
      l.Plays c m (positionSlots (pathStep (participants f ds) x i)) := by
  rw [betweenPositions, if_pos hi] at hl
  obtain ⟨h1, hb1⟩ := readSlot_ideal hl
  rw [wiredAnd_onPath hx i _ id (by decide) fun _ => rfl] at h1
  rw [List.map_map, afterRead_bit] at hb1
  obtain ⟨h2, hb2⟩ := readSlot_ideal hb1
  rw [wiredAnd_onPath hx i _ (fun b => !b) (by decide) fun _ => rfl] at h2
  rw [List.map_map, afterRead_complement] at hb2
  have hplays := ((readSlot_plays c l).trans (readSlot_plays c l.readSlot.2)).trans
    (writeSlot_plays c (positionBit x (i + 1)) l.readSlot.2.readSlot.2)
  rw [h1, h2] at hplays
  refine ⟨l.readSlot.2.readSlot.2.writeSlot (positionBit x (i + 1)), ?_, ?_, hplays⟩
  · have hgo : ¬(l.readSlot.1 = true ∧ l.readSlot.2.readSlot.1 = true) := by
      rw [h1, h2]
      by_cases hb : positionBit x (i + 1) = true <;> simp [hb]
    rw [searchPosition_go hgo, h1, h2, Search.stepTo]
    by_cases hs : Splits (participants f ds) x i
    · simp only [hs, decide_true, Bool.not_true, Bool.and_false, bne_self_eq_false, beq_self_eq_true, hq hs,
        Bool.false_eq_true, if_false]
    · rw [decide_eq_false hs]
      by_cases hb : positionBit x (i + 1) = true <;> simp [hb]
  · have hbus : (l.readSlot.2.readSlot.2.writeSlot (positionBit x (i + 1))).bus =
        l.readSlot.2.readSlot.2.bus.written (positionBit x (i + 1)) := by rw [writeSlot_spec c]
    rw [hbus, hb2, Bus.written, List.map_map, hearBit_direction]

end Sys2Proof.Machine
end

section
/-! PROOFS. The passes of a search on the ideal bus (R189 to R194): one pass to each leaf, in order, and the end. -/

namespace Sys2Proof.Machine

/-! ### One pass -/

/-- A direction is the same in registers with the same marker and the same bit stored there (R186). -/
theorem direction_congr {p : Nat} {q r : Search} (hm : q.lastDisc = r.lastDisc)
    (hb : positionBit q.romBuf p = positionBit r.romBuf p) : q.direction p = r.direction p := by
  rw [Search.direction, Search.direction, hm, hb]

/-- A walk to `x`, from position `i + 1` on (R184 to R188). -/
theorem searchWalk_onPath (c : Params) {f : Bool} {ds : List Device} {x : Addr} (hx : x ∈ participants f ds) (n i : Nat)
    (hn : i + n = 64) {q : Search}
    (hq : ∀ j, i ≤ j → j < 64 → Splits (participants f ds) x j → positionBit x (j + 1) = q.direction (j + 1))
    {l : Line} (hl : l.bus = .ideal (ds.map (Device.onPath f x i (betweenPositions i)))) :
    let r := searchWalk n (i + 1) q l
    r.2.bus = .ideal (ds.map (Device.onPath f x 64 .idle)) ∧
      l.Plays c r.2 ((List.range' i n).flatMap (fun j => positionSlots (pathStep (participants f ds) x j))) ∧
      r.1.fault = q.fault ∧ r.1.candDisc = lastZeroTaken (participants f ds) x (List.range' i n) q.candDisc ∧
      (∀ j < i, positionBit r.1.romBuf (j + 1) = positionBit q.romBuf (j + 1)) ∧
      ∀ j, i ≤ j → j < 64 → positionBit r.1.romBuf (j + 1) = positionBit x (j + 1) := by
  induction n generalizing i q l with
  | zero =>
    obtain rfl : i = 64 := by omega
    exact ⟨hl, .refl c l, rfl, rfl, fun _ _ => rfl, fun _ h h' => absurd h' (by omega)⟩
  | succ n ih =>
    have hi : i < 64 := by omega
    obtain ⟨m, hpos, hbus, hplays⟩ := searchPosition_onPath c hx hi (hq i (Nat.le_refl i) hi) hl
    have hwalk : searchWalk (n + 1) (i + 1) q l = searchWalk n (i + 1 + 1) (q.stepTo (participants f ds) x i) m := by
      simp only [searchWalk, hpos, Bool.false_eq_true, if_false]
    rw [hwalk]
    obtain ⟨k1, k2, k3, k4, k5, k6⟩ := ih (i + 1) (by omega) (q := q.stepTo (participants f ds) x i)
      (fun j hij hj hs => (hq j (by omega) hj hs).trans
        (direction_congr rfl ((q.stepTo_bit _ x hi hj).trans (if_neg (by omega))).symm)) hbus
    refine ⟨k1, hplays.trans k2, k3, k4.trans ?_, fun j hj => ?_, fun j hij hj => ?_⟩
    · rw [Search.stepTo_candDisc, List.range'_succ, lastZeroTaken, lastZeroTaken, List.foldl_cons]
    · rw [k5 j (by omega), Search.stepTo_bit _ _ _ hi (by omega), if_neg (by omega)]
    · rcases Nat.lt_or_eq_of_le hij with hlt | rfl
      · exact k6 j hlt hj
      · rw [k5 i (by omega), Search.stepTo_bit _ _ _ hi hi, if_pos rfl]

/-- On an ideal bus with a device attached a reset slot shows presence, and every device is back at its start (R75). -/
theorem resetSlot_ideal (c : Params) {l : Line} {ds : List Device} (hl : l.bus = .ideal ds) :
    (l.resetSlot c).1 = ds.isEmpty ∧ (l.resetSlot c).2.bus = .ideal (ds.map Device.restart) := by
  rw [resetSlot_level, resetSlot_spec, hl]
  exact ⟨rfl, rfl⟩

/-- The bus after the reset slot and the command byte of a pass (R75, R182). -/
theorem searchCommand_ideal (c : Params) (f : Bool) (x : Addr) {l : Line} {ds : List Device} (hl : l.bus = .ideal ds) :
    ((l.resetSlot c).2.writeByte (searchCommand f)).bus = .ideal (ds.map (Device.onPath f x 0 (betweenPositions 0))) := by
  obtain ⟨-, hb⟩ := resetSlot_ideal c hl
  rw [writeByte_spec c, hb, written_ideal, List.map_map]
  exact congrArg _ (List.map_congr_left fun d _ => hear_searchCommand f x d)

/-- The slots of the pass that walks to `x`. -/
def leafSlots (alarmOnly : Bool) (addrs : List Addr) (x : Addr) : List Slot :=
  passSlots alarmOnly ((List.range 64).map (pathStep addrs x))

/-- A pass whose registers lead to `x` stores `x`, leaves the marker of `x`, emits `x` if it may, and leaves the devices
where a reset slot undoes it (R182 to R191). -/
theorem searchPass_leaf (c : Params) (n : Nat) {f : Bool} {ds : List Device} {x : Addr} (hx : x ∈ participants f ds)
    {q : Search} (hq : q.Leads (participants f ds) x) {l : Line} (hl : l.bus = .ideal ds) :
    let r := searchPass n f q (l.resetSlot c).2
    (l.resetSlot c).1 = false ∧ r.1.romBuf = x ∧ r.1.lastDisc = lastZeroTaken (participants f ds) x (List.range 64) 0 ∧
      r.1.out = (if addrCrcOk x = true ∧ q.out.length < n then q.out ++ [x] else q.out) ∧
      l.Plays c r.2 (leafSlots f (participants f ds) x) ∧
      ∃ ds', r.2.bus = .ideal ds' ∧ ds'.map Device.restart = ds.map Device.restart := by
  intro r
  have hpresent : (l.resetSlot c).1 = false := by
    obtain ⟨d, hd, -⟩ := mem_participants.1 hx
    rw [(resetSlot_ideal c hl).1]
    exact List.isEmpty_eq_false_iff.2 (List.ne_nil_of_mem hd)
  obtain ⟨hbus, hplays, hfault, hcand, -, hbits⟩ := searchWalk_onPath c hx 64 0 rfl (q := q.startPass)
    (fun j _ hj hs => hq j hj hs) (searchCommand_ideal c f x hl)
  obtain ⟨-, -, hout, -, -⟩ := searchWalk_keeps c 64 1 (by omega) (by omega) q.startPass
    ((l.resetSlot c).2.writeByte (searchCommand f)) (by simp)
  rw [← List.range_eq_range'] at hplays hcand
  have hrom : r.1.romBuf = x := eq_of_agree fun j hj => hbits j (Nat.zero_le j) hj
  refine ⟨hpresent, hrom, hcand, ?_, ?_, _, hbus, onPath_restart f x 64 .idle ds⟩
  · have hend := endPass_out_eq n (searchWalk 64 1 q.startPass ((l.resetSlot c).2.writeByte (searchCommand f))).1
    rw [hout, hfault, Search.startPass_out] at hend
    rw [show r.1.out = _ from hend, show (searchWalk 64 1 q.startPass _).1.romBuf = x from hrom]
    simp
  · have hstart := (resetSlot_plays c l).trans (writeByte_plays c (searchCommand f) (l.resetSlot c).2)
    rw [hpresent] at hstart
    have hall := hstart.trans hplays
    rw [leafSlots, passSlots, List.flatMap_map, List.length_map, List.length_range, if_neg (Nat.lt_irrefl 64),
      List.append_nil]
    exact hall

/-! ### All passes -/

/-- One pass and the passes after it. -/
theorem searchLoop_succ_present {c : Params} {l : Line} (h : (l.resetSlot c).1 = false) (k n : Nat) (f : Bool)
    (q : Search) : searchLoop (k + 1) c n f q l =
      let w := searchPass n f q (l.resetSlot c).2
      if w.1.lastDisc = 0 then (true, w.1, w.2) else searchLoop k c n f w.1 w.2 :=
  if_pos (by rw [presence_eq, h]; rfl)

/-- The emitted addresses, one leaf further on (R190, R191). -/
theorem emitted_succ (n : Nat) (pre : List Addr) (x : Addr) :
    (if addrCrcOk x = true ∧ ((pre.filter addrCrcOk).take n).length < n then (pre.filter addrCrcOk).take n ++ [x]
      else (pre.filter addrCrcOk).take n) = ((pre ++ [x]).filter addrCrcOk).take n := by
  rw [List.filter_append, List.length_take]
  by_cases hx : addrCrcOk x = true
  · rw [List.filter_singleton, hx]
    by_cases hn : (pre.filter addrCrcOk).length < n
    · rw [if_pos ⟨rfl, by omega⟩, List.take_of_length_le hn.le, List.take_of_length_le]
      · rfl
      · simp
        omega
    · rw [if_neg fun h => by omega, List.take_append_of_le_length (by omega)]
  · rw [if_neg fun h => hx h.1, List.filter_singleton, Bool.eq_false_iff.2 hx]
    simp

/-- How a search stands that has ended on an ideal bus: what it emitted, marker zero, the slots on the line, and the devices
where a reset slot undoes it. -/
structure SearchDone (c : Params) (ds : List Device) (l : Line) (slots : List Slot) (found : List Addr)
    (r : Bool × Search × Line) : Prop where
  ended : r.1 = true
  out : r.2.1.out = found
  lastDisc : r.2.1.lastDisc = 0
  plays : l.Plays c r.2.2 slots
  bus : ∃ ds', r.2.2.bus = .ideal ds' ∧ ds'.map Device.restart = ds.map Device.restart

/-- From registers that lead to the first of the leaves still to come, a search takes one pass for each of them and ends, if
it has the passes; otherwise it has not ended (R189, R194). -/
theorem searchLoop_leaves (c : Params) (n : Nat) {f : Bool} {addrs xs : List Addr} (hxs : LeafSorted addrs xs)
    (ys : List Addr) (pre : List Addr) (x : Addr) (budget : Nat) (hsplit : xs = pre ++ x :: ys) {ds : List Device}
    (haddrs : participants f ds = addrs) {q : Search} (hq : q.Leads addrs x)
    (hout : q.out = (pre.filter addrCrcOk).take n) {l : Line} (hl : l.bus = .ideal ds) :
    (ys.length < budget → SearchDone c ds l ((x :: ys).flatMap (leafSlots f addrs)) ((xs.filter addrCrcOk).take n)
      (searchLoop budget c n f q l)) ∧
    (budget ≤ ys.length → (searchLoop budget c n f q l).1 = false) := by
  induction budget generalizing ys pre x ds q l with
  | zero => exact ⟨fun h => absurd h (Nat.not_lt_zero _), fun _ => rfl⟩
  | succ k ih =>
    subst haddrs
    have hx : x ∈ participants f ds := (hxs.mem x).1 (by rw [hsplit]; simp)
    obtain ⟨hpresent, hrom, hlast, hout', hplays, ds', hbus, hrestart⟩ := searchPass_leaf c n hx hq hl
    rw [hout, emitted_succ] at hout'
    rw [searchLoop_succ_present hpresent]
    cases ys with
    | nil =>
      rw [hxs.last_marker hsplit] at hlast
      rw [if_pos hlast]
      refine ⟨fun _ => ⟨rfl, by rw [hout', hsplit], hlast, ?_, ds', hbus, hrestart⟩, fun h => by simp at h⟩
      rw [List.flatMap_cons, List.flatMap_nil, List.append_nil]
      exact hplays
    | cons x' ys =>
      obtain ⟨hne, hleads⟩ := hxs.next_leaf hsplit hrom hlast
      rw [if_neg hne]
      obtain ⟨hend, hgo⟩ := ih ys (pre ++ [x]) x' (by rw [hsplit, List.append_assoc]; rfl)
        (participants_of_restart hrestart) hleads hout' hbus
      refine ⟨fun h => ?_, fun h => hgo (by simpa using h)⟩
      obtain ⟨h1, h2, h3, h4, ds'', h5, h6⟩ := hend (by simpa using h)
      exact ⟨h1, h2, h3, hplays.trans h4, ds'', h5, h6.trans hrestart⟩

end Sys2Proof.Machine
end

section
/-! PROOFS. A whole search on the ideal bus, from its first pass to its end (R180, R194), in one step or
in several (R195). -/

namespace Sys2Proof.Machine

/-! ### The pass that no device takes part in -/

/-- Where no device takes part every device is out of the frame. -/
theorem onPath_nobody {f : Bool} {ds : List Device} (h : participants f ds = []) (x : Addr) (i : Nat) (phase : DevPhase) :
    ds.map (Device.onPath f x i phase) = ds.map (Device.onPath f x i .idle) := by
  refine List.map_congr_left fun d hd => ?_
  have hout : ¬d.OnWay f x i := fun hw => by
    have hmem := mem_participants.2 ⟨d, hd, hw.1, rfl⟩
    rw [h] at hmem
    cases hmem
  rw [onPath_of_not_onWay hout, onPath_of_not_onWay hout]

theorem onPath_idle (f : Bool) (x : Addr) (i : Nat) : Device.onPath f x i .idle = fun d => { d with phase := .idle } := by
  funext d
  exact congrArg _ (ite_self _)

/-- Devices out of the frame leave the line high and stay so (R75). -/
theorem readSlot_idle {l : Line} {ds : List Device} (h : l.bus = .ideal (ds.map fun d => { d with phase := .idle })) :
    l.readSlot.1 = true ∧ l.readSlot.2.bus = .ideal (ds.map fun d => { d with phase := .idle }) := by
  obtain ⟨h1, h2⟩ := readSlot_ideal h
  rw [List.map_map] at h2
  refine ⟨h1.trans ?_, h2⟩
  simp only [wiredAnd, List.all_eq_true, List.forall_mem_map]
  exact fun _ _ => rfl

/-- A walk ends at the first position with both lines high (R185). -/
theorem searchWalk_fault {n p : Nat} {q : Search} {l : Line} (h : (searchPosition p q l).1 = true) :
    searchWalk (n + 1) p q l = (searchPosition p q l).2 := if_pos h

/-- A pass that no device takes part in is aborted at position 1: it emits nothing and leaves marker zero (R185, R189). -/
theorem searchPass_nobody (c : Params) (n : Nat) {f : Bool} {ds : List Device} (h : participants f ds = []) (q : Search)
    {l : Line} (hl : l.bus = .ideal ds) (hpresent : (l.resetSlot c).1 = false) :
    let r := searchPass n f q (l.resetSlot c).2
    r.1.lastDisc = 0 ∧ r.1.out = q.out ∧ l.Plays c r.2 (passSlots f []) ∧
      ∃ ds', r.2.bus = .ideal ds' ∧ ds'.map Device.restart = ds.map Device.restart := by
  intro r
  have hcommand := searchCommand_ideal c f 0 hl
  rw [onPath_nobody h, onPath_idle] at hcommand
  obtain ⟨h1, hb1⟩ := readSlot_idle hcommand
  obtain ⟨h2, hb2⟩ := readSlot_idle hb1
  have hwalk := searchPosition_fault (p := 1) (q := q.startPass) h1 h2
  have hr : r = ({ q.startPass with pos := 1, fault := true }.endPass n,
      ((l.resetSlot c).2.writeByte (searchCommand f)).readSlot.2.readSlot.2) := by
    simp only [r, searchPass]
    rw [searchWalk_fault (n := 63) (by rw [hwalk]), hwalk]
  have hplays := (((resetSlot_plays c l).trans (writeByte_plays c (searchCommand f) (l.resetSlot c).2)).trans
    (readSlot_plays c _)).trans (readSlot_plays c _)
  rw [h1, h2, hpresent] at hplays
  rw [hr]
  exact ⟨rfl, rfl, hplays, _, hb2, by rw [List.map_map]; rfl⟩

/-! ### The whole search -/

/-- The slots of a search on an ideal bus: the reset slot where nothing is attached, one aborted pass where no device takes
part, and else one pass to each leaf. -/
def searchSlots (alarmOnly : Bool) (devices : List Device) (leaves : List Addr) : List Slot :=
  if devices = [] then [.rst true]
  else if leaves = [] then passSlots alarmOnly []
  else leaves.flatMap (leafSlots alarmOnly (participants alarmOnly devices))

/-- A search on an ideal bus takes one pass for each leaf, or one pass where there is none, and ends then (R194). -/
theorem searchLoop_ideal (c : Params) (n : Nat) {f : Bool} {ds : List Device} {xs : List Addr}
    (hxs : LeafSorted (participants f ds) xs) {q : Search} (hq : q.lastDisc = 0) (hout : q.out = []) {l : Line}
    (hl : l.bus = .ideal ds) (budget : Nat) :
    (max 1 xs.length ≤ budget → SearchDone c ds l (searchSlots f ds xs) ((xs.filter addrCrcOk).take n)
      (searchLoop budget c n f q l)) ∧
    (budget < max 1 xs.length → (searchLoop budget c n f q l).1 = false) := by
  obtain ⟨hlevel, hbus⟩ := resetSlot_ideal c hl
  cases xs with
  | nil =>
    rw [List.length_nil, max_eq_left (Nat.zero_le 1), List.filter_nil, List.take_nil]
    have hnobody : participants f ds = [] := List.eq_nil_iff_forall_not_mem.2 fun a ha => nomatch (hxs.mem a).2 ha
    cases budget with
    | zero => exact ⟨fun h => absurd h (by decide), fun _ => rfl⟩
    | succ k =>
      refine ⟨fun _ => ?_, fun h => absurd h (by omega)⟩
      by_cases hds : ds = []
      · have habsent : (l.resetSlot c).1 = true := by rw [hlevel, hds]; rfl
        have hplays := resetSlot_plays c l
        rw [habsent] at hplays
        rw [searchLoop_absent habsent, searchSlots, if_pos hds]
        exact ⟨rfl, hout, hq, hplays, _, hbus, by rw [List.map_map]; rfl⟩
      · have hpresent : (l.resetSlot c).1 = false := by rw [hlevel, List.isEmpty_eq_false_iff.2 hds]
        obtain ⟨h1, h2, h3, h4⟩ := searchPass_nobody c n hnobody q hl hpresent
        rw [searchLoop_succ_present hpresent, searchSlots, if_neg hds, if_pos rfl]
        dsimp only
        rw [if_pos h1]
        exact ⟨rfl, h2.trans hout, h1, h3, h4⟩
  | cons x ys =>
    have hds : ds ≠ [] := by
      rintro rfl
      obtain ⟨d, hd, -⟩ := mem_participants.1 ((hxs.mem x).1 List.mem_cons_self)
      cases hd
    rw [List.length_cons, max_eq_right (Nat.le_add_left 1 _), searchSlots, if_neg hds, if_neg (List.cons_ne_nil x ys)]
    obtain ⟨h1, h2⟩ := searchLoop_leaves c n hxs ys [] x budget rfl rfl (hxs.leads_first rfl hq)
      (hout.trans List.take_nil.symm) hl
    exact ⟨h1, fun h => h2 (Nat.le_of_lt_succ h)⟩

/-! ### The slots of a pass, counted -/

theorem countP_isReset_writtenByte (v : Byte) : (writtenByte v).countP Slot.isReset = 0 := by
  rw [writtenByte, List.countP_eq_zero, List.forall_mem_map]
  exact fun _ _ => nofun

theorem length_writtenByte (v : Byte) : (writtenByte v).length = 8 := by simp [writtenByte, byteBits]

/-- A pass of 64 positions is a reset slot, a byte and three slots for each position (R95, R182). -/
theorem leafSlots_length (f : Bool) (addrs : List Addr) (x : Addr) : (leafSlots f addrs x).length = 201 := by
  simp [leafSlots, passSlots, length_writtenByte, positionSlots, List.length_flatMap, Function.comp_def]

theorem leafSlots_resets (f : Bool) (addrs : List Addr) (x : Addr) : (leafSlots f addrs x).countP Slot.isReset = 1 := by
  simp [leafSlots, passSlots, countP_isReset_writtenByte, positionSlots, List.countP_flatMap, Slot.isReset,
    List.countP_cons, Function.comp_def]

/-- One reset slot for each leaf, and one where there is none. -/
theorem searchSlots_resets (f : Bool) (ds : List Device) (xs : List Addr) (h : ds = [] → xs = []) :
    (searchSlots f ds xs).countP Slot.isReset = max 1 xs.length := by
  unfold searchSlots
  split
  · next hds => rw [h hds]; rfl
  · split
    · next hxs => subst hxs; cases f <;> rfl
    · next hxs =>
      have hpos := List.length_pos_iff.2 hxs
      rw [List.countP_flatMap, max_eq_right hpos]
      simp [Function.comp_def, leafSlots_resets]

/-- 201 slots for each leaf. -/
theorem searchSlots_length (f : Bool) (ds : List Device) (xs : List Addr) (hds : ds ≠ []) (hxs : xs ≠ []) :
    (searchSlots f ds xs).length = 201 * xs.length := by
  rw [searchSlots, if_neg hds, if_neg hxs, List.length_flatMap]
  simp [leafSlots_length, Nat.mul_comm]

/-! ### A search that takes several steps -/

/-- What a step presented while a search was in flight is gone after its end. -/
theorem finishSearch_present (a : AfterSearch) (s : State) (q r : Search) (l m : Line) (w : Option InFlight) :
    State.finishSearch a
        { State.present {} { s with search := q, line := l, inFlight := w } with search := r, line := m, inFlight := none } =
      State.finishSearch a { s with search := r, line := m, inFlight := none } := by
  cases a <;> rfl

theorem budget_succ (k b : Nat) : (k + 1) * b = b + k * b := by ring

/-- A search that has not ended after the passes of `k` steps, and has after those of one more, ends with them after `k`
further steps (R195). -/
theorem run_searchEnds (k : Nat) {s : State} {f : InFlight} {q : Search} {l : Line}
    (hgo : (searchLoop (k * Config.passBudget) s.params f.capacity f.alarmOnly s.search s.line).1 = false)
    (hend : searchLoop ((k + 1) * Config.passBudget) s.params f.capacity f.alarmOnly s.search s.line = (true, q, l))
    (hr : ∀ rest, s.inputs ≠ .reset :: rest) :
    Sys2Proof.core.run k (s.continueSearch f) =
      .next (State.finishSearch f.next { s with search := q, line := l, inFlight := none }) := by
  induction k generalizing s with
  | zero =>
    rw [Nat.zero_add, Nat.one_mul] at hend
    rcases continueSearch_cases f s with ⟨-, e⟩ | ⟨e, -⟩
    · rw [e, hend]
      rfl
    · rw [hend] at e
      cases e
  | succ k ih =>
    rw [budget_succ, searchLoop_add] at hgo hend
    rcases continueSearch_cases f s with ⟨e, -⟩ | ⟨e, hnext⟩
    · simp only [e, if_true] at hgo
      cases hgo
    · simp only [e, Bool.false_eq_true, if_false] at hgo hend
      have hstep := step_inFlight (s := s.continueSearch f) (f := f) (by rw [hnext]; rfl) (by rw [hnext]; exact hr)
      have hrun := ih (s := s.continueSearch f) (by rw [hnext]; exact hgo) (by rw [hnext]; exact hend)
        (by rw [hnext]; exact hr)
      refine (run_of_next hstep k).trans (hrun.trans (congrArg _ ?_))
      rw [hnext, finishSearch_present]

/-- The further steps a search of `m` passes takes, `b` passes to the step. -/
theorem exists_furtherSteps {b m : Nat} (hb : 0 < b) (hm : 0 < m) :
    ∃ k, (m ≤ b → k = 0) ∧ k * b < m ∧ m ≤ (k + 1) * b := by
  refine ⟨(m - 1) / b, fun h => Nat.div_eq_of_lt (by omega), ?_⟩
  have h1 := Nat.div_mul_le_self (m - 1) b
  have h2 := Nat.lt_div_mul_add hb (a := m - 1)
  rw [Nat.add_mul, Nat.one_mul]
  omega

/-- The devices that take part, counted by their leaves: as many, if their addresses are distinct. -/
theorem length_dedup_participants {f : Bool} {ds : List Device} (h : (ds.map fun d => d.addr).Nodup) :
    (participants f ds).dedup.length = (takingPart f ds).length := by
  have hsub : (takingPart f ds).Sublist ds := by
    unfold takingPart
    split
    · exact List.filter_sublist
    · exact List.Sublist.refl _
  rw [participants, List.Nodup.dedup (h.sublist (hsub.map _)), List.length_map]

/-- What SEARCH_ROM presents of a search that found the first `n` of `all` (R180, R191). -/
theorem report_take {n : Nat} {all found : List Addr} (h : found = all.take n) :
    ({ addrs := some found, count := some found.length } : Answer) =
      { addrs := some (all.take n), count := some (min n all.length) } := by
  rw [h, List.length_take]

/-- Settles O21: the leaves in order, `searchLoop_ideal` for the passes of all the steps together, and `run_searchEnds`. -/
theorem searchFindsExactlyTheDevices : Obligations.SearchFindsExactlyTheDevices := by
  intro s f ds hl hnodup hr
  obtain ⟨xs, hxs, hlen⟩ := exists_leafSorted (participants f ds)
  rw [length_dedup_participants hnodup] at hlen
  have hpos : 0 < max 1 xs.length := Nat.lt_of_lt_of_le Nat.one_pos (Nat.le_max_left _ _)
  obtain ⟨k, hk, hgo, hend⟩ := exists_furtherSteps (b := Config.passBudget) (by decide) hpos
  have hdone := fun n => (searchLoop_ideal s.params n hxs (q := s.search.startSearch) rfl rfl hl _).1 hend
  have hall : ∀ a, a ∈ xs.filter addrCrcOk ↔ addrCrcOk a = true ∧ ∃ d ∈ takingPart f ds, d.addr = a := by
    intro a
    rw [List.mem_filter, hxs.mem, and_comm, participants, List.mem_map]
  refine ⟨k, xs.filter addrCrcOk, s.line.playSlots s.params (searchSlots f ds xs), searchSlots f ds xs, fun h => ?_, hall,
    hxs.sorted.filter addrCrcOk, ?_, ?_, fun h => ?_, fun n => ?_⟩
  · rw [← hlen] at h
    exact hk (max_le (by decide) h)
  · rw [← (hdone 0).plays.line, (hdone 0).plays.hist]
  · rw [← hlen, searchSlots_resets]
    rintro rfl
    exact List.eq_nil_iff_forall_not_mem.2 fun a ha => by
      obtain ⟨d, hd, -⟩ := mem_participants.1 ((hxs.mem a).1 ha)
      cases hd
  · rw [← hlen, searchSlots_length]
    · rintro rfl
      cases f <;> exact h rfl
    · rintro rfl
      exact h (List.length_eq_zero_iff.1 hlen.symm)
  · obtain ⟨h1, h2, h3, h4, -⟩ := hdone n
    exact ⟨_, _, exec_searchRom f _, run_searchEnds _
      ((searchLoop_ideal s.params n hxs (q := s.search.startSearch) rfl rfl hl _).2 hgo) (Prod.ext h1 rfl) hr, rfl, rfl,
      h4.line, h3, report_take h2⟩

/-! ### A discovery and another one -/

theorem firstPasses_ideal {s : State} (n : Nat) {f : Bool} {ds : List Device} {xs : List Addr}
    (hxs : LeafSorted (participants f ds) xs) (hl : s.line.bus = .ideal ds) :
    (max 1 xs.length ≤ Config.passBudget → SearchDone s.params ds s.line (searchSlots f ds xs)
      ((xs.filter addrCrcOk).take n) (s.firstPasses n f)) ∧
    (Config.passBudget < max 1 xs.length → (s.firstPasses n f).1 = false) :=
  searchLoop_ideal s.params n hxs rfl rfl hl _

/-- The state after a discovery that has found `found` and ended: the registry, what is presented, and the devices where a
reset slot undoes it (R210). -/
structure Discovered (s : State) (filter : Bool) (devices : List Device) (found : List Addr) (t : State) : Prop where
  inFlight : t.inFlight = none
  params : t.params = s.params
  reg : t.reg = retained s.params filter found ++
    List.replicate (s.params.nMax - (retained s.params filter found).length) 0
  regCount : t.regCount = (retained s.params filter found).length
  res : t.res = { count := some (retained s.params filter found).length }
  bus : ∃ ds', t.line.bus = .ideal ds' ∧ ds'.map Device.restart = devices.map Device.restart

/-- A discovery on an ideal bus ends in its own step exactly where one step has the passes (R194, R210). -/
theorem discover_ideal {s t : State} {f : Bool} {ds : List Device} {xs : List Addr}
    (hxs : LeafSorted (participants false ds) xs) (hl : s.line.bus = .ideal ds) (h : exec (.discover f) s = .next t) :
    (max 1 xs.length ≤ Config.passBudget → Discovered s f ds ((xs.filter addrCrcOk).take s.params.nMax) t) ∧
    (Config.passBudget < max 1 xs.length → t.inFlight ≠ none) := by
  obtain ⟨hend, hgo⟩ := firstPasses_ideal s.params.nMax hxs hl
  rw [exec_discover_allowed (((exec_next_iff _ _).1 ⟨t, h⟩).2 f rfl)] at h
  cases h
  rcases hr : s.firstPasses s.params.nMax false with ⟨_ | _, q, l⟩ <;> rw [hr] at hend hgo
  · rw [runSearch_goes_on hr]
    exact ⟨fun hm => (nomatch (hend hm).ended), fun _ => nofun⟩
  · rw [runSearch_ended hr]
    refine ⟨fun hm => ?_, fun hm => nomatch hgo hm⟩
    obtain ⟨-, hout, -, -, hbus⟩ := hend hm
    rw [← hout]
    exact ⟨rfl, rfl, rfl, rfl, rfl, hbus⟩

/-- Settles O25: the second discovery has the same devices taking part, so by `discover_ideal` it ends with the same. -/
theorem discoverTwiceLeavesTheSameRegistry : Obligations.DiscoverTwiceLeavesTheSameRegistry := by
  intro s t u f ds hl h1 hfl h2
  obtain ⟨xs, hxs, -⟩ := exists_leafSorted (participants false ds)
  obtain ⟨hdone, hlong⟩ := discover_ideal hxs hl h1
  have hm : max 1 xs.length ≤ Config.passBudget := Nat.le_of_not_lt fun hlt => hlong hlt hfl
  obtain ⟨-, hparams, hreg, hcount, hres, ds', hbus, hrestart⟩ := hdone hm
  rw [← participants_of_restart hrestart] at hxs
  obtain ⟨k1, -, k2, k3, k4, -⟩ := (discover_ideal hxs hbus h2).1 hm
  rw [hparams] at k2 k3 k4
  exact ⟨k1, k2.trans hreg.symm, k3.trans hcount.symm, k4.trans hres.symm⟩

end Sys2Proof.Machine
end
